-- ==== Sys2Proof/Word.lean ====
section
/-! DEFINITION. The bit-vector types of the block: what the spec adds, shifts or masks, or software sees as bits. -/

namespace Sys2Proof

/-- A block register, a command word, or one 32-bit bus transfer (00_scope.md R8, 20_memory.md R101). -/
abbrev Word := BitVec 32

/-- An element of BYTE (10_state.md R52). -/
abbrev Byte := BitVec 8

/-- An element of BIT (10_state.md R53). -/
abbrev Bit := BitVec 1

/-- A binary64 pattern: a matrix element, Q or COEF (00_scope.md R8, R11). -/
abbrev F64 := BitVec 64

end Sys2Proof
end

