-- ==== Sys2Proof/Config.lean ====
section
/-! DEFINITION. What an implementation fixes (the four parameters of 00_scope.md R7) and the free values (the spec's draws). -/

namespace Sys2Proof

/-- The parameters a model takes as arguments (00_scope.md R7; 93_implementation_defined.md U1).
State holds one, and no step changes it (log entry 1). -/
structure Params where
  /-- the largest legal ROWS -/
  rmax : Nat
  /-- the largest legal COLS -/
  cmax : Nat
  /-- the size of BYTE in bytes -/
  bmax : Nat
  /-- the bus address of the block -/
  base : Nat
deriving DecidableEq, Repr

/-- PMAX, the number of entries of PERM (00_scope.md R7). -/
def Params.pmax (p : Params) : Nat := (p.rmax / 2) * (p.cmax / 2)

/-- FMAX, the number of elements of BIT (00_scope.md R7). -/
def Params.fmax (p : Params) : Nat := 32 + 8 * p.bmax

/-- The reference configuration (00_scope.md R7), at bus address 0 (DESIGN CHOICE, log entry 1). -/
def Params.reference : Params := { rmax := 256, cmax := 256, bmax := 1024, base := 0 }

/-- A draw: a value the spec leaves unspecified, which "a model takes as a free input under no law"
(00_scope.md, glossary). `Config.draw w id idx` is the draw of width `w` that identifier `id` gives to element `idx`.
It has no body: nothing can evaluate it or prove a value of it (log entry 2). -/
opaque Config.draw (w : Nat) (id idx : Nat) : BitVec w

end Sys2Proof
end

