-- ==== Sys2Proof/Syntax.lean ====
section
/-! DEFINITION. The commands: one constructor for each row of spec/opcode_table.json (30_encoding.md R143). -/

namespace Sys2Proof

/-- The sixteen commands. A command word carries no operand (30_encoding.md R142), so no constructor has an argument. -/
inductive Instr where
  /-- R177: no data effect -/
  | nop
  /-- R210: bytes to bits -/
  | b2bits
  /-- R211: bits to bytes -/
  | bits2b
  /-- R212: 32-bit integer to bits -/
  | u32bits
  /-- R213: bits to 32-bit integer -/
  | bitsu32
  /-- R214: non-negative modulo -/
  | posmod
  /-- R234: generate a permutation into PERM -/
  | permgen
  /-- R255: forward transform in place -/
  | fwd
  /-- R256: inverse transform in place -/
  | inv
  /-- R288: write one bit into one coefficient -/
  | qwrite
  /-- R289: read one bit from one coefficient -/
  | qread
  /-- R316: build the framed bit sequence -/
  | frame
  /-- R317: embed into a transformed matrix -/
  | embed
  /-- R318: extract from a transformed matrix -/
  | extract
  /-- R319: transform, embed, transform back -/
  | embedf
  /-- R320: transform, then extract -/
  | extractf
deriving DecidableEq, Repr

end Sys2Proof
end

