-- ==== Sys2Proof/WellFormed.lean ====
section
/-! DEFINITION. What the spec calls well formed: a command word (30_encoding.md R141, R145), and a set of parameters (00_scope.md R7). -/

namespace Sys2Proof

/-- RSV, bits 31:8, is 0 (30_encoding.md R141). -/
abbrev CommandWord.rsvZero (w : Word) : Prop := w.toNat / 256 = 0

/-- OPC, bits 7:0, is one of the sixteen opcodes (30_encoding.md R143, R144). -/
abbrev CommandWord.opcAssigned (w : Word) : Prop :=
  w.toNat % 256 ∈
    [0x00, 0x01, 0x02, 0x03, 0x04, 0x05, 0x10, 0x20, 0x21, 0x30, 0x31, 0x40, 0x41, 0x42, 0x43, 0x44]

/-- A word that is not illegal by 30_encoding.md R144 and R145. -/
abbrev CommandWord.wf (w : Word) : Prop := CommandWord.rsvZero w ∧ CommandWord.opcAssigned w

/-- Every command is well formed: a command has no operand that could be out of range (30_encoding.md R142). -/
def Instr.wf (i : Instr) : Bool :=
  match i with
  | .nop | .b2bits | .bits2b | .u32bits | .bitsu32 | .posmod | .permgen | .fwd | .inv
  | .qwrite | .qread | .frame | .embed | .extract | .embedf | .extractf => true

/-- RMAX and CMAX are even (00_scope.md R7). -/
abbrev Params.evenDims (p : Params) : Prop := p.rmax % 2 = 0 ∧ p.cmax % 2 = 0

/-- RMAX and CMAX lie in 2 to 65534 (00_scope.md R7). -/
abbrev Params.dimRange (p : Params) : Prop :=
  (2 ≤ p.rmax ∧ p.rmax ≤ 65534) ∧ (2 ≤ p.cmax ∧ p.cmax ≤ 65534)

/-- RMAX*CMAX is at most 2^23, so that MAT fits its window (00_scope.md R7, D2). -/
abbrev Params.areaFits (p : Params) : Prop := p.rmax * p.cmax ≤ 2 ^ 23

/-- BMAX lies in 1 to 65536 (00_scope.md R7). -/
abbrev Params.byteRange (p : Params) : Prop := 1 ≤ p.bmax ∧ p.bmax ≤ 65536

/-- BASE is a multiple of 2^27 (00_scope.md R7). -/
abbrev Params.baseAligned (p : Params) : Prop := p.base % 2 ^ 27 = 0

/-- The constraints of 00_scope.md R7. -/
abbrev Params.wf (p : Params) : Prop :=
  p.evenDims ∧ p.dimRange ∧ p.areaFits ∧ p.byteRange ∧ p.baseAligned

end Sys2Proof
end

