-- ==== Sys2Proof/Decode.lean ====
section
/-! DEFINITION. The decoder of command words, total on any bytes, and the encoder (30_encoding.md R140-R146). -/

namespace Sys2Proof

/-- Why a decoder refuses. The first two are the ILLEGAL words of 30_encoding.md R144. -/
inductive DecodeError where
  /-- RSV (bits 31:8) is not 0 -/
  | reservedBits
  /-- OPC (bits 7:0) is none of the sixteen opcodes -/
  | unassignedOpcode
  /-- not four bytes: a command is exactly one 32-bit word (R140) -/
  | notOneWord
deriving DecidableEq, Repr

/-- OPC: bits 7:0 of a command word (30_encoding.md R141). -/
def opcField (w : Word) : BitVec 8 := w.extractLsb' 0 8

/-- RSV: bits 31:8 of a command word (30_encoding.md R141). -/
def rsvField (w : Word) : BitVec 24 := w.extractLsb' 8 24

/-- The opcode map (30_encoding.md R143). -/
def decodeOpcode (opc : BitVec 8) : Except DecodeError Instr :=
  match opc.toNat with
  | 0x00 => .ok .nop
  | 0x01 => .ok .b2bits
  | 0x02 => .ok .bits2b
  | 0x03 => .ok .u32bits
  | 0x04 => .ok .bitsu32
  | 0x05 => .ok .posmod
  | 0x10 => .ok .permgen
  | 0x20 => .ok .fwd
  | 0x21 => .ok .inv
  | 0x30 => .ok .qwrite
  | 0x31 => .ok .qread
  | 0x40 => .ok .frame
  | 0x41 => .ok .embed
  | 0x42 => .ok .extract
  | 0x43 => .ok .embedf
  | 0x44 => .ok .extractf
  | _ => .error .unassignedOpcode

/-- `decode(w)` of 30_encoding.md R144. -/
def decodeWord (w : Word) : Except DecodeError Instr :=
  if rsvField w ≠ 0 then .error .reservedBits else decodeOpcode (opcField w)

/-- The word of four bytes, the first at the lowest address: the bus is little-endian (20_memory.md R111). -/
def wordOfBytes : List Byte → Option Word
  | [b0, b1, b2, b3] => some (b3 ++ b2 ++ b1 ++ b0)
  | _ => none

/-- The four bytes of a word, the least significant first (20_memory.md R111). -/
def bytesOfWord (w : Word) : List Byte :=
  [w.extractLsb' 0 8, w.extractLsb' 8 8, w.extractLsb' 16 8, w.extractLsb' 24 8]

/-- The decoder on bytes: a command is exactly four of them (30_encoding.md R140). -/
def decodeBytes (bs : List Byte) : Except DecodeError Instr :=
  match wordOfBytes bs with
  | none => .error .notOneWord
  | some w => decodeWord w

/-- The opcode of a command (30_encoding.md R143). -/
def opcode (i : Instr) : BitVec 8 :=
  match i with
  | .nop => 0x00
  | .b2bits => 0x01
  | .bits2b => 0x02
  | .u32bits => 0x03
  | .bitsu32 => 0x04
  | .posmod => 0x05
  | .permgen => 0x10
  | .fwd => 0x20
  | .inv => 0x21
  | .qwrite => 0x30
  | .qread => 0x31
  | .frame => 0x40
  | .embed => 0x41
  | .extract => 0x42
  | .embedf => 0x43
  | .extractf => 0x44

/-- The command word of a command is `zext_32(OPC)` (30_encoding.md R143). -/
def encode (i : Instr) : Word := (opcode i).setWidth 32

/-- The command word that the low `nbits` bits of `w` stand for, every bit above them 0. -/
def tableWord (nbits w : Nat) : Word := BitVec.ofNat 32 (w % 2 ^ nbits)

/-- What the decoder reads from an opcode-table word, laid out as four little-endian bytes.
A row of more than 32 bits is no command of this block (30_encoding.md R140). -/
def decodeTableWord (nbits w : Nat) : Option Instr :=
  if 32 < nbits then none else (decodeBytes (bytesOfWord (tableWord nbits w))).toOption

end Sys2Proof
end

