-- ==== Sys2Proof/Machine/Binary64.lean ====
section
/-! DEFINITION. binary64 arithmetic, rounded to nearest with ties to even (00_scope.md R11; log entries 8 and 9).
Every finite binary64 is a whole number of units of 2^-1074, so the exact values are Nat and Int throughout. -/

namespace Sys2Proof.Machine

/-- The sign bit. -/
def f64Neg (x : F64) : Bool := x.getLsbD 63

/-- The biased exponent field. -/
def f64Exp (x : F64) : Nat := (x.extractLsb' 52 11).toNat

/-- The fraction field. -/
def f64Frac (x : F64) : Nat := (x.extractLsb' 0 52).toNat

/-- `finite(x)`: "x is neither an infinity nor a NaN" (R11). -/
def f64Finite (x : F64) : Bool := f64Exp x != 2047

/-- The magnitude of a finite value, in units of 2^-1074. -/
def f64Mag (x : F64) : Nat :=
  if f64Exp x = 0 then f64Frac x else (2 ^ 52 + f64Frac x) * 2 ^ (f64Exp x - 1)

/-- The real number a finite pattern denotes, in units of 2^-1074. -/
def f64Int (x : F64) : Int := if f64Neg x then -(f64Mag x : Int) else f64Mag x

/-- `num / den` rounded to the nearest integer, a tie to the even one. -/
def roundHalfEven (num den : Nat) : Nat :=
  let quo := num / den
  let rem := num % den
  if 2 * rem < den then quo
  else if den < 2 * rem then quo + 1
  else quo + quo % 2

/-- The pattern of +infinity. -/
def f64InfBits : Nat := 0x7FF0000000000000

/-- How many low bits of a magnitude of `units` whole units of 2^-1074 a binary64 cannot hold. -/
def f64Shift (units : Nat) : Nat := units.log2 - 52

/-- The 63 low bits of `fl(num / den)`, for a non-negative number given in units of 2^-1074. The significand, rounded to 53
bits, is added to the exponent field, so that a carry out of it lands in the exponent. -/
def f64RoundBits (num den : Nat) : Nat :=
  let k := f64Shift (num / den)
  min (k * 2 ^ 52 + roundHalfEven num (den * 2 ^ k)) f64InfBits

/-- `fl(x)` for x = ± num / den in units of 2^-1074 (R11): rounds to nearest, ties to even, and gives an infinity past the
largest finite magnitude. -/
def f64Round (neg : Bool) (num den : Nat) : F64 :=
  BitVec.ofNat 64 ((if neg then 2 ^ 63 else 0) + f64RoundBits num den)

/-- The pattern that stands for a result no rule gives: a quiet NaN (log entry 9). -/
def f64NaN : F64 := 0x7FF8000000000000

/-- The value with its sign changed. -/
def f64Negate (x : F64) : F64 := x ^^^ 0x8000000000000000

/-- `add(a, b) = fl(a + b)` (R11). An exact zero is +0 unless both operands are negative. -/
def f64Add (a b : F64) : F64 :=
  if f64Finite a && f64Finite b then
    let n := f64Int a + f64Int b
    f64Round (if n = 0 then f64Neg a && f64Neg b else decide (n < 0)) n.natAbs 1
  else f64NaN

/-- `sub(a, b) = fl(a - b)` (R11). -/
def f64Sub (a b : F64) : F64 := f64Add a (f64Negate b)

/-- `half(a) = fl(a / 2)` (R11). -/
def f64Half (a : F64) : F64 := if f64Finite a then f64Round (f64Neg a) (f64Mag a) 2 else f64NaN

/-- `fmul(a, b) = fl(a * b)` (R11). -/
def f64Mul (a b : F64) : F64 :=
  if f64Finite a && f64Finite b then
    f64Round (f64Neg a != f64Neg b) (f64Mag a * f64Mag b) (2 ^ 1074)
  else f64NaN

/-- `fdiv(a, b) = fl(a / b)` (R11), for a non-zero divisor. -/
def f64Div (a b : F64) : F64 :=
  if f64Finite a && f64Finite b && f64Mag b != 0 then
    f64Round (f64Neg a != f64Neg b) (f64Mag a * 2 ^ 1074) (f64Mag b)
  else f64NaN

/-- `toF(k)`: the binary64 equal to an integer of magnitude at most 2^53 (R11). -/
def f64OfInt (k : Int) : F64 := f64Round (decide (k < 0)) (k.natAbs * 2 ^ 1074) 1

/-- `floor(x + 1/2)` of a finite x, exact on reals (44_qim.md R283: "nearest integer, half-way rounds up"). -/
def f64NearestInt (x : F64) : Int := (f64Int x + 2 ^ 1073) / 2 ^ 1074

end Sys2Proof.Machine
end

