-- ==== Sys2Proof/Machine/State.lean ====
section
/-! DEFINITION. The state of the block and of its surroundings as plain data, the reasons to stop, and the state after reset.
INVENTORY.md lists every field with the rule that names it. -/

namespace Sys2Proof.Machine

/-! ### Registers -/

/-- The sub-band that CTRL.BAND selects (10_state.md R34): all four codes are legal. -/
inductive Band where
  | ll | lh | hl | hh
deriving DecidableEq, Repr

/-- The error codes 1 to 8 of 60_exceptions.md R350. Code 0 (NONE) is the absence of one. -/
inductive ErrCode where
  | dimension | capacity | config | decodeMismatch | illegalCmd | sequence | numeric | range
deriving DecidableEq, Repr

/-- CTRL (10_state.md R34). SRST is write-only and holds nothing. -/
structure Ctrl where
  band : Band
  ie : Bool
deriving DecidableEq, Repr

/-- STATUS (10_state.md R35). BUSY is not here: it is 1 exactly when a command is in flight (R50; log entry 14). -/
structure Status where
  done : Bool
  err : Bool
  cmdlost : Bool
  /-- `none` is code 0 (NONE) -/
  errcode : Option ErrCode
  xf : Bool
  seedValid : Bool
deriving DecidableEq, Repr

/-- The data registers with storage of their own (10_state.md R37-R48). -/
structure Regs where
  rows : BitVec 16
  cols : BitVec 16
  qLo : Word
  qHi : Word
  seed : Word
  reps : Word
  len : Word
  bitlen : Word
  pn : Word
  off : Word
  arg0 : Word
  arg1 : Word
  coefLo : Word
  coefHi : Word
  result : Word
deriving DecidableEq, Repr

/-! ### Memories -/

/-- What one memory element holds: a value written to it, or the draw with this identifier
(10_state.md R61: "A model gives each element a draw that holds until the element is written"). -/
inductive Slot (w : Nat) where
  | val (v : BitVec w)
  | draw (id : Nat)
deriving DecidableEq, Repr

/-- One of the four memories. `cells` lists elements by index, rising, and never one that holds what an unlisted element
holds, which is the draw `background` (log entries 2 and 3). -/
structure Memory (w : Nat) where
  background : Nat
  cells : List (Nat × Slot w)
deriving DecidableEq, Repr

/-! ### The bus and the host -/

/-- The 24 registers of the register block (10_state.md R31). -/
inductive Reg where
  | id | cfgRmax | cfgCmax | cfgBmax | ctrl | status | cmd | rows | cols | qLo | qHi | seed | reps | len | bitlen
  | pn | off | arg0 | arg1 | coefLo | coefHi | result | nsites | capbits
deriving DecidableEq, Repr

/-- The four memory windows (20_memory.md R102). -/
inductive Region where
  | byte | bit | perm | mat
deriving DecidableEq, Repr

/-- The host's two operations (20_memory.md R101). -/
inductive BusOp where
  | read
  | write (v : Word)
deriving DecidableEq, Repr

/-- One bus access: a bus address, a width in bits (only 32 is served, 20_memory.md R108), and what it does. -/
structure BusAccess where
  addr : Nat
  width : Nat
  op : BusOp
deriving DecidableEq, Repr

/-- The normal responses to an access (20_memory.md R101, R110). -/
inductive BusReply where
  /-- a read's 32-bit value -/
  | data (v : Word)
  /-- a write was performed, dropped or ignored: all three look alike to the host (R110; 70_reset_and_hazards.md R403) -/
  | written
deriving DecidableEq, Repr

/-- A primitive statement of a host program (30_encoding.md R150, R151), labels resolved to statement numbers. -/
inductive HostStmt where
  | wr (r : Reg) (v : Word)
  | rd (r : Reg)
  | wrw (g : Region) (w : Nat) (v : Word)
  | rdw (g : Region) (w : Nat)
  | beq (r : Reg) (mask v : Word) (target : Nat)
  | bne (r : Reg) (mask v : Word) (target : Nat)
  | goto (target : Nat)
deriving DecidableEq, Repr

/-- The host that runs a program: the model's own, outside the block (log entry 12). -/
structure HostAgent where
  prog : List HostStmt
  pc : Nat
  /-- the values its reads were answered, the latest first; `none` where the block was not selected (log entries 7 and 12) -/
  reads : List (Option Word)
deriving DecidableEq, Repr

/-- Which agent acts next (60_exceptions.md R354: "The block's events are host bus accesses, command completion and hard
reset"). -/
inductive Turn where
  /-- the engine completes the command in flight, if there is one -/
  | engine
  /-- the host runs the next statement of its program, if there is one -/
  | host
  /-- a bus master performs this access -/
  | bus (a : BusAccess)
  /-- the platform asserts the hard reset (70_reset_and_hazards.md R390) -/
  | hardReset
deriving DecidableEq, Repr

/-! ### The state -/

/-- The machine: the block's architectural state (10_state.md R30), its parameters, and the model's own fields for its
surroundings (`drawCount`, `agenda`, `host`, `reply`; INVENTORY.md). -/
structure State where
  params : Params
  regs : Regs
  ctrl : Ctrl
  status : Status
  /-- the in-flight command (10_state.md R50) -/
  inflight : Option Word
  /-- MAT by window word: word `2e` is the low half of element `e`, word `2e+1` its high half (20_memory.md R104) -/
  mat : Memory 32
  bytes : Memory 8
  bits : Memory 1
  perm : Memory 32
  /-- the next draw identifier that nothing holds yet -/
  drawCount : Nat
  /-- who acts next, in order; when it is empty the engine acts, or the host when the block is idle (log entry 4) -/
  agenda : List Turn
  host : HostAgent
  /-- the response to the last access the block served (log entry 13) -/
  reply : Option BusReply
deriving DecidableEq, Repr

/-! ### Stops -/

/-- Which of 20_memory.md R106, R107 and R108 an access breaks. -/
inductive BusErrorCause where
  /-- R106: an offset with nothing behind it -/
  | unimplemented
  /-- R107: an offset that is not a multiple of 4 -/
  | misaligned
  /-- R108: a width other than 32 bits -/
  | wrongWidth
deriving DecidableEq, Repr

/-- Why the machine stops with a fault. -/
inductive Fault where
  /-- Raised by a bus access that gets a bus error (20_memory.md R106-R109); `data` is what a read returns, 0.
  Safe: the block itself goes on unchanged, and how the host reacts is the platform's (log entry 6). -/
  | busError (cause : BusErrorCause) (data : Word)
deriving DecidableEq, Repr

/-- Why an instruction has no meaning. -/
inductive Refusal where
  /-- Raised by an arm of exec whose command has no meaning yet. Safe: the machine stops. -/
  | notModelled (mnemonic : String)
deriving DecidableEq, Repr

/-! ### Reset -/

/-- Reset values of the data registers (10_state.md R31, R60). -/
def Regs.reset : Regs where
  rows := 0
  cols := 0
  qLo := 0
  qHi := 0
  seed := 0
  reps := 1
  len := 0
  bitlen := 0
  pn := 0
  off := 0
  arg0 := 0
  arg1 := 0
  coefLo := 0
  coefHi := 0
  result := 0

/-- CTRL = 0x00000002 (10_state.md R60). -/
def Ctrl.reset : Ctrl := { band := .hl, ie := false }

/-- STATUS = 0x00000000 (10_state.md R60). -/
def Status.reset : Status :=
  { done := false, err := false, cmdlost := false, errcode := none, xf := false, seedValid := false }

/-- A memory whose every element is the draw `id` (10_state.md R61). -/
def Memory.undefined (w id : Nat) : Memory w := { background := id, cells := [] }

/-- The state after a hard reset of the reference configuration (70_reset_and_hazards.md R390; 10_state.md R60, R61),
with nothing loaded around it: no host program and no pending turn (log entries 1, 2 and 17). -/
def State.reset : State where
  params := Params.reference
  regs := Regs.reset
  ctrl := Ctrl.reset
  status := Status.reset
  inflight := none
  mat := Memory.undefined 32 0
  bytes := Memory.undefined 8 1
  bits := Memory.undefined 1 2
  perm := Memory.undefined 32 3
  drawCount := 4
  agenda := []
  host := { prog := [], pc := 0, reads := [] }
  reply := none

end Sys2Proof.Machine
end

