-- ==== Sys2Proof/Machine/Memory.lean ====
section
/-! DEFINITION. The operations on one memory: every read and write of MAT, BYTE, BIT and PERM goes through them. -/

namespace Sys2Proof.Machine

/-- The value of a slot at index `a`. -/
def Slot.value {w : Nat} (x : Slot w) (a : Nat) : BitVec w :=
  match x with
  | .val v => v
  | .draw id => Config.draw w id a

/-- What element `a` holds. -/
def Memory.slot {w : Nat} (m : Memory w) (a : Nat) : Slot w :=
  (m.cells.lookup a).getD (.draw m.background)

/-- The value of element `a` (20_memory.md R126: "the last value written to it", and until then its draw). -/
def Memory.read {w : Nat} (m : Memory w) (a : Nat) : BitVec w := (m.slot a).value a

/-- The elements from `lo`, `n` of them. -/
def Memory.readRange {w : Nat} (m : Memory w) (lo n : Nat) : List (BitVec w) :=
  (List.range n).map fun i => m.read (lo + i)

/-- The slots of the `n` elements from `lo` on, found in one pass over the cells: how a program runs `readRange`. -/
def Memory.slotsFrom {w : Nat} (m : Memory w) (lo n : Nat) : Array (Slot w) :=
  m.cells.foldr (fun c acc => if lo ≤ c.1 then acc.setIfInBounds (c.1 - lo) c.2 else acc)
    (Array.replicate n (.draw m.background))

/-- `readRange` in one pass. -/
def Memory.readRangeFast {w : Nat} (m : Memory w) (lo n : Nat) : List (BitVec w) :=
  let slots := m.slotsFrom lo n
  (List.range n).map fun i => (slots.getD i (.draw m.background)).value (lo + i)

theorem Memory.slotsFrom_getElem? {w : Nat} (m : Memory w) (lo n i : Nat) :
    (m.slotsFrom lo n)[i]? = if i < n then some (m.slot (lo + i)) else none := by
  obtain ⟨bg, cells⟩ := m
  simp only [Memory.slotsFrom, Memory.slot]
  induction cells with
  | nil => simp [Array.getElem?_replicate]
  | cons c cells ih =>
    obtain ⟨a, x⟩ := c
    simp only [List.foldr_cons, List.lookup_cons]
    by_cases hlo : lo ≤ a
    · rw [if_pos hlo, Array.getElem?_setIfInBounds, ih]
      by_cases ha : a - lo = i
      · have hsize : ∀ l : List (Nat × Slot w),
            (l.foldr (fun c acc => if lo ≤ c.1 then acc.setIfInBounds (c.1 - lo) c.2 else acc)
              (Array.replicate n (Slot.draw bg))).size = n := by
          intro l
          induction l with
          | nil => simp
          | cons d l ihl => rw [List.foldr_cons]; split <;> simpa using ihl
        have hi : lo + i = a := by omega
        simp [ha, hsize, hi]
      · have hne : (lo + i == a) = false := by simp; omega
        simp [ha, hne]
    · have hne : (lo + i == a) = false := by simp; omega
      rw [if_neg hlo, ih]
      simp [hne]

/-- A program may read a range in one pass: the two agree on every memory. -/
@[csimp] theorem Memory.readRange_eq_fast : @Memory.readRange = @Memory.readRangeFast := by
  funext w m lo n
  simp only [Memory.readRange, Memory.readRangeFast, Memory.read]
  refine List.map_congr_left fun i hi => ?_
  have hi' : i < n := by simpa using hi
  simp [Array.getD_eq_getD_getElem?, m.slotsFrom_getElem?, hi']

/-- The cells that put the slots `xs` at `lo`, `lo + 1`, ... over a background draw `bg`: a slot that an unlisted element
holds anyway is not listed. -/
def cellsFrom {w : Nat} (bg : Nat) : Nat → List (Slot w) → List (Nat × Slot w)
  | _, [] => []
  | lo, x :: xs => if x = .draw bg then cellsFrom bg (lo + 1) xs else (lo, x) :: cellsFrom bg (lo + 1) xs

/-- The memory with the slots `xs` at `lo`, `lo + 1`, ... and every other element as it was. -/
def Memory.writeSlots {w : Nat} (m : Memory w) (lo : Nat) (xs : List (Slot w)) : Memory w :=
  { m with
    cells := m.cells.filter (fun c => c.1 < lo) ++ cellsFrom m.background lo xs
      ++ m.cells.filter (fun c => lo + xs.length ≤ c.1) }

/-- The memory with the values `vs` written from `lo` on. -/
def Memory.writeRange {w : Nat} (m : Memory w) (lo : Nat) (vs : List (BitVec w)) : Memory w :=
  m.writeSlots lo (vs.map .val)

/-- The memory with `v` written to element `a`. -/
def Memory.write {w : Nat} (m : Memory w) (a : Nat) (v : BitVec w) : Memory w := m.writeRange a [v]

/-- The memory with `n` elements from `lo` on turned into the draw `id` (70_reset_and_hazards.md R392). -/
def Memory.scramble {w : Nat} (m : Memory w) (lo n id : Nat) : Memory w :=
  m.writeSlots lo (List.replicate n (.draw id))

/-- The canonical form: indices strictly rising, and no listed element that holds what an unlisted one does. -/
abbrev Memory.wf {w : Nat} (m : Memory w) : Prop :=
  m.cells.Pairwise (fun a b => a.1 < b.1) ∧ ∀ c ∈ m.cells, c.2 ≠ .draw m.background

/-- Every listed element lies below `size`: a memory has no other elements (00_scope.md R10). -/
abbrev Memory.within {w : Nat} (m : Memory w) (size : Nat) : Prop := ∀ c ∈ m.cells, c.1 < size

/-- A slot that is a draw was drawn before `count`. -/
def Slot.drawnBefore {w : Nat} (x : Slot w) (count : Nat) : Bool :=
  match x with
  | .val _ => true
  | .draw id => id < count

/-- Every draw the memory holds was drawn before `count`, so that draw `count` is fresh. -/
abbrev Memory.drawnBefore {w : Nat} (m : Memory w) (count : Nat) : Prop :=
  m.background < count ∧ ∀ c ∈ m.cells, c.2.drawnBefore count = true

end Sys2Proof.Machine
end

