-- ==== Sys2Proof/Machine/Operands.lean ====
section
/-! DEFINITION. What a command reads: registers as numbers, memory elements, the checks over them, and the site map
(30_encoding.md R147: every operand is a block register or memory). -/

namespace Sys2Proof.Machine

/-- STATUS.BUSY: "1 exactly when it is not None" (10_state.md R50). -/
def State.busy (s : State) : Bool := s.inflight.isSome

/-- `Q = {Q_HI, Q_LO}` (10_state.md R39). -/
def State.q (s : State) : F64 := s.regs.qHi ++ s.regs.qLo

/-- `COEF = {COEF_HI, COEF_LO}` (10_state.md R47). -/
def State.coef (s : State) : F64 := s.regs.coefHi ++ s.regs.coefLo

/-- The low half of a binary64, at the lower address (20_memory.md R111). -/
def f64Lo (x : F64) : Word := x.extractLsb' 0 32

/-- The high half of a binary64, at the next word (20_memory.md R111). -/
def f64Hi (x : F64) : Word := x.extractLsb' 32 32

/-- The binary64 whose low half is `first` and whose high half is `second`: `{second, first}` (30_encoding.md R151). -/
def f64OfHalves (first second : Word) : F64 := second ++ first

/-- `MAT[e]` (00_scope.md R10; 20_memory.md R104). -/
def State.matAt (s : State) (e : Nat) : F64 := s.mat.read (2 * e + 1) ++ s.mat.read (2 * e)

/-- `BYTE[k]` (00_scope.md R10). -/
def State.byteAt (s : State) (k : Nat) : Byte := s.bytes.read k

/-- `BIT[k]` (00_scope.md R10). -/
def State.bitAt (s : State) (k : Nat) : Bit := s.bits.read k

/-- `PERM[k]` (00_scope.md R10). -/
def State.permAt (s : State) (k : Nat) : Word := s.perm.read k

/-- R = REG.ROWS. -/
def State.rowCount (s : State) : Nat := s.regs.rows.toNat

/-- C = REG.COLS. -/
def State.colCount (s : State) : Nat := s.regs.cols.toNat

/-- The number of elements of the ROWS x COLS matrix (10_state.md R51). -/
def State.matSize (s : State) : Nat := s.rowCount * s.colCount

/-- NSITES: `(ROWS div 2) * (COLS div 2)` (10_state.md R49), the band element count N. -/
def State.nsites (s : State) : Nat := (s.rowCount / 2) * (s.colCount / 2)

/-- n_r = u32(REG.REPS). -/
def State.repCount (s : State) : Nat := s.regs.reps.toNat

/-- CAPBITS: `NSITES div REPS`, and 0 when REPS = 0 (10_state.md R49), the frame capacity (45_frame_mux.md R312). -/
def State.capbits (s : State) : Nat := if s.repCount = 0 then 0 else s.nsites / s.repCount

/-- `legalDims` (43_haar.md R250). -/
def State.legalDims (s : State) : Bool :=
  s.rowCount % 2 == 0 && s.colCount % 2 == 0 && s.rowCount != 0 && s.colCount != 0
    && decide (s.rowCount ≤ s.params.rmax) && decide (s.colCount ≤ s.params.cmax)

/-- A finite binary64 greater than zero (44_qim.md R281). -/
def f64Positive (x : F64) : Bool := f64Finite x && !f64Neg x && f64Mag x != 0

/-- `qLegal` (44_qim.md R281). -/
def State.qLegal (s : State) : Bool := f64Positive s.q

/-- `cfgLegal` (45_frame_mux.md R311). -/
def State.cfgLegal (s : State) : Bool := s.qLegal && s.repCount != 0 && s.status.seedValid

/-- L = u32(REG.LEN), the payload byte count. -/
def State.payloadLen (s : State) : Nat := s.regs.len.toNat

/-- F = 32 + 8L (45_frame_mux.md R310), on unbounded integers. -/
def frameLen (payloadLen : Nat) : Nat := 32 + 8 * payloadLen

/-- The first row and the first column of a band in a matrix of `v` band rows and `h` band columns (43_haar.md R253). -/
def bandOrigin (b : Band) (v h : Nat) : Nat × Nat :=
  match b with
  | .ll => (0, 0)
  | .lh => (0, h)
  | .hl => (v, 0)
  | .hh => (v, h)

/-- `siteAddr(s)`: the MAT index of a site of the selected band (44_qim.md R280). -/
def State.siteAddr (s : State) (site : Nat) : Nat :=
  let h := s.colCount / 2
  let origin := bandOrigin s.ctrl.band (s.rowCount / 2) h
  (origin.1 + site / h) * s.colCount + (origin.2 + site % h)

/-- `BYTE[0 .. n-1]`. -/
def State.payload (s : State) (n : Nat) : List Byte := s.bytes.readRange 0 n

/-- `BIT[o .. o+n-1]`. -/
def State.bitSlice (s : State) (o n : Nat) : List Bit := s.bits.readRange o n

/-- `MAT[0 .. R*C-1]`, row-major (10_state.md R51). -/
def State.matrix (s : State) : Array F64 := ((List.range s.matSize).map s.matAt).toArray

/-- `matrix` in one pass over MAT: how a program runs it. -/
def State.matrixFast (s : State) : Array F64 :=
  let words := (s.mat.readRange 0 (2 * s.matSize)).toArray
  ((List.range s.matSize).map fun e => words.getD (2 * e + 1) 0 ++ words.getD (2 * e) 0).toArray

/-- A program may read the matrix in one pass: the two agree on every state. -/
@[csimp] theorem State.matrix_eq_fast : @State.matrix = @State.matrixFast := by
  funext s
  refine congrArg List.toArray (List.map_congr_left fun e he => ?_)
  have he' : e < s.matSize := by simpa using he
  have h0 : 2 * e < 2 * s.matSize := by omega
  have h1 : 2 * e + 1 < 2 * s.matSize := by omega
  simp [State.matAt, Memory.readRange, Array.getD_eq_getD_getElem?, h0, h1]

end Sys2Proof.Machine
end

