-- ==== Sys2Proof/Machine/Flags.lean ====
section
/-! DEFINITION. The codes and words of CTRL and STATUS, what each event does to the STATUS bits (10_state.md R35, R56), and IRQ. -/

namespace Sys2Proof.Machine

/-- The code of a band in CTRL.BAND (10_state.md R34). -/
def Band.code (b : Band) : BitVec 2 :=
  match b with
  | .ll => 0
  | .lh => 1
  | .hl => 2
  | .hh => 3

/-- The band with this code: all four are legal (10_state.md R34). -/
def Band.ofCode (c : BitVec 2) : Band :=
  match c.toNat with
  | 0 => .ll
  | 1 => .lh
  | 2 => .hl
  | _ => .hh

/-- The value of STATUS.ERRCODE (60_exceptions.md R350). -/
def ErrCode.code (c : ErrCode) : BitVec 4 :=
  match c with
  | .dimension => 1
  | .capacity => 2
  | .config => 3
  | .decodeMismatch => 4
  | .illegalCmd => 5
  | .sequence => 6
  | .numeric => 7
  | .range => 8

/-- STATUS.ERRCODE, 0 (NONE) when no error is recorded (60_exceptions.md R350). -/
def errcodeField (c : Option ErrCode) : BitVec 4 :=
  match c with
  | none => 0
  | some c => c.code

/-- CTRL as it reads: SRST and the reserved bits are 0 (10_state.md R34). -/
def Ctrl.word (c : Ctrl) : Word := 0#23 ++ BitVec.ofBool c.ie ++ 0#6 ++ c.band.code

/-- STATUS as it reads (10_state.md R35). -/
def State.statusWord (s : State) : Word :=
  0#22 ++ BitVec.ofBool s.status.seedValid ++ BitVec.ofBool s.status.xf ++ errcodeField s.status.errcode
    ++ BitVec.ofBool s.status.cmdlost ++ BitVec.ofBool s.status.err ++ BitVec.ofBool s.status.done
    ++ BitVec.ofBool s.busy

/-- CTRL.BAND and CTRL.IE of a CTRL write (10_state.md R34). -/
def Ctrl.ofWrite (v : Word) : Ctrl := { band := Band.ofCode (v.extractLsb' 0 2), ie := v.getLsbD 8 }

/-- CTRL.SRST of a CTRL write (10_state.md R34). -/
def srstBit (v : Word) : Bool := v.getLsbD 31

/-- STATUS at acceptance, BUSY apart (40_command_protocol.md R171). -/
def Status.accepted (st : Status) : Status := { st with done := false, err := false, errcode := none }

/-- STATUS at a completion with success, BUSY apart (40_command_protocol.md R172): "ERR stays 0 and ERRCODE stays 0". -/
def Status.succeeded (st : Status) : Status := { st with done := true }

/-- STATUS at a completion with an error, BUSY apart (40_command_protocol.md R173). -/
def Status.failed (st : Status) (c : ErrCode) : Status :=
  { st with done := true, err := true, errcode := some c }

/-- A host write to STATUS: the W1C bits, where writing 1 to ERR also sets ERRCODE to 0 (10_state.md R35). -/
def Status.writeOneToClear (st : Status) (v : Word) : Status :=
  { st with
    done := st.done && !v.getLsbD 1
    err := st.err && !v.getLsbD 2
    cmdlost := st.cmdlost && !v.getLsbD 3
    errcode := if v.getLsbD 2 then none else st.errcode }

/-- The interrupt output: `IRQ = REG.CTRL.IE AND REG.STATUS.DONE` (60_exceptions.md R360). -/
def State.irq (s : State) : Bool := s.ctrl.ie && s.status.done

end Sys2Proof.Machine
end

