-- ==== Sys2Proof/Machine/Ops.lean ====
section
/-! DEFINITION. The shared operations: accepting a command, completing it with success or with an error (the block's one
record of an exceptional outcome: 60_exceptions.md R355, "An error is not a trap"), the writes a command commits, and reset. -/

namespace Sys2Proof.Machine

/-! ### Acceptance and completion -/

/-- Acceptance of the command word `w` (40_command_protocol.md R171). -/
def State.accept (s : State) (w : Word) : State :=
  { s with inflight := some w, status := s.status.accepted }

/-- Completion with success, once every write is committed (40_command_protocol.md R172). -/
def State.succeed (s : State) : State :=
  { s with inflight := none, status := s.status.succeeded }

/-- Completion with an error: nothing but STATUS changes (40_command_protocol.md R173). -/
def State.fail (s : State) (c : ErrCode) : State :=
  { s with inflight := none, status := s.status.failed c }

/-- A command's completion from the result of its rule: the state with its writes committed, or the error it raised, which
discards them (00_scope.md R12, R13). -/
def finish (s : State) (result : Except ErrCode State) : Host.Outcome State Fault Refusal :=
  match result with
  | .ok t => .next t.succeed
  | .error c => .next (s.fail c)

/-- Completion of a word that decodes to no command (40_command_protocol.md R178). -/
def completeIllegal (s : State) : Host.Outcome State Fault Refusal := finish s (.error .illegalCmd)

/-! ### What commands commit -/

/-- `for k: BIT[o + k] <- b[k]`. -/
def State.setBits (s : State) (o : Nat) (b : List Bit) : State := { s with bits := s.bits.writeRange o b }

/-- `for k: BYTE[k] <- B[k]`. -/
def State.setBytes (s : State) (bs : List Byte) : State := { s with bytes := s.bytes.writeRange 0 bs }

/-- `for k: PERM[k] <- P[k]`. -/
def State.setPerm (s : State) (p : Array Nat) : State :=
  { s with perm := s.perm.writeRange 0 (p.toList.map (BitVec.ofNat 32)) }

/-- `for e: MAT[e] <- Y[e]`, each element's low half first (20_memory.md R111). -/
def State.setMatrix (s : State) (y : Array F64) : State :=
  { s with mat := s.mat.writeRange 0 (y.toList.flatMap fun x => [f64Lo x, f64Hi x]) }

/-- `REG.BITLEN <- n`. -/
def State.setBitlen (s : State) (n : Nat) : State := { s with regs.bitlen := BitVec.ofNat 32 n }

/-- `REG.LEN <- n`. -/
def State.setLen (s : State) (n : Nat) : State := { s with regs.len := BitVec.ofNat 32 n }

/-- `REG.RESULT <- v`. -/
def State.setResult (s : State) (v : Word) : State := { s with regs.result := v }

/-- `{REG.COEF_HI, REG.COEF_LO} <- bits(c)`. -/
def State.setCoef (s : State) (c : F64) : State := { s with regs.coefLo := f64Lo c, regs.coefHi := f64Hi c }

/-- `REG.STATUS.XF <- x`. -/
def State.setXf (s : State) (x : Bool) : State := { s with status.xf := x }

/-! ### Reset -/

/-- Which elements of each memory an aborted command makes draws: a start and a count (70_reset_and_hazards.md R392). -/
structure AbortRanges where
  mat : Nat × Nat
  byte : Nat × Nat
  bit : Nat × Nat
  perm : Nat × Nat
deriving DecidableEq, Repr

/-- No element. -/
def AbortRanges.none : AbortRanges := { mat := (0, 0), byte := (0, 0), bit := (0, 0), perm := (0, 0) }

/-- The table of 70_reset_and_hazards.md R392, computed from the registers; MAT in elements. -/
def abortRanges (s : State) (i : Instr) : AbortRanges :=
  match i with
  | .nop | .bitsu32 | .posmod | .qwrite | .qread => AbortRanges.none
  | .b2bits => { AbortRanges.none with bit := (0, 8 * min s.payloadLen s.params.bmax) }
  | .bits2b => { AbortRanges.none with byte := (0, min (s.regs.bitlen.toNat / 8) s.params.bmax) }
  | .u32bits =>
    if s.regs.off.toNat + 32 ≤ s.params.fmax then { AbortRanges.none with bit := (s.regs.off.toNat, 32) }
    else AbortRanges.none
  | .permgen => { AbortRanges.none with perm := (0, min s.regs.pn.toNat s.params.pmax) }
  | .fwd | .inv => if s.legalDims then { AbortRanges.none with mat := (0, s.matSize) } else AbortRanges.none
  | .frame => { AbortRanges.none with bit := (0, frameLen (min s.payloadLen s.params.bmax)) }
  | .embed | .embedf =>
    if s.legalDims then
      { AbortRanges.none with mat := (0, s.matSize), perm := (0, s.nsites), bit := (0, s.params.fmax) }
    else AbortRanges.none
  | .extract | .extractf =>
    if s.legalDims then
      { AbortRanges.none with perm := (0, s.nsites), bit := (0, s.params.fmax), byte := (0, s.params.bmax) }
    else AbortRanges.none

/-- The ranges of the command in flight; an illegal word has none, and neither has an idle block (R391, R392). -/
def State.inflightRanges (s : State) : AbortRanges :=
  match s.inflight with
  | none => AbortRanges.none
  | some w =>
    match decodeWord w with
    | .ok i => abortRanges s i
    | .error _ => AbortRanges.none

/-- The ranges `r` turned into draws, each memory with a fresh identifier (70_reset_and_hazards.md R392; log entry 11). -/
def State.scramble (s : State) (r : AbortRanges) : State :=
  { s with
    mat := s.mat.scramble (2 * r.mat.1) (2 * r.mat.2) s.drawCount
    bytes := s.bytes.scramble r.byte.1 r.byte.2 (s.drawCount + 1)
    bits := s.bits.scramble r.bit.1 r.bit.2 (s.drawCount + 2)
    perm := s.perm.scramble r.perm.1 r.perm.2 (s.drawCount + 3)
    drawCount := s.drawCount + 4 }

/-- Every register at its reset value and no command in flight (10_state.md R60). -/
def State.resetRegisters (s : State) : State :=
  { s with regs := Regs.reset, ctrl := Ctrl.reset, status := Status.reset, inflight := none }

/-- The soft reset (70_reset_and_hazards.md R391): abort the running command, then reset every register; the memories keep
what they held, but for the aborted command's ranges. -/
def State.softReset (s : State) : State := (s.scramble s.inflightRanges).resetRegisters

/-- The hard reset (70_reset_and_hazards.md R390): registers as at a soft reset, and every memory element a fresh draw. -/
def State.hardReset (s : State) : State :=
  { s.resetRegisters with
    mat := Memory.undefined 32 s.drawCount
    bytes := Memory.undefined 8 (s.drawCount + 1)
    bits := Memory.undefined 1 (s.drawCount + 2)
    perm := Memory.undefined 32 (s.drawCount + 3)
    drawCount := s.drawCount + 4 }

end Sys2Proof.Machine
end

