-- ==== Sys2Proof/Machine/Haar.lean ====
section
/-! DEFINITION. The Haar transform pair (43_haar.md R251, R252), its numeric condition (R254) and the commands FWD and INV (R255, R256). -/

namespace Sys2Proof.Machine

/-! ### Functions: a matrix is given by its element function; `cols` and `rows` are its even dimensions -/

/-- The row pass of haarFwd: `A` from `M` (43_haar.md R251). -/
def rowForward (cols : Nat) (m : Nat → Nat → F64) (r c : Nat) : F64 :=
  let h := cols / 2
  if c < h then f64Half (f64Add (m r (2 * c)) (m r (2 * c + 1)))
  else f64Half (f64Sub (m r (2 * (c - h))) (m r (2 * (c - h) + 1)))

/-- The column pass of haarFwd: `B` from `A` (43_haar.md R251). -/
def colForward (rows : Nat) (a : Nat → Nat → F64) (r c : Nat) : F64 :=
  let v := rows / 2
  if r < v then f64Half (f64Add (a (2 * r) c) (a (2 * r + 1) c))
  else f64Half (f64Sub (a (2 * (r - v)) c) (a (2 * (r - v) + 1) c))

/-- The column pass of haarInv: `A` from `B` (43_haar.md R252). -/
def colInverse (rows : Nat) (b : Nat → Nat → F64) (r c : Nat) : F64 :=
  let v := rows / 2
  if r % 2 = 0 then f64Add (b (r / 2) c) (b (v + r / 2) c)
  else f64Sub (b (r / 2) c) (b (v + r / 2) c)

/-- The row pass of haarInv: `M` from `A` (43_haar.md R252). -/
def rowInverse (cols : Nat) (a : Nat → Nat → F64) (r c : Nat) : F64 :=
  let h := cols / 2
  if c % 2 = 0 then f64Add (a r (c / 2)) (a r (h + c / 2))
  else f64Sub (a r (c / 2)) (a r (h + c / 2))

/-- Element (r, c) of a matrix of `cols` columns held row-major. -/
def elemAt (cols : Nat) (x : Array F64) (r c : Nat) : F64 := x.getD (r * cols + c) 0

/-- The `rows` x `cols` matrix with these elements, row-major. -/
def tabulate (rows cols : Nat) (f : Nat → Nat → F64) : Array F64 :=
  ((List.range (rows * cols)).map fun e => f (e / cols) (e % cols)).toArray

/-- The intermediate A of haarFwd (43_haar.md R251). -/
def haarFwdRows (rows cols : Nat) (x : Array F64) : Array F64 :=
  tabulate rows cols (rowForward cols (elemAt cols x))

/-- `haarFwd(M)` (43_haar.md R251). -/
def haarFwd (rows cols : Nat) (x : Array F64) : Array F64 :=
  tabulate rows cols (colForward rows (elemAt cols (haarFwdRows rows cols x)))

/-- The intermediate A of haarInv (43_haar.md R252). -/
def haarInvCols (rows cols : Nat) (x : Array F64) : Array F64 :=
  tabulate rows cols (colInverse rows (elemAt cols x))

/-- `haarInv(B)` (43_haar.md R252). -/
def haarInv (rows cols : Nat) (x : Array F64) : Array F64 :=
  tabulate rows cols (rowInverse cols (elemAt cols (haarInvCols rows cols x)))

/-- Every element is finite. -/
def allFinite (x : Array F64) : Bool := x.toList.all f64Finite

/-- `haarOK(X, haarFwd)` (43_haar.md R254). -/
def haarFwdOK (rows cols : Nat) (x : Array F64) : Bool :=
  allFinite x && allFinite (haarFwdRows rows cols x) && allFinite (haarFwd rows cols x)

/-- `haarOK(X, haarInv)` (43_haar.md R254). -/
def haarInvOK (rows cols : Nat) (x : Array F64) : Bool :=
  allFinite x && allFinite (haarInvCols rows cols x) && allFinite (haarInv rows cols x)

/-! ### Commands -/

/-- What FWD computes (43_haar.md R255). -/
def runFwd (s : State) : Except ErrCode State :=
  if s.status.xf then .error .sequence
  else if !s.legalDims then .error .dimension
  else if !haarFwdOK s.rowCount s.colCount s.matrix then .error .numeric
  else .ok ((s.setMatrix (haarFwd s.rowCount s.colCount s.matrix)).setXf true)

/-- FWD: forward transform in place (43_haar.md R255). -/
def execFwd (s : State) : Host.Outcome State Fault Refusal := finish s (runFwd s)

/-- What INV computes (43_haar.md R256). -/
def runInv (s : State) : Except ErrCode State :=
  if !s.status.xf then .error .sequence
  else if !s.legalDims then .error .dimension
  else if !haarInvOK s.rowCount s.colCount s.matrix then .error .numeric
  else .ok ((s.setMatrix (haarInv s.rowCount s.colCount s.matrix)).setXf false)

/-- INV: inverse transform in place (43_haar.md R256). -/
def execInv (s : State) : Host.Outcome State Fault Refusal := finish s (runInv s)

end Sys2Proof.Machine
end

