-- ==== Sys2Proof/Machine/Permutation.lean ====
section
/-! DEFINITION. The seeded permutation address generator (42_permutation.md R230, R231) and PERMGEN (R234). -/

namespace Sys2Proof.Machine

/-- `next(s)`: the 32-bit linear congruential generator (42_permutation.md R230). -/
def lcgNext (x : Word) : Word := 1664525 * x + 1013904223

/-- `j = (s * (i + 1)) >> 32`, on the exact integer product (42_permutation.md R231). -/
def shuffleIndex (x : Word) (i : Nat) : Nat := (x.toNat * (i + 1)) / 2 ^ 32

/-- The loop `for i = k downto 1` of 42_permutation.md R231, from generator state `x`. -/
def shuffleDown : Nat → Word → Array Nat → Array Nat
  | 0, _, p => p
  | i + 1, x, p =>
    let x' := lcgNext x
    shuffleDown i x' (p.swapIfInBounds (i + 1) (shuffleIndex x' (i + 1)))

/-- `makePermutation(n, seed)` (42_permutation.md R231). -/
def makePermutation (n : Nat) (seed : Word) : Array Nat := shuffleDown (n - 1) seed (List.range n).toArray

/-- What PERMGEN computes (42_permutation.md R234). -/
def runPermgen (s : State) : Except ErrCode State :=
  let n := s.regs.pn.toNat
  if !s.status.seedValid then .error .config
  else if n > s.params.pmax then .error .range
  else .ok (s.setPerm (makePermutation n s.regs.seed))

/-- PERMGEN: generate a permutation into PERM (42_permutation.md R234). -/
def execPermgen (s : State) : Host.Outcome State Fault Refusal := finish s (runPermgen s)

end Sys2Proof.Machine
end

