-- ==== Sys2Proof/Machine/BitByte.lean ====
section
/-! DEFINITION. The bit/byte converter: the functions of 41_bitbyte.md R200-R204 and the commands R210-R214. -/

namespace Sys2Proof.Machine

/-! ### Functions -/

/-- The 8 bits of a byte, most significant first (41_bitbyte.md R200). -/
def byteToBits (b : Byte) : List Bit := (List.range 8).map fun i => b.extractLsb' (7 - i) 1

/-- `bytesToBits(B)` (41_bitbyte.md R200). -/
def bytesToBits (bs : List Byte) : List Bit := bs.flatMap byteToBits

/-- The number that bits denote, most significant first. -/
def bitsToNat (b : List Bit) : Nat := b.foldl (fun acc x => 2 * acc + x.toNat) 0

/-- `n` bytes, each from 8 bits in turn. -/
def takeBytes : Nat → List Bit → List Byte
  | 0, _ => []
  | n + 1, b => BitVec.ofNat 8 (bitsToNat (b.take 8)) :: takeBytes n (b.drop 8)

/-- `bitsToBytes(b)`: `m div 8` bytes; the last `m mod 8` bits are dropped (41_bitbyte.md R201). -/
def bitsToBytes (b : List Bit) : List Byte := takeBytes (b.length / 8) b

/-- `u32ToBits(x)`: 32 bits, most significant first (41_bitbyte.md R202). -/
def u32ToBits (x : Word) : List Bit := (List.range 32).map fun i => x.extractLsb' (31 - i) 1

/-- `bitsToU32(b, off)` (41_bitbyte.md R203). -/
def bitsToU32 (b : List Bit) (off : Nat) : Word := BitVec.ofNat 32 (bitsToNat ((b.drop off).take 32))

/-- `posMod(a, m)` for m > 0: the r in [0, m) with a - r divisible by m (41_bitbyte.md R204). -/
def posMod (a : Int) (m : Nat) : Nat := (a % (m : Int)).toNat

/-! ### Commands -/

/-- What B2BITS computes (41_bitbyte.md R210). -/
def runB2bits (s : State) : Except ErrCode State :=
  let n := s.payloadLen
  if n > s.params.bmax then .error .range
  else .ok ((s.setBits 0 (bytesToBits (s.payload n))).setBitlen (8 * n))

/-- B2BITS: bytes to bits (41_bitbyte.md R210). -/
def execB2bits (s : State) : Host.Outcome State Fault Refusal := finish s (runB2bits s)

/-- What BITS2B computes (41_bitbyte.md R211). -/
def runBits2b (s : State) : Except ErrCode State :=
  let m := s.regs.bitlen.toNat
  let n := m / 8
  if m > s.params.fmax then .error .range
  else if n > s.params.bmax then .error .range
  else .ok ((s.setBytes (bitsToBytes (s.bitSlice 0 m))).setLen n)

/-- BITS2B: bits to bytes (41_bitbyte.md R211). -/
def execBits2b (s : State) : Host.Outcome State Fault Refusal := finish s (runBits2b s)

/-- What U32BITS computes (41_bitbyte.md R212); the offset is not wrapped. -/
def runU32bits (s : State) : Except ErrCode State :=
  let o := s.regs.off.toNat
  if o + 32 > s.params.fmax then .error .range
  else .ok (s.setBits o (u32ToBits s.regs.arg0))

/-- U32BITS: 32-bit integer to bits (41_bitbyte.md R212). -/
def execU32bits (s : State) : Host.Outcome State Fault Refusal := finish s (runU32bits s)

/-- What BITSU32 computes (41_bitbyte.md R213). -/
def runBitsu32 (s : State) : Except ErrCode State :=
  let o := s.regs.off.toNat
  if o + 32 > s.params.fmax then .error .range
  else .ok (s.setResult (bitsToU32 (s.bitSlice o 32) 0))

/-- BITSU32: bits to 32-bit integer (41_bitbyte.md R213). -/
def execBitsu32 (s : State) : Host.Outcome State Fault Refusal := finish s (runBitsu32 s)

/-- What POSMOD computes: ARG0 signed, ARG1 unsigned (41_bitbyte.md R214). -/
def runPosmod (s : State) : Except ErrCode State :=
  let m := s.regs.arg1.toNat
  if m = 0 then .error .config
  else .ok (s.setResult (BitVec.ofNat 32 (posMod s.regs.arg0.toInt m)))

/-- POSMOD: non-negative modulo (41_bitbyte.md R214). -/
def execPosmod (s : State) : Host.Outcome State Fault Refusal := finish s (runPosmod s)

end Sys2Proof.Machine
end

