-- ==== Sys2Proof/Machine/Qim.lean ====
section
/-! DEFINITION. The QIM engine: write, read and majority (44_qim.md R282-R284, R287) and the commands QWRITE and QREAD (R288, R289). -/

namespace Sys2Proof.Machine

/-! ### Functions; `none` is a NUMERIC failure -/

/-- The scaled value `t = fdiv(c, q)`, when c and t are finite and |t| < 2^48 (44_qim.md R282). -/
def scaled (c q : F64) : Option F64 :=
  let t := f64Div c q
  if !f64Finite c then none
  else if !f64Finite t || decide (2 ^ 48 * 2 ^ 1074 ≤ f64Mag t) then none
  else some t

/-- k' : the integer of parity `b` nearest to t, a tie going up (44_qim.md R283). -/
def latticeIndex (t : F64) (b : Bit) : Int :=
  let k := f64NearestInt t
  if posMod k 2 = b.toNat then k
  else if k * 2 ^ 1074 ≤ f64Int t then k + 1
  else k - 1

/-- `qimWrite(c, b, q)` (44_qim.md R283). -/
def qimWrite (c : F64) (b : Bit) (q : F64) : Option F64 :=
  match scaled c q with
  | none => none
  | some t =>
    let k' := latticeIndex t b
    if 2 ^ 48 ≤ k'.natAbs then none
    else
      let c' := f64Mul (f64OfInt k') q
      if f64Finite c' then some c' else none

/-- `qimRead(c, q)`: the parity of the integer nearest to t (44_qim.md R284). -/
def qimRead (c q : F64) : Option Bit :=
  match scaled c q with
  | none => none
  | some t => some (BitVec.ofNat 1 (posMod (f64NearestInt t) 2))

/-- How many of the bits are 1. -/
def countOnes (b : List Bit) : Nat := (b.map BitVec.toNat).sum

/-- `majority(x_0, ..., x_(n-1))`: 1 when twice the ones reach n, so a tie gives 1 (44_qim.md R287). -/
def majority (b : List Bit) : Bit := if b.length ≤ 2 * countOnes b then 1 else 0

/-! ### Commands -/

/-- What QWRITE computes (44_qim.md R288). -/
def runQwrite (s : State) : Except ErrCode State :=
  if !s.qLegal then .error .config
  else
    match qimWrite s.coef (s.regs.arg0.extractLsb' 0 1) s.q with
    | none => .error .numeric
    | some c' => .ok (s.setCoef c')

/-- QWRITE: write one bit into one coefficient (44_qim.md R288). -/
def execQwrite (s : State) : Host.Outcome State Fault Refusal := finish s (runQwrite s)

/-- What QREAD computes (44_qim.md R289). -/
def runQread (s : State) : Except ErrCode State :=
  if !s.qLegal then .error .config
  else
    match qimRead s.coef s.q with
    | none => .error .numeric
    | some b => .ok (s.setResult (b.setWidth 32))

/-- QREAD: read one bit from one coefficient (44_qim.md R289). -/
def execQread (s : State) : Host.Outcome State Fault Refusal := finish s (runQread s)

end Sys2Proof.Machine
end

