-- ==== Sys2Proof/Machine/FrameMux.lean ====
section
/-! DEFINITION. The framed payload multiplexer: the functions of 45_frame_mux.md R310, R314 and R315 and the commands R316-R320. -/

namespace Sys2Proof.Machine

/-! ### Functions -/

/-- `frame(L, B)`: the header, then the payload bits (45_frame_mux.md R310). -/
def frameBits (len : Word) (payload : List Byte) : List Bit := u32ToBits len ++ bytesToBits payload

/-- The frame of REG.LEN and BYTE. -/
def State.framed (s : State) : List Bit := frameBits s.regs.len (s.payload s.payloadLen)

/-- `P = makePermutation(N, u32(REG.SEED))` (45_frame_mux.md R314). -/
def State.sitePerm (s : State) : Array Nat := makePermutation s.nsites s.regs.seed

/-- `siteAddr(P[t])` for t in [0, N), in order: the MAT indices that carry the frame. -/
def State.siteAddrs (s : State) : List Nat := s.sitePerm.toList.map s.siteAddr

/-- The MAT indices used and the bit each carries: framed bit k goes to the sites `P[k*n_r + r]` (45_frame_mux.md R314). -/
def State.carriers (s : State) (fb : List Bit) : List (Nat × Bit) :=
  s.siteAddrs.zip (fb.flatMap fun b => List.replicate s.repCount b)

/-- The writes of embedBand, each reading `x` and writing `y`; `none` is a NUMERIC failure. -/
def embedSites (q : F64) (x : Array F64) : List (Nat × Bit) → Array F64 → Option (Array F64)
  | [], y => some y
  | (e, b) :: rest, y =>
    match qimWrite (x.getD e 0) b q with
    | none => none
    | some c => embedSites q x rest (y.setIfInBounds e c)

/-- `embedBand(X, bits, P)` (45_frame_mux.md R314). -/
def embedBand (s : State) (x : Array F64) (fb : List Bit) : Option (Array F64) :=
  embedSites s.q x (s.carriers fb) x

/-- `qimRead` of each of these elements of `x`; `none` when one fails. -/
def readSites (q : F64) (x : Array F64) : List Nat → Option (List Bit)
  | [] => some []
  | e :: rest =>
    match qimRead (x.getD e 0) q, readSites q x rest with
    | some b, some bs => some (b :: bs)
    | _, _ => none

/-- `vote(k)` for `n` bits in a row, each from the next `reps` sites (45_frame_mux.md R315). -/
def votes (q : F64) (x : Array F64) (reps : Nat) : Nat → List Nat → Option (List Bit)
  | 0, _ => some []
  | n + 1, sites =>
    match readSites q x (sites.take reps), votes q x reps n (sites.drop reps) with
    | some b, some bs => some (majority b :: bs)
    | _, _ => none

/-- What extractBand returns: `(L, F, fb[0 .. F-1], bytes)`, F being the number of bits (45_frame_mux.md R315). -/
structure Extracted where
  len : Nat
  bits : List Bit
  bytes : List Byte
deriving DecidableEq, Repr

/-- `extractBand(X, P)`: the header, its plausibility check, and the payload (45_frame_mux.md R315). -/
def extractBand (s : State) (x : Array F64) : Except ErrCode Extracted :=
  match votes s.q x s.repCount 32 s.siteAddrs with
  | none => .error .numeric
  | some header =>
    let len := (bitsToU32 header 0).toNat
    if s.capbits < frameLen len ∨ s.params.bmax < len then .error .decodeMismatch
    else
      match votes s.q x s.repCount (8 * len) (s.siteAddrs.drop (32 * s.repCount)) with
      | none => .error .numeric
      | some body => .ok { len := len, bits := header ++ body, bytes := bitsToBytes body }

/-- What a successful embedding commits beside MAT: PERM, BIT and BITLEN (45_frame_mux.md R317, R319; D47). -/
def State.setFrame (s : State) (fb : List Bit) : State :=
  ((s.setPerm s.sitePerm).setBits 0 fb).setBitlen fb.length

/-- What a successful extraction commits: PERM, BIT, BITLEN, BYTE and LEN (45_frame_mux.md R318, R320). -/
def State.setExtracted (s : State) (r : Extracted) : State :=
  ((s.setFrame r.bits).setBytes r.bytes).setLen r.len

/-! ### Commands -/

/-- What FRAME computes (45_frame_mux.md R316). -/
def runFrame (s : State) : Except ErrCode State :=
  if s.payloadLen > s.params.bmax then .error .range
  else .ok ((s.setBits 0 s.framed).setBitlen (frameLen s.payloadLen))

/-- FRAME: build the framed bit sequence (45_frame_mux.md R316). -/
def execFrame (s : State) : Host.Outcome State Fault Refusal := finish s (runFrame s)

/-- The checks that EMBED and EMBEDF make before reading a coefficient, in order; `xf` is the transform state the command
needs (45_frame_mux.md R317, R319; 60_exceptions.md R353). -/
def embedCheck (s : State) (xf : Bool) : Option ErrCode :=
  if s.status.xf != xf then some .sequence
  else if !s.legalDims then some .dimension
  else if !s.cfgLegal then some .config
  else if frameLen s.payloadLen > s.capbits then some .capacity
  else if s.payloadLen > s.params.bmax then some .range
  else none

/-- The checks that EXTRACT and EXTRACTF make before reading a coefficient, in order (45_frame_mux.md R318, R320). -/
def extractCheck (s : State) (xf : Bool) : Option ErrCode :=
  if s.status.xf != xf then some .sequence
  else if !s.legalDims then some .dimension
  else if !s.cfgLegal then some .config
  else if s.capbits < 32 then some .capacity
  else none

/-- What EMBED computes (45_frame_mux.md R317). -/
def runEmbed (s : State) : Except ErrCode State :=
  match embedCheck s true with
  | some c => .error c
  | none =>
    match embedBand s s.matrix s.framed with
    | none => .error .numeric
    | some y => .ok ((s.setMatrix y).setFrame s.framed)

/-- EMBED: embed the framed payload into the band of a transformed matrix (45_frame_mux.md R317). -/
def execEmbed (s : State) : Host.Outcome State Fault Refusal := finish s (runEmbed s)

/-- What EXTRACT computes (45_frame_mux.md R318). -/
def runExtract (s : State) : Except ErrCode State :=
  match extractCheck s true with
  | some c => .error c
  | none =>
    match extractBand s s.matrix with
    | .error c => .error c
    | .ok r => .ok (s.setExtracted r)

/-- EXTRACT: extract the framed payload from the band of a transformed matrix (45_frame_mux.md R318). -/
def execExtract (s : State) : Host.Outcome State Fault Refusal := finish s (runExtract s)

/-- What EMBEDF computes (45_frame_mux.md R319). -/
def runEmbedf (s : State) : Except ErrCode State :=
  match embedCheck s false with
  | some c => .error c
  | none =>
    if !haarFwdOK s.rowCount s.colCount s.matrix then .error .numeric
    else
      match embedBand s (haarFwd s.rowCount s.colCount s.matrix) s.framed with
      | none => .error .numeric
      | some y =>
        if !haarInvOK s.rowCount s.colCount y then .error .numeric
        else .ok ((s.setMatrix (haarInv s.rowCount s.colCount y)).setFrame s.framed)

/-- EMBEDF: forward transform, embed and inverse transform a sample matrix (45_frame_mux.md R319). -/
def execEmbedf (s : State) : Host.Outcome State Fault Refusal := finish s (runEmbedf s)

/-- What EXTRACTF computes; the transformed matrix is a temporary (45_frame_mux.md R320). -/
def runExtractf (s : State) : Except ErrCode State :=
  match extractCheck s false with
  | some c => .error c
  | none =>
    if !haarFwdOK s.rowCount s.colCount s.matrix then .error .numeric
    else
      match extractBand s (haarFwd s.rowCount s.colCount s.matrix) with
      | .error c => .error c
      | .ok r => .ok (s.setExtracted r)

/-- EXTRACTF: forward transform a sample matrix and extract the framed payload (45_frame_mux.md R320). -/
def execExtractf (s : State) : Host.Outcome State Fault Refusal := finish s (runExtractf s)

end Sys2Proof.Machine
end

