-- ==== Sys2Proof/Machine/Protocol.lean ====
section
/-! DEFINITION. The command with no data effect (40_command_protocol.md R177). -/

namespace Sys2Proof.Machine

/-- NOP (40_command_protocol.md R177): `skip`. -/
def execNop (s : State) : Host.Outcome State Fault Refusal := finish s (.ok s)

end Sys2Proof.Machine
end

