-- ==== Sys2Proof/Machine/Dispatch.lean ====
section
/-! DEFINITION. One arm per command (30_encoding.md R143). -/

namespace Sys2Proof.Machine

/-- The completion of command `i` in state `s` (40_command_protocol.md R172, R173). -/
def exec (i : Instr) (s : State) : Host.Outcome State Fault Refusal :=
  match i with
  | .nop => Sys2Proof.Machine.execNop s
  | .b2bits => Sys2Proof.Machine.execB2bits s
  | .bits2b => Sys2Proof.Machine.execBits2b s
  | .u32bits => Sys2Proof.Machine.execU32bits s
  | .bitsu32 => Sys2Proof.Machine.execBitsu32 s
  | .posmod => Sys2Proof.Machine.execPosmod s
  | .permgen => Sys2Proof.Machine.execPermgen s
  | .fwd => Sys2Proof.Machine.execFwd s
  | .inv => Sys2Proof.Machine.execInv s
  | .qwrite => Sys2Proof.Machine.execQwrite s
  | .qread => Sys2Proof.Machine.execQread s
  | .frame => Sys2Proof.Machine.execFrame s
  | .embed => Sys2Proof.Machine.execEmbed s
  | .extract => Sys2Proof.Machine.execExtract s
  | .embedf => Sys2Proof.Machine.execEmbedf s
  | .extractf => Sys2Proof.Machine.execExtractf s

end Sys2Proof.Machine
end

