-- ==== Sys2Proof/Machine/Bus.lean ====
section
/-! DEFINITION. The bus: the address map, reads and writes of registers and windows, and bus errors (20_memory.md; 10_state.md
R31-R49; 70_reset_and_hazards.md R403-R406). -/

namespace Sys2Proof.Machine

/-! ### The address map (20_memory.md R102; 10_state.md R31) -/

/-- The offset of a register (10_state.md R31). -/
def Reg.offset (r : Reg) : Nat :=
  match r with
  | .id => 0x000
  | .cfgRmax => 0x004
  | .cfgCmax => 0x008
  | .cfgBmax => 0x00C
  | .ctrl => 0x010
  | .status => 0x014
  | .cmd => 0x018
  | .rows => 0x01C
  | .cols => 0x020
  | .qLo => 0x024
  | .qHi => 0x028
  | .seed => 0x02C
  | .reps => 0x030
  | .len => 0x034
  | .bitlen => 0x038
  | .pn => 0x03C
  | .off => 0x040
  | .arg0 => 0x044
  | .arg1 => 0x048
  | .coefLo => 0x04C
  | .coefHi => 0x050
  | .result => 0x054
  | .nsites => 0x058
  | .capbits => 0x05C

/-- The registers, in offset order (10_state.md R31). -/
def Reg.all : List Reg :=
  [.id, .cfgRmax, .cfgCmax, .cfgBmax, .ctrl, .status, .cmd, .rows, .cols, .qLo, .qHi, .seed,
    .reps, .len, .bitlen, .pn, .off, .arg0, .arg1, .coefLo, .coefHi, .result, .nsites, .capbits]

/-- The register at an offset of the register block (20_memory.md R105: exactly 24 offsets). -/
def Reg.ofOffset (off : Nat) : Option Reg := Reg.all.find? fun r => r.offset == off

/-- The first offset of a window (20_memory.md R102). -/
def Region.start (g : Region) : Nat :=
  match g with
  | .byte => 0x0010000
  | .bit => 0x0400000
  | .perm => 0x0800000
  | .mat => 0x1000000

/-- The size of a window's aperture in bytes (20_memory.md R102). -/
def Region.aperture (g : Region) : Nat :=
  match g with
  | .byte => 0x0010000
  | .bit => 0x0400000
  | .perm => 0x0800000
  | .mat => 0x4000000

/-- How many words of a window are implemented (20_memory.md R102). -/
def Region.words (g : Region) (p : Params) : Nat :=
  match g with
  | .byte => (p.bmax + 3) / 4
  | .bit => p.fmax
  | .perm => p.pmax
  | .mat => 2 * (p.rmax * p.cmax)

/-- What an implemented offset selects. -/
inductive Target where
  | reg (r : Reg)
  | word (g : Region) (w : Nat)
deriving DecidableEq, Repr

/-- The word of window `g` at an offset, if the offset lies in its implemented part (20_memory.md R102, R104). -/
def Region.wordAt (g : Region) (p : Params) (off : Nat) : Option Nat :=
  if g.start ≤ off ∧ off < g.start + g.aperture ∧ (off - g.start) / 4 < g.words p then some ((off - g.start) / 4)
  else none

/-- What a 4-aligned offset selects; `none` is not implemented (20_memory.md R102, R106). -/
def targetAt (p : Params) (off : Nat) : Option Target :=
  match Reg.ofOffset off with
  | some r => some (.reg r)
  | none => [Region.byte, .bit, .perm, .mat].findSome? fun g => (g.wordAt p off).map (.word g)

/-- The target of an access of this width at this offset, or the bus error it gets (20_memory.md R106-R108). -/
def decodeAccess (p : Params) (width off : Nat) : Except BusErrorCause Target :=
  if width ≠ 32 then .error .wrongWidth
  else if off % 4 ≠ 0 then .error .misaligned
  else
    match targetAt p off with
    | none => .error .unimplemented
    | some t => .ok t

/-! ### Reads -/

/-- The exact value of a register (10_state.md R32-R49). -/
def State.readReg (s : State) (r : Reg) : Word :=
  match r with
  | .id => 0x42574D31
  | .cfgRmax => BitVec.ofNat 32 s.params.rmax
  | .cfgCmax => BitVec.ofNat 32 s.params.cmax
  | .cfgBmax => BitVec.ofNat 32 s.params.bmax
  | .ctrl => s.ctrl.word
  | .status => s.statusWord
  | .cmd => 0
  | .rows => s.regs.rows.setWidth 32
  | .cols => s.regs.cols.setWidth 32
  | .qLo => s.regs.qLo
  | .qHi => s.regs.qHi
  | .seed => s.regs.seed
  | .reps => s.regs.reps
  | .len => s.regs.len
  | .bitlen => s.regs.bitlen
  | .pn => s.regs.pn
  | .off => s.regs.off
  | .arg0 => s.regs.arg0
  | .arg1 => s.regs.arg1
  | .coefLo => s.regs.coefLo
  | .coefHi => s.regs.coefHi
  | .result => s.regs.result
  | .nsites => BitVec.ofNat 32 s.nsites
  | .capbits => BitVec.ofNat 32 s.capbits

/-- Byte lane `i` of a BYTE window word: a byte at or past BMAX reads as 0 (20_memory.md R104). -/
def State.byteLane (s : State) (k : Nat) : Byte := if k < s.params.bmax then s.byteAt k else 0

/-- The exact value of a window word (20_memory.md R104). -/
def State.readWord (s : State) (g : Region) (w : Nat) : Word :=
  match g with
  | .byte => s.byteLane (4 * w + 3) ++ s.byteLane (4 * w + 2) ++ s.byteLane (4 * w + 1) ++ s.byteLane (4 * w)
  | .bit => (s.bitAt w).setWidth 32
  | .perm => s.permAt w
  | .mat => s.mat.read w

/-- The targets that read exactly while a command runs (70_reset_and_hazards.md R405). -/
def Target.exactWhileBusy (t : Target) : Bool :=
  match t with
  | .reg .id | .reg .cfgRmax | .reg .cfgCmax | .reg .cfgBmax | .reg .ctrl | .reg .status | .reg .cmd => true
  | _ => false

/-- The exact value of a target. -/
def State.readTarget (s : State) (t : Target) : Word :=
  match t with
  | .reg r => s.readReg r
  | .word g w => s.readWord g w

/-- A read: its value, and the state after it, which differs only in the model's draw counter. While a command runs, most
reads are draws, a fresh one each (70_reset_and_hazards.md R405; log entry 10). -/
def State.serveRead (s : State) (t : Target) : Word × State :=
  if s.busy && !t.exactWhileBusy then
    (Config.draw 32 s.drawCount 0, { s with drawCount := s.drawCount + 1 })
  else (s.readTarget t, s)

/-! ### Writes -/

/-- A write to CTRL (10_state.md R34; 70_reset_and_hazards.md R391, R404). -/
def State.writeCtrl (s : State) (v : Word) : State :=
  if srstBit v then s.softReset
  else if s.busy then { s with ctrl.ie := (Ctrl.ofWrite v).ie }
  else { s with ctrl := Ctrl.ofWrite v }

/-- A write to CMD: an offer, accepted when idle and otherwise dropped with CMDLOST (40_command_protocol.md R170, R174). -/
def State.writeCmd (s : State) (w : Word) : State :=
  if s.busy then { s with status.cmdlost := true } else s.accept w

/-- A write to a register that BUSY does not protect, or that holds an operand, when idle (10_state.md R37-R47). -/
def State.storeReg (s : State) (r : Reg) (v : Word) : State :=
  match r with
  | .id | .cfgRmax | .cfgCmax | .cfgBmax | .ctrl | .status | .cmd | .result | .nsites | .capbits => s
  | .rows => { s with regs.rows := v.extractLsb' 0 16, status.xf := false }
  | .cols => { s with regs.cols := v.extractLsb' 0 16, status.xf := false }
  | .qLo => { s with regs.qLo := v }
  | .qHi => { s with regs.qHi := v }
  | .seed => { s with regs.seed := v, status.seedValid := true }
  | .reps => { s with regs.reps := v }
  | .len => { s with regs.len := v }
  | .bitlen => { s with regs.bitlen := v }
  | .pn => { s with regs.pn := v }
  | .off => { s with regs.off := v }
  | .arg0 => { s with regs.arg0 := v }
  | .arg1 => { s with regs.arg1 := v }
  | .coefLo => { s with regs.coefLo := v }
  | .coefHi => { s with regs.coefHi := v }

/-- A write to a register. CTRL, STATUS and CMD have rules of their own; an operand write is dropped while a command runs
(70_reset_and_hazards.md R403); a write to a read-only register is ignored (20_memory.md R110). -/
def State.writeReg (s : State) (r : Reg) (v : Word) : State :=
  match r with
  | .ctrl => s.writeCtrl v
  | .status => { s with status := s.status.writeOneToClear v }
  | .cmd => s.writeCmd v
  | _ => if s.busy then s else s.storeReg r v

/-- The bytes that a BYTE window write stores: the lanes below BMAX (20_memory.md R104). -/
def byteLanes (p : Params) (w : Nat) (v : Word) : List Byte :=
  (List.range (min 4 (p.bmax - 4 * w))).map fun i => v.extractLsb' (8 * i) 8

/-- A write to a window word when idle; PERM is read-only (20_memory.md R104, R110). -/
def State.storeWord (s : State) (g : Region) (w : Nat) (v : Word) : State :=
  match g with
  | .byte => { s with bytes := s.bytes.writeRange (4 * w) (byteLanes s.params w v) }
  | .bit => { s with bits := s.bits.write w (v.extractLsb' 0 1) }
  | .perm => s
  | .mat => { s with mat := s.mat.write w v }

/-- A write to a target; a window write is dropped while a command runs (70_reset_and_hazards.md R403). -/
def State.writeTarget (s : State) (t : Target) (v : Word) : State :=
  match t with
  | .reg r => s.writeReg r v
  | .word g w => if s.busy then s else s.storeWord g w v

/-! ### Accesses -/

/-- One access to a target: the reply and the state after it. -/
def State.serve (s : State) (t : Target) (op : BusOp) : BusReply × State :=
  match op with
  | .read => (.data (s.serveRead t).1, (s.serveRead t).2)
  | .write v => (.written, s.writeTarget t v)

/-- The size of the block's region (20_memory.md R100). -/
def regionSize : Nat := 2 ^ 27

/-- The offset of a bus address, when the address lies in the block's region (20_memory.md R100). -/
def offsetOf (p : Params) (addr : Nat) : Option Nat :=
  if p.base ≤ addr ∧ addr < p.base + regionSize then some (addr - p.base) else none

/-- One bus access. An address outside the block's region does not select the block (20_memory.md R127; log entry 7). A bus
error changes nothing and returns data 0 (R109); the machine stops there (93_implementation_defined.md U8; log entry 6). -/
def busAccess (a : BusAccess) (s : State) : Host.Outcome State Fault Refusal :=
  match offsetOf s.params a.addr with
  | none => .next s
  | some off =>
    match decodeAccess s.params a.width off with
    | .error cause => .fault (.busError cause 0)
    | .ok t => .next { (s.serve t a.op).2 with reply := some (s.serve t a.op).1 }

end Sys2Proof.Machine
end

