-- ==== Sys2Proof/Machine/HostProgram.lean ====
section
/-! DEFINITION. The host agent: the primitive statements of a host program and their execution, and the notation with labels
and pseudo-statements that is assembled to them (30_encoding.md R150-R153; log entry 12). -/

namespace Sys2Proof.Machine

/-! ### Running a program -/

/-- The 32-bit access at an offset of the block. -/
def accessAt (p : Params) (off : Nat) (op : BusOp) : BusAccess := { addr := p.base + off, width := 32, op := op }

/-- The offset of word `w` of a window (30_encoding.md R150). -/
def Region.wordOffset (g : Region) (w : Nat) : Nat := g.start + 4 * w

/-- The one bus access of a statement; a goto has none (30_encoding.md R150, R151, R153). -/
def HostStmt.access (st : HostStmt) (p : Params) : Option BusAccess :=
  match st with
  | .wr r v => some (accessAt p r.offset (.write v))
  | .rd r => some (accessAt p r.offset .read)
  | .wrw g w v => some (accessAt p (g.wordOffset w) (.write v))
  | .rdw g w => some (accessAt p (g.wordOffset w) .read)
  | .beq r _ _ _ => some (accessAt p r.offset .read)
  | .bne r _ _ _ => some (accessAt p r.offset .read)
  | .goto _ => none

/-- The value that a reply carries to the host; a write's carries none. -/
def BusReply.value (r : Option BusReply) : Word :=
  match r with
  | some (.data v) => v
  | _ => 0

/-- Where the host continues after the statement at `pc`, given the reply to its access (30_encoding.md R151). -/
def HostStmt.nextPc (st : HostStmt) (pc : Nat) (reply : Option BusReply) : Nat :=
  match st with
  | .wr _ _ | .rd _ | .wrw _ _ _ | .rdw _ _ => pc + 1
  | .beq _ mask v target => if BusReply.value reply &&& mask = v then target else pc + 1
  | .bne _ mask v target => if BusReply.value reply &&& mask = v then pc + 1 else target
  | .goto target => target

/-- What an access answers the host: a write no value, and a read the value in the reply, `none` where the address does not
select the block and the platform answers (log entry 7). -/
def BusAccess.answer (a : BusAccess) (p : Params) (reply : Option BusReply) : List (Option Word) :=
  match a.op with
  | .write _ => []
  | .read => [(offsetOf p a.addr).map fun _ => BusReply.value reply]

/-- The host runs statement `st`: its access, whose value it keeps, and then its own control flow, which the block does not
see. -/
def hostStatement (st : HostStmt) (s : State) : Host.Outcome State Fault Refusal :=
  match st.access s.params with
  | none => .next { s with host.pc := st.nextPc s.host.pc none }
  | some a =>
    match busAccess a s with
    | .next t =>
      .next { t with
        host.pc := st.nextPc s.host.pc t.reply
        host.reads := a.answer s.params t.reply ++ s.host.reads }
    | .fault f => .fault f
    | .refused r => .refused r

/-- The host's turn: the statement at its pc, or nothing past the end of its program. -/
def hostTurn (s : State) : Host.Outcome State Fault Refusal :=
  match s.host.prog[s.host.pc]? with
  | none => .next s
  | some st => hostStatement st s

/-! ### The notation -/

/-- The two 64-bit registers of the notation (30_encoding.md R151, `wr64`). -/
inductive PairReg where
  | q | coef
deriving DecidableEq, Repr

/-- A line of a host program as it is written (30_encoding.md R150, R151). -/
inductive HostLine where
  | label (name : String)
  | wr (r : Reg) (v : Word)
  | rd (r : Reg)
  | wrw (g : Region) (w : Nat) (v : Word)
  | rdw (g : Region) (w : Nat)
  | cmd (i : Instr)
  | wait
  | wr64 (r : PairReg) (x : F64)
  | wrm (e : Nat) (x : F64)
  | rdm (e : Nat)
  | wrb (k : Nat) (b0 b1 b2 b3 : Byte)
  | run (i : Instr)
  | beq (r : Reg) (mask v : Word) (name : String)
  | bne (r : Reg) (mask v : Word) (name : String)
  | goto (name : String)
deriving DecidableEq, Repr

/-- The low and the high register of a pair (30_encoding.md R151). -/
def PairReg.halves (r : PairReg) : Reg × Reg :=
  match r with
  | .q => (.qLo, .qHi)
  | .coef => (.coefLo, .coefHi)

/-- `cmd MNEMONIC`: one write of the command word to CMD (30_encoding.md R151). -/
def cmdStmt (i : Instr) : HostStmt := .wr .cmd (encode i)

/-- `wait`, standing at statement `at_`: repeat while BUSY reads 1 (30_encoding.md R151). -/
def waitStmt (at_ : Nat) : HostStmt := .beq .status 0x1 0x1 at_

/-- How many statements a line expands to. -/
def HostLine.size (l : HostLine) : Nat :=
  match l with
  | .label _ => 0
  | .wr _ _ | .rd _ | .wrw _ _ _ | .rdw _ _ | .cmd _ | .wait | .wrb _ _ _ _ _ | .beq _ _ _ _ | .bne _ _ _ _
  | .goto _ => 1
  | .wr64 _ _ | .wrm _ _ | .rdm _ | .run _ => 2

/-- The statement number of a label, lines being laid out from statement `at_` on. The spec does not say whether a label may
stand twice, nor which place it then names: the first one (DESIGN CHOICE, log entry 12). -/
def labelAddr (name : String) : Nat → List HostLine → Option Nat
  | _, [] => none
  | at_, l :: rest => if l = .label name then some at_ else labelAddr name (at_ + l.size) rest

/-- The statements of a line at statement `at_` (30_encoding.md R151); `none` if it names a label that `find` lacks. -/
def HostLine.expand (find : String → Option Nat) (at_ : Nat) (l : HostLine) : Option (List HostStmt) :=
  match l with
  | .label _ => some []
  | .wr r v => some [.wr r v]
  | .rd r => some [.rd r]
  | .wrw g w v => some [.wrw g w v]
  | .rdw g w => some [.rdw g w]
  | .cmd i => some [cmdStmt i]
  | .wait => some [waitStmt at_]
  | .wr64 r x => some [.wr r.halves.1 (f64Lo x), .wr r.halves.2 (f64Hi x)]
  | .wrm e x => some [.wrw .mat (2 * e) (f64Lo x), .wrw .mat (2 * e + 1) (f64Hi x)]
  | .rdm e => some [.rdw .mat (2 * e), .rdw .mat (2 * e + 1)]
  | .wrb k b0 b1 b2 b3 => some [.wrw .byte k (b3 ++ b2 ++ b1 ++ b0)]
  | .run i => some [cmdStmt i, waitStmt (at_ + 1)]
  | .beq r mask v name => (find name).map fun t => [.beq r mask v t]
  | .bne r mask v name => (find name).map fun t => [.bne r mask v t]
  | .goto name => (find name).map fun t => [.goto t]

/-- A value that a line reads. -/
inductive HostValue where
  /-- the 32 bits of an `rd` or an `rdw` -/
  | word (v : Word)
  /-- the binary64 of an `rdm` -/
  | double (x : F64)
deriving DecidableEq, Repr

/-- The value of a line that the host has just run, given what its reads were answered, the latest first (`HostAgent.reads`):
an `rd` or an `rdw` the value read, an `rdm` `{second, first}` as binary64 (30_encoding.md R150, R151). -/
def HostLine.value (l : HostLine) (reads : List (Option Word)) : Option HostValue :=
  match l, reads with
  | .rd _, some v :: _ => some (.word v)
  | .rdw _ _, some v :: _ => some (.word v)
  | .rdm _, some second :: some first :: _ => some (.double (f64OfHalves first second))
  | _, _ => none

/-- The statements of the lines from statement `at_` on. -/
def assembleFrom (find : String → Option Nat) : Nat → List HostLine → Option (List HostStmt)
  | _, [] => some []
  | at_, l :: rest =>
    match l.expand find at_, assembleFrom find (at_ + l.size) rest with
    | some xs, some ys => some (xs ++ ys)
    | _, _ => none

/-- A program in the notation, assembled; `none` if it names an unknown label. -/
def assemble (lines : List HostLine) : Option (List HostStmt) :=
  assembleFrom (fun name => labelAddr name 0 lines) 0 lines

/-! ### Encoding a program: its bus accesses in order (30_encoding.md R153) -/

/-- An item of a listing. -/
inductive ListItem where
  /-- `(offset, data)`: a write -/
  | write (off : Nat) (data : Word)
  /-- `(offset, read)`: a read, with the value that a listing writes after it, `-> value` (30_encoding.md R150) -/
  | read (off : Nat) (value : Word)
  /-- the value of an `rdm`, written after its two reads (30_encoding.md R151; 95_test_vectors.md section 4.2, `so 2.5`) -/
  | double (x : F64)
  /-- a `wait`, whose reads of STATUS a listing does not spell out -/
  | wait
  /-- which way a `beq`, a `bne` or a `goto` went: to a label, or to the next statement -/
  | went (label : Option String)
deriving DecidableEq, Repr

/-- What a listing shows of one line, given the values that the reads still to come answer: its items, the values left over,
and the label the host continues at, if it leaves the order of the lines; `none` when a value is missing (R151, R153). -/
def HostLine.listing (l : HostLine) (answers : List Word) : Option (List ListItem × List Word × Option String) :=
  match l, answers with
  | .label _, as => some ([], as, none)
  | .wr r v, as => some ([.write r.offset v], as, none)
  | .rd r, a :: as => some ([.read r.offset a], as, none)
  | .wrw g w v, as => some ([.write (g.wordOffset w) v], as, none)
  | .rdw g w, a :: as => some ([.read (g.wordOffset w) a], as, none)
  | .cmd i, as => some ([.write Reg.cmd.offset (encode i)], as, none)
  | .wait, as => some ([.wait], as, none)
  | .wr64 r x, as => some ([.write r.halves.1.offset (f64Lo x), .write r.halves.2.offset (f64Hi x)], as, none)
  | .wrm e x, as =>
    some ([.write (Region.mat.wordOffset (2 * e)) (f64Lo x), .write (Region.mat.wordOffset (2 * e + 1)) (f64Hi x)], as, none)
  | .rdm e, a :: b :: as =>
    some ([.read (Region.mat.wordOffset (2 * e)) a, .read (Region.mat.wordOffset (2 * e + 1)) b, .double (f64OfHalves a b)],
      as, none)
  | .wrb k b0 b1 b2 b3, as => some ([.write (Region.byte.wordOffset k) (b3 ++ b2 ++ b1 ++ b0)], as, none)
  | .run i, as => some ([.write Reg.cmd.offset (encode i), .wait], as, none)
  | .beq r mask v name, a :: as =>
    let dest := if a &&& mask = v then some name else none
    some ([.read r.offset a, .went dest], as, dest)
  | .bne r mask v name, a :: as =>
    let dest := if a &&& mask = v then none else some name
    some ([.read r.offset a, .went dest], as, dest)
  | .goto name, as => some ([.went (some name)], as, some name)
  | .rd _, [] | .rdw _ _, [] | .rdm _, [] | .rdm _, [_] | .beq _ _ _ _, [] | .bne _ _ _ _, [] => none

/-- The lines that follow a label, the first one of that name (DESIGN CHOICE, log entry 12). -/
def linesAfter (name : String) : List HostLine → Option (List HostLine)
  | [] => none
  | l :: rest => if l = .label name then some rest else linesAfter name rest

/-- The listing of the lines still to run, at most `fuel` of them, of the program `lines`. -/
def listingFrom (lines : List HostLine) : Nat → List HostLine → List Word → Option (List ListItem)
  | _, [], _ => some []
  | 0, _ :: _, _ => none
  | fuel + 1, l :: rest, answers =>
    match l.listing answers with
    | none => none
    | some (items, left, dest) =>
      match (match dest with
        | none => some rest
        | some name => linesAfter name lines) with
      | none => none
      | some next => (listingFrom lines fuel next left).map (items ++ ·)

/-- The encoding of a program that runs to its end within `fuel` lines: its bus accesses in order, given the values that its
reads answer; `none` when a value is missing, a label is unknown, or `fuel` lines do not reach the end (30_encoding.md R153). -/
def listing (lines : List HostLine) (fuel : Nat) (answers : List Word) : Option (List ListItem) :=
  listingFrom lines fuel lines answers

/-- The bus access that an item stands for; a `wait` stands for its reads of STATUS, the last one here. -/
def ListItem.access (x : ListItem) (p : Params) : Option BusAccess :=
  match x with
  | .write off v => some (accessAt p off (.write v))
  | .read off _ => some (accessAt p off .read)
  | .wait => some (accessAt p Reg.status.offset .read)
  | .double _ | .went _ => none

/-! ### Loading a program -/

/-- The state with a host program loaded from outside, to run from its first statement (log entry 17). -/
def State.load (s : State) (prog : List HostStmt) : State := { s with host := { prog := prog, pc := 0, reads := [] } }

end Sys2Proof.Machine
end

