-- ==== Sys2Proof/Machine/Engine.lean ====
section
/-! DEFINITION. The turns of the agents (60_exceptions.md R354). -/

namespace Sys2Proof.Machine

/-- The engine's turn: it completes the command in flight, as its decoding says; an idle engine does nothing
(40_command_protocol.md R172, R173, R175, R178). -/
def engineTurn (s : State) : Host.Outcome State Fault Refusal :=
  match s.inflight with
  | none => .next s
  | some w =>
    match decodeWord w with
    | .ok i => exec i s
    | .error _ => completeIllegal s

/-- One turn of the agent named. -/
def turn (who : Turn) (s : State) : Host.Outcome State Fault Refusal :=
  match who with
  | .engine => engineTurn s
  | .host => hostTurn s
  | .bus a => busAccess a s
  | .hardReset => .next s.hardReset

/-- Who acts when the agenda is empty: the engine while a command is in flight, and otherwise the host (log entry 4). -/
def State.defaultTurn (s : State) : Turn := if s.busy then .engine else .host

/-- The words of an opcode-table row accepted as the command in flight, the engine being next to act. -/
def State.withCommand (s : State) (w : Word) : State :=
  { s.accept w with agenda := .engine :: s.agenda }

end Sys2Proof.Machine
end

