-- ==== Sys2Proof/Machine/Step.lean ====
section
/-! DEFINITION. One step: the next turn of the agenda (60_exceptions.md R354: "Each is one atomic step"). -/

namespace Sys2Proof.Machine

/-- The block's next event, and its effect. -/
def step (s : State) : Host.Outcome State Fault Refusal :=
  match s.agenda with
  | [] => turn s.defaultTurn s
  | who :: rest => turn who { s with agenda := rest }

/-- `s` with the command word that the low `nbits` bits of `w` stand for accepted (40_command_protocol.md R171), and the
engine next to act, so that the very next step completes exactly that command (log entry 17). -/
def State.withFetchWord (s : State) (nbits w : Nat) : State := s.withCommand (tableWord nbits w)

end Sys2Proof.Machine
end

