-- ==== Sys2Proof/Safety.lean ====
section
/-! DEFINITION. The invariant of the machine and what counts as a safe run, in the terms the statements use. -/

namespace Sys2Proof.Machine

/-- Every memory is in its canonical form. -/
abbrev State.memoriesWf (s : State) : Prop := s.mat.wf ∧ s.bytes.wf ∧ s.bits.wf ∧ s.perm.wf

/-- No memory holds an element that does not exist (00_scope.md R10). -/
abbrev State.memoriesWithin (s : State) : Prop :=
  s.mat.within (2 * (s.params.rmax * s.params.cmax)) ∧ s.bytes.within s.params.bmax
    ∧ s.bits.within s.params.fmax ∧ s.perm.within s.params.pmax

/-- Every draw in the memories was drawn before the next one (10_state.md R61; 70_reset_and_hazards.md R392). -/
abbrev State.drawsOld (s : State) : Prop :=
  s.mat.drawnBefore s.drawCount ∧ s.bytes.drawnBefore s.drawCount ∧ s.bits.drawnBefore s.drawCount
    ∧ s.perm.drawnBefore s.drawCount

/-- ERR is 1 exactly when ERRCODE is not NONE (10_state.md R35), and both DONE and ERR are 0 while a command runs
(70_reset_and_hazards.md R406: "While BUSY = 1, DONE and ERR are already 0"). -/
abbrev State.statusConsistent (s : State) : Prop :=
  s.status.err = s.status.errcode.isSome ∧ (s.busy = true → s.status.done = false ∧ s.status.err = false)

/-- MAT holds coefficients only of a matrix with legal dimensions (43_haar.md R256: "XF = 1 implies ROWS and COLS have not
been written since a successful FWD"). -/
abbrev State.xfLegal (s : State) : Prop := s.status.xf = true → s.legalDims = true

/-- The invariant that every step keeps. -/
abbrev State.Inv (s : State) : Prop :=
  s.memoriesWf ∧ s.memoriesWithin ∧ s.drawsOld ∧ s.statusConsistent ∧ s.xfLegal

/-- A run is safe when no number of steps ends in a fault: no bus access of it gets a bus error
(20_memory.md R109: "a model of a program that causes one faults"). -/
def State.SafeRun (s : State) : Prop := ∀ n f, Sys2Proof.core.run n s ≠ .fault f

/-- A state that runs from reset, under some agenda and some host program loaded from outside, reach. -/
def State.Reachable (t : State) : Prop :=
  ∃ agenda prog n, Sys2Proof.core.run n { State.reset.load prog with agenda := agenda } = .next t

end Sys2Proof.Machine
end

