-- ==== Sys2Proof/Certificates/Slice0/Obligations.lean ====
section
/-! DEFINITION. The statements about the model, for the provers. Each docstring names the rule of spec/ it formalises. A frame
is written `t = { s with ... }`: every field of the state that is not named is unchanged. -/

namespace Sys2Proof.Claims

open Sys2Proof.Machine

/-- What an access, a command or a step answers. -/
abbrev Answer := Host.Outcome State Fault Refusal

/-- A host write of `v` at an offset of the block. -/
def write32 (s : State) (off : Nat) (v : Word) : Answer :=
  busAccess { addr := s.params.base + off, width := 32, op := .write v } s

/-- A host read at an offset of the block. -/
def read32 (s : State) (off : Nat) : Answer :=
  busAccess { addr := s.params.base + off, width := 32, op := .read } s

/-- The state after a completion with error `c` (40_command_protocol.md R173). -/
def failedState (s : State) (c : ErrCode) : State :=
  { s with
    inflight := none
    status := { s.status with done := true, err := true, errcode := some c } }

/-- The error completion as an answer. -/
def failedWith (s : State) (c : ErrCode) : Answer := .next (failedState s c)

/-- The state `u` with what an access to a busy block can itself change taken from `t`: IE, CMDLOST, the reply and the count of
draws (70_reset_and_hazards.md R403 to R406). -/
def keepingAccess (u t : State) : State :=
  { u with
    ctrl.ie := t.ctrl.ie
    status.cmdlost := t.status.cmdlost
    drawCount := t.drawCount
    reply := t.reply }

/-- The host acts next, and `rest` is the agenda after its turn: by the agenda, or because it is empty and the block idle (log
entry 4). -/
def hostNext (s : State) (rest : List Turn) : Prop :=
  s.agenda = .host :: rest ∨ s.agenda = [] ∧ s.busy = false ∧ rest = []

/-- No error is recorded: how STATUS stands from acceptance to completion (40_command_protocol.md R171). -/
def clean (s : State) : Prop := s.status.err = false ∧ s.status.errcode = none

/-- STATUS names success after a completion. -/
def succeeded (t : State) : Prop := t.status.done = true ∧ t.status.err = false ∧ t.status.errcode = none

/-- The number that `n` bits from `b`, `b + 1`, ... denote, most significant first (41_bitbyte.md R201, R203). -/
def msbFirst (n : Nat) (bit : Nat → Bit) : Nat := ∑ i ∈ Finset.range n, (bit i).toNat * 2 ^ (n - 1 - i)

/-- Every register reads its reset value (10_state.md R60). -/
def readsResetValues (t : State) : Prop :=
  t.readReg .id = 0x42574D31 ∧ t.readReg .ctrl = 0x00000002 ∧ t.readReg .status = 0x00000000
    ∧ t.readReg .rows = 0 ∧ t.readReg .cols = 0 ∧ t.readReg .qLo = 0 ∧ t.readReg .qHi = 0
    ∧ t.readReg .seed = 0 ∧ t.readReg .reps = 1 ∧ t.readReg .len = 0 ∧ t.readReg .bitlen = 0
    ∧ t.readReg .pn = 0 ∧ t.readReg .off = 0 ∧ t.readReg .arg0 = 0 ∧ t.readReg .arg1 = 0
    ∧ t.readReg .coefLo = 0 ∧ t.readReg .coefHi = 0 ∧ t.readReg .result = 0
    ∧ t.readReg .nsites = 0 ∧ t.readReg .capbits = 0 ∧ t.inflight = none ∧ t.irq = false

/-- The opcode map, a word beside its command (30_encoding.md R143). -/
def opcodeRows : List (Word × Instr) :=
  [(0x00000000, .nop), (0x00000001, .b2bits), (0x00000002, .bits2b), (0x00000003, .u32bits), (0x00000004, .bitsu32),
    (0x00000005, .posmod), (0x00000010, .permgen), (0x00000020, .fwd), (0x00000021, .inv), (0x00000030, .qwrite),
    (0x00000031, .qread), (0x00000040, .frame), (0x00000041, .embed), (0x00000042, .extract), (0x00000043, .embedf),
    (0x00000044, .extractf)]

/-- The "fails with" column of 30_encoding.md R147. -/
def failsWith (i : Instr) : List ErrCode :=
  match i with
  | .nop => []
  | .b2bits | .bits2b | .u32bits | .bitsu32 | .frame => [.range]
  | .posmod => [.config]
  | .permgen => [.config, .range]
  | .fwd | .inv => [.sequence, .dimension, .numeric]
  | .qwrite | .qread => [.config, .numeric]
  | .embed | .embedf => [.sequence, .dimension, .config, .capacity, .range, .numeric]
  | .extract | .extractf => [.sequence, .dimension, .config, .capacity, .numeric, .decodeMismatch]

/-- The operand registers of 70_reset_and_hazards.md R403, offsets 0x01C to 0x050. -/
def operandRegs : List Reg :=
  [.rows, .cols, .qLo, .qHi, .seed, .reps, .len, .bitlen, .pn, .off, .arg0, .arg1, .coefLo, .coefHi]

/-- The registers that read exactly while a command runs (70_reset_and_hazards.md R405). -/
def exactRegs : List Reg := [.id, .cfgRmax, .cfgCmax, .cfgBmax, .ctrl, .status, .cmd]

/-- The registers that no write changes (20_memory.md R110). -/
def readOnlyRegs : List Reg := [.id, .cfgRmax, .cfgCmax, .cfgBmax, .result, .nsites, .capbits]

/-- The offsets that 20_memory.md R102 implements. -/
def implemented (p : Params) (off : Nat) : Prop :=
  off ≤ 0x5C
    ∨ (0x0010000 ≤ off ∧ off < 0x0010000 + 4 * ((p.bmax + 3) / 4))
    ∨ (0x0400000 ≤ off ∧ off < 0x0400000 + 4 * p.fmax)
    ∨ (0x0800000 ≤ off ∧ off < 0x0800000 + 4 * p.pmax)
    ∨ (0x1000000 ≤ off ∧ off < 0x1000000 + 4 * (2 * (p.rmax * p.cmax)))

/-- The table of 70_reset_and_hazards.md R392: the elements of each memory that an abort of command `i` makes draws. -/
def abortTable (s : State) (i : Instr) (g : Region) (a : Nat) : Prop :=
  match i, g with
  | .b2bits, .bit => a < 8 * min s.payloadLen s.params.bmax
  | .bits2b, .byte => a < min (s.regs.bitlen.toNat / 8) s.params.bmax
  | .u32bits, .bit =>
    s.regs.off.toNat + 32 ≤ s.params.fmax ∧ s.regs.off.toNat ≤ a ∧ a ≤ s.regs.off.toNat + 31
  | .permgen, .perm => a < min s.regs.pn.toNat s.params.pmax
  | .fwd, .mat | .inv, .mat | .embed, .mat | .embedf, .mat => s.legalDims = true ∧ a < s.rowCount * s.colCount
  | .frame, .bit => a < 32 + 8 * min s.payloadLen s.params.bmax
  | .embed, .perm | .embedf, .perm | .extract, .perm | .extractf, .perm => s.legalDims = true ∧ a < s.nsites
  | .embed, .bit | .embedf, .bit | .extract, .bit | .extractf, .bit => s.legalDims = true ∧ a < s.params.fmax
  | .extract, .byte | .extractf, .byte => s.legalDims = true ∧ a < s.params.bmax
  | _, _ => False

/-- Element `a` of a memory: afterwards a draw taken since `s` where `hit` holds, and otherwise what it was. -/
def redrawn {w : Nat} (s : State) (before after : Memory w) (hit : Nat → Prop) : Prop :=
  ∀ a, (hit a → ∃ id, s.drawCount ≤ id ∧ after.slot a = .draw id) ∧ (¬ hit a → after.slot a = before.slot a)

/-- Element (r, c) of the matrix in MAT (00_scope.md R10). -/
def elem (s : State) (r c : Nat) : F64 := s.matAt (r * s.colCount + c)

/-- The MAT index of the site of framed bit `k`, repetition `r` (45_frame_mux.md R314). -/
def site (s : State) (k r : Nat) : Nat := s.siteAddr (s.sitePerm.getD (k * s.repCount + r) 0)

/-- Framed bit `k`: `L[31-k]` in the header, and `B[j][7-i]` at 32 + 8j + i (45_frame_mux.md R310). -/
def framedBit (s : State) (k : Nat) : Bit :=
  if k < 32 then s.regs.len.extractLsb' (31 - k) 1
  else (s.byteAt ((k - 32) / 8)).extractLsb' (7 - (k - 32) % 8) 1

/-- The conditions under which EMBED and EMBEDF read coefficients (45_frame_mux.md R317, R319). -/
def embedReady (s : State) (xf : Bool) : Prop :=
  s.status.xf = xf ∧ s.legalDims = true ∧ s.cfgLegal = true ∧ 32 + 8 * s.payloadLen ≤ s.capbits
    ∧ s.payloadLen ≤ s.params.bmax

/-- The conditions under which EXTRACT and EXTRACTF read coefficients (45_frame_mux.md R318, R320). -/
def extractReady (s : State) (xf : Bool) : Prop :=
  s.status.xf = xf ∧ s.legalDims = true ∧ s.cfgLegal = true ∧ 32 ≤ s.capbits

/-- PERM[0..N-1] holds the permutation of SEED, and the rest of PERM is as before (45_frame_mux.md R314). -/
def permWritten (s t : State) : Prop :=
  (∀ k, k < s.nsites → t.permAt k = BitVec.ofNat 32 (s.sitePerm.getD k 0))
    ∧ ∀ k, s.nsites ≤ k → t.permAt k = s.permAt k

/-- The twelve values of one 2 x 2 block in the forward transform are finite: the inputs, the intermediates and the results
(43_haar.md R254). -/
def forwardBlockFinite (a b c d : F64) : Prop :=
  let lo1 := f64Half (f64Add a b)
  let hi1 := f64Half (f64Sub a b)
  let lo2 := f64Half (f64Add c d)
  let hi2 := f64Half (f64Sub c d)
  ∀ x ∈ [a, b, c, d, lo1, hi1, lo2, hi2, f64Half (f64Add lo1 lo2), f64Half (f64Sub lo1 lo2),
    f64Half (f64Add hi1 hi2), f64Half (f64Sub hi1 hi2)], f64Finite x = true

/-- The twelve values of one block in the inverse transform are finite (43_haar.md R254). -/
def inverseBlockFinite (ll lh hl hh : F64) : Prop :=
  let lo1 := f64Add ll hl
  let lo2 := f64Sub ll hl
  let hi1 := f64Add lh hh
  let hi2 := f64Sub lh hh
  ∀ x ∈ [ll, lh, hl, hh, lo1, lo2, hi1, hi2, f64Add lo1 hi1, f64Sub lo1 hi1, f64Add lo2 hi2, f64Sub lo2 hi2],
    f64Finite x = true

/-- Every block of the matrix passes the forward transform with finite values. -/
def forwardFinite (s : State) : Prop :=
  ∀ i j, i < s.rowCount / 2 → j < s.colCount / 2 →
    forwardBlockFinite (elem s (2 * i) (2 * j)) (elem s (2 * i) (2 * j + 1)) (elem s (2 * i + 1) (2 * j))
      (elem s (2 * i + 1) (2 * j + 1))

/-- Every block of the matrix passes the inverse transform with finite values. -/
def inverseFinite (s : State) : Prop :=
  ∀ i j, i < s.rowCount / 2 → j < s.colCount / 2 →
    inverseBlockFinite (elem s i j) (elem s i (s.colCount / 2 + j)) (elem s (s.rowCount / 2 + i) j)
      (elem s (s.rowCount / 2 + i) (s.colCount / 2 + j))

/-- STATUS, bit by bit, at a success: DONE is 1, and the rest is as at acceptance (40_command_protocol.md R172). -/
def doneStatus (s : State) : Status := { s.status with done := true }

/-- The generator's state after `m` calls, on integers (42_permutation.md R230). -/
def lcgState (seed : Nat) : Nat → Nat
  | 0 => seed
  | m + 1 => (1664525 * lcgState seed m + 1013904223) % 2 ^ 32

/-- Entry `k` of the sequence after `m` swaps of the loop `for i = n-1 downto 1` (42_permutation.md R231): the m-th swap, counted
from 0, exchanges P[i] and P[j] with i = n - 1 - m and j the floor of s * (i + 1) / 2^32, s being the generator's next state. -/
def shuffled (n seed : Nat) : Nat → Nat → Nat
  | 0, k => k
  | m + 1, k =>
    let i := n - 1 - m
    let j := lcgState seed (m + 1) * (i + 1) / 2 ^ 32
    if k = i then shuffled n seed m j else if k = j then shuffled n seed m i else shuffled n seed m k

/-- The register map (10_state.md R31). -/
def registerMap : List (Nat × Reg) :=
  [(0x000, .id), (0x004, .cfgRmax), (0x008, .cfgCmax), (0x00C, .cfgBmax), (0x010, .ctrl), (0x014, .status), (0x018, .cmd),
    (0x01C, .rows), (0x020, .cols), (0x024, .qLo), (0x028, .qHi), (0x02C, .seed), (0x030, .reps), (0x034, .len),
    (0x038, .bitlen), (0x03C, .pn), (0x040, .off), (0x044, .arg0), (0x048, .arg1), (0x04C, .coefLo), (0x050, .coefHi),
    (0x054, .result), (0x058, .nsites), (0x05C, .capbits)]

/-- The value of the register at each offset (10_state.md R31 to R49); those of CTRL and STATUS, NSITES and CAPBITS are stated
of `readReg` elsewhere. -/
def registerValues (s : State) : List (Nat × Word) :=
  [(0x000, 0x42574D31), (0x004, BitVec.ofNat 32 s.params.rmax), (0x008, BitVec.ofNat 32 s.params.cmax),
    (0x00C, BitVec.ofNat 32 s.params.bmax), (0x010, s.readReg .ctrl), (0x014, s.readReg .status), (0x018, 0),
    (0x01C, s.regs.rows.setWidth 32), (0x020, s.regs.cols.setWidth 32), (0x024, s.regs.qLo), (0x028, s.regs.qHi),
    (0x02C, s.regs.seed), (0x030, s.regs.reps), (0x034, s.regs.len), (0x038, s.regs.bitlen), (0x03C, s.regs.pn),
    (0x040, s.regs.off), (0x044, s.regs.arg0), (0x048, s.regs.arg1), (0x04C, s.regs.coefLo), (0x050, s.regs.coefHi),
    (0x054, s.regs.result), (0x058, s.readReg .nsites), (0x05C, s.readReg .capbits)]

/-- The state that an idle write of `v` to the operand register at each offset leaves, the reply apart (10_state.md R37 to
R47). -/
def storedAt (s : State) (v : Word) : List (Nat × State) :=
  [(0x01C, { s with regs.rows := v.extractLsb' 0 16, status.xf := false }),
    (0x020, { s with regs.cols := v.extractLsb' 0 16, status.xf := false }),
    (0x024, { s with regs.qLo := v }), (0x028, { s with regs.qHi := v }),
    (0x02C, { s with regs.seed := v, status.seedValid := true }), (0x030, { s with regs.reps := v }),
    (0x034, { s with regs.len := v }), (0x038, { s with regs.bitlen := v }), (0x03C, { s with regs.pn := v }),
    (0x040, { s with regs.off := v }), (0x044, { s with regs.arg0 := v }), (0x048, { s with regs.arg1 := v }),
    (0x04C, { s with regs.coefLo := v }), (0x050, { s with regs.coefHi := v })]

/-- `t'` agrees with `t` on what an extraction depends on (45_frame_mux.md R321): the parameters, MAT, ROWS, COLS, CTRL.BAND, Q,
SEED, SEED_VALID, REPS and XF. LEN, BITLEN, BYTE, BIT, PERM and everything else may differ. -/
def sameMarking (t t' : State) : Prop :=
  t'.params = t.params ∧ (∀ e, t'.matAt e = t.matAt e) ∧ t'.regs.rows = t.regs.rows ∧ t'.regs.cols = t.regs.cols
    ∧ t'.ctrl.band = t.ctrl.band ∧ t'.regs.qLo = t.regs.qLo ∧ t'.regs.qHi = t.regs.qHi ∧ t'.regs.seed = t.regs.seed
    ∧ t'.status.seedValid = t.status.seedValid ∧ t'.regs.reps = t.regs.reps ∧ t'.status.xf = t.status.xf

/-- `z` is the rounding of the exact sum of `m` and `n`, numbers in units of 2^-1074, an exact zero being -0 exactly when
`negZero` holds (00_scope.md R11). -/
def isRoundedSum (z : F64) (m n : Int) (negZero : Prop) : Prop :=
  ∃ neg, z = f64Round neg (m + n).natAbs 1 ∧ (neg = true ↔ m + n < 0 ∨ (m + n = 0 ∧ negZero))

end Sys2Proof.Claims

open Sys2Proof Sys2Proof.Machine Sys2Proof.Claims

/-! ### Encoding (30_encoding.md) -/

/-- R143, R144, R145: a word decodes to a command exactly when it is that command's word in the opcode map; every other word is
refused, by the field that makes it illegal. -/
def Obligations.WordsDecodeByTheOpcodeMap : Prop :=
  ∀ w : Word,
    (∀ i, decodeWord w = .ok i ↔ (w, i) ∈ opcodeRows)
      ∧ (w.toNat / 256 ≠ 0 → decodeWord w = .error .reservedBits)
      ∧ (w.toNat / 256 = 0 → w ∉ opcodeRows.map Prod.fst → decodeWord w = .error .unassignedOpcode)

/-- R140, R143: encoding and decoding agree, on words and on the four bytes that store them, and a byte string of any other
length is no command. -/
def Obligations.EncodeAndDecodeAgree : Prop :=
  (∀ i, decodeBytes (bytesOfWord (encode i)) = .ok i ∧ decodeTableWord 32 (encode i).toNat = some i)
    ∧ (∀ bs i, decodeBytes bs = .ok i → bs = bytesOfWord (encode i))

/-- R143: words of each family written out (sanity). -/
def Obligations.SampleWordsDecode : Prop :=
  decodeWord 0b00000000000000000000000000000101#32 = .ok .posmod
    ∧ decodeWord 0b00000000000000000000000000010000#32 = .ok .permgen
    ∧ decodeWord 0b00000000000000000000000000100001#32 = .ok .inv
    ∧ decodeWord 0b00000000000000000000000000110000#32 = .ok .qwrite
    ∧ decodeWord 0b00000000000000000000000001000100#32 = .ok .extractf
    ∧ decodeWord 0b00000000000000000000000000000000#32 = .ok .nop

/-! ### The step (60_exceptions.md R354; 40_command_protocol.md) -/

/-- R172, R173: at the engine's turn, and when the agenda is empty, a step completes the command in flight as exec does.
The agenda, and who acts when it is empty, are the model's choice (log entry 4). -/
def Obligations.StepRunsTheDecodedCommand : Prop :=
  ∀ (s : State) (w : Word) (i : Instr), s.inflight = some w → decodeWord w = .ok i →
    (∀ rest, s.agenda = .engine :: rest → step s = exec i { s with agenda := rest })
      ∧ (s.agenda = [] → step s = exec i s)

/-- R178: every word that is not one of the sixteen completes with ILLEGAL_CMD and changes nothing else. That the engine acts
when the agenda is empty is the model's choice (log entry 4). -/
def Obligations.IllegalWordCompletesWithIllegalCmd : Prop :=
  ∀ (s : State) (w : Word), s.inflight = some w → w ∉ opcodeRows.map Prod.fst →
    (s.agenda = [] → step s = failedWith s .illegalCmd)
      ∧ ∀ rest, s.agenda = .engine :: rest → step s = failedWith { s with agenda := rest } .illegalCmd

/-- R170, R171, R174: a CMD write while idle is accepted: STATUS is cleared but for CMDLOST, XF and SEED_VALID, and IRQ falls. A
CMD write while a command runs sets CMDLOST and changes nothing else. The reply latch is the model's (log entry 13). -/
def Obligations.CmdWriteIsAcceptedOrDropped : Prop :=
  ∀ (s : State) (w : Word),
    (s.busy = false →
      ∃ t, write32 s 0x018 w = .next t
        ∧ t = { s with
            inflight := some w
            status := { s.status with done := false, err := false, errcode := none }
            reply := some .written }
        ∧ t.busy = true ∧ t.irq = false)
      ∧ (s.busy = true → write32 s 0x018 w = .next { s with status.cmdlost := true, reply := some .written })

/-- R175: an accepted command completes after finitely many steps, unless a fault stops the machine: whatever the agenda holds,
within one step more than its length there is a moment at which no command is in flight. That every accepted command
completes within the agenda's length rests on the model's agenda (log entry 4). -/
def Obligations.AcceptedCommandLeavesFlight : Prop :=
  ∀ s : State, s.busy = true →
    ∃ n, n ≤ s.agenda.length + 1
      ∧ ((∃ t, Sys2Proof.core.run n s = .next t ∧ t.inflight = none) ∨ ∃ f, Sys2Proof.core.run n s = .fault f)

/-- R173, R147 (its "fails with" column): every command, in every state, completes; if it completes with an error, the code is one
of its row and nothing but STATUS (and BUSY, the in-flight command) has changed. -/
def Obligations.FailedCommandChangesOnlyStatus : Prop :=
  ∀ (i : Instr) (s : State), clean s →
    ∃ t, exec i s = .next t ∧ t.inflight = none ∧ t.status.done = true
      ∧ ((t.status.err = false ∧ t.status.errcode = none) ∨ ∃ c, c ∈ failsWith i ∧ t = failedState s c)

/-- R147: what no command writes. Registers other than BITLEN, LEN, RESULT and COEF, the parameters, CTRL, CMDLOST, SEED_VALID
and everything outside the block are as before after any command. -/
def Obligations.CommandsLeaveEveryOtherRegister : Prop :=
  ∀ (i : Instr) (s t : State), exec i s = .next t →
    t = { s with
        regs.bitlen := t.regs.bitlen
        regs.len := t.regs.len
        regs.result := t.regs.result
        regs.coefLo := t.regs.coefLo
        regs.coefHi := t.regs.coefHi
        status := { s.status with
          done := t.status.done
          err := t.status.err
          errcode := t.status.errcode
          xf := t.status.xf }
        inflight := t.inflight
        mat := t.mat
        bytes := t.bytes
        bits := t.bits
        perm := t.perm }

/-- R176, R403, R410: while a command runs, a bus access that is no soft reset leaves the word in flight as it is and records no
error, and cannot change the outcome, be the word legal or illegal: the engine then completes it with the same writes and the
same STATUS, but for what the access itself did (IE, CMDLOST, the reply, the draw counter: log entries 10 and 13). The same holds
of every command's exec. -/
def Obligations.BusyAccessCannotChangeTheOutcome : Prop :=
  ∀ (s t : State) (a : BusAccess), s.busy = true → clean s →
    (∀ v, a.op = .write v → a.addr = s.params.base + 0x010 → v.getLsbD 31 = false) →
    busAccess a s = .next t →
    t.inflight = s.inflight ∧ clean t
      ∧ (∀ u, engineTurn s = .next u → engineTurn t = .next (keepingAccess u t))
      ∧ ∀ i u, exec i s = .next u → exec i t = .next (keepingAccess u t)

/-! ### NOP and the bit/byte converter (40_command_protocol.md R177; 41_bitbyte.md) -/

/-- R177: NOP succeeds in every state and changes nothing but STATUS; as acceptance has cleared the error record, it leaves
DONE = 1, ERR = 0 and ERRCODE = 0. -/
def Obligations.NopCompletesWithNoEffect : Prop :=
  ∀ s : State, ∃ t, exec .nop s = .next t ∧ t = { s with inflight := none, status := doneStatus s } ∧ (clean s → succeeded t)

/-- R210: B2BITS. -/
def Obligations.B2bitsExpandsTheBytes : Prop :=
  ∀ s : State,
    (s.params.bmax < s.payloadLen → exec .b2bits s = failedWith s .range)
      ∧ (s.payloadLen ≤ s.params.bmax →
        ∃ t, exec .b2bits s = .next t
          ∧ t = { s with
              bits := t.bits
              regs.bitlen := BitVec.ofNat 32 (8 * s.payloadLen)
              inflight := none
              status := doneStatus s }
          ∧ (∀ k i, k < s.payloadLen → i < 8 → t.bitAt (8 * k + i) = (s.byteAt k).extractLsb' (7 - i) 1)
          ∧ ∀ j, 8 * s.payloadLen ≤ j → t.bitAt j = s.bitAt j)

/-- R211: BITS2B. -/
def Obligations.Bits2bPacksTheBits : Prop :=
  ∀ s : State,
    (s.params.fmax < s.regs.bitlen.toNat ∨ s.params.bmax < s.regs.bitlen.toNat / 8 →
        exec .bits2b s = failedWith s .range)
      ∧ (s.regs.bitlen.toNat ≤ s.params.fmax → s.regs.bitlen.toNat / 8 ≤ s.params.bmax →
        ∃ t, exec .bits2b s = .next t
          ∧ t = { s with
              bytes := t.bytes
              regs.len := BitVec.ofNat 32 (s.regs.bitlen.toNat / 8)
              inflight := none
              status := doneStatus s }
          ∧ (∀ k, k < s.regs.bitlen.toNat / 8 →
            (t.byteAt k).toNat = msbFirst 8 fun i => s.bitAt (8 * k + i))
          ∧ ∀ k, s.regs.bitlen.toNat / 8 ≤ k → t.byteAt k = s.byteAt k)

/-- R212: U32BITS; the offset does not wrap. -/
def Obligations.U32bitsWritesThirtyTwoBits : Prop :=
  ∀ s : State,
    (s.params.fmax < s.regs.off.toNat + 32 → exec .u32bits s = failedWith s .range)
      ∧ (s.regs.off.toNat + 32 ≤ s.params.fmax →
        ∃ t, exec .u32bits s = .next t
          ∧ t = { s with bits := t.bits, inflight := none, status := doneStatus s }
          ∧ (∀ i, i < 32 → t.bitAt (s.regs.off.toNat + i) = s.regs.arg0.extractLsb' (31 - i) 1)
          ∧ ∀ j, j < s.regs.off.toNat ∨ s.regs.off.toNat + 32 ≤ j → t.bitAt j = s.bitAt j)

/-- R213: BITSU32. -/
def Obligations.Bitsu32ReadsThirtyTwoBits : Prop :=
  ∀ s : State,
    (s.params.fmax < s.regs.off.toNat + 32 → exec .bitsu32 s = failedWith s .range)
      ∧ (s.regs.off.toNat + 32 ≤ s.params.fmax →
        ∃ t, exec .bitsu32 s = .next t
          ∧ t = { s with regs.result := t.regs.result, inflight := none, status := doneStatus s }
          ∧ t.regs.result.toNat = msbFirst 32 fun i => s.bitAt (s.regs.off.toNat + i))

/-- R214: POSMOD: the non-negative residue, which R204 says is unique. -/
def Obligations.PosmodIsTheNonNegativeResidue : Prop :=
  ∀ s : State,
    (s.regs.arg1 = 0 → exec .posmod s = failedWith s .config)
      ∧ (s.regs.arg1 ≠ 0 →
        ∃ t, exec .posmod s = .next t
          ∧ t = { s with regs.result := t.regs.result, inflight := none, status := doneStatus s }
          ∧ t.regs.result.toNat < s.regs.arg1.toNat
          ∧ (s.regs.arg1.toNat : Int) ∣ s.regs.arg0.toInt - t.regs.result.toNat)

/-- R205: the four laws of the conversions. -/
def Obligations.BitConversionsRoundTrip : Prop :=
  (∀ bs : List Byte, bitsToBytes (bytesToBits bs) = bs)
    ∧ (∀ x : Word, bitsToU32 (u32ToBits x) 0 = x)
    ∧ (∀ b : List Bit, bytesToBits (bitsToBytes b) = b.take (8 * (b.length / 8)))
    ∧ ∀ (b : List Bit) (off : Nat), off + 32 ≤ b.length → u32ToBits (bitsToU32 b off) = (b.drop off).take 32

/-! ### The permutation generator (42_permutation.md) -/

/-- R230 to R233: the generator; every index drawn is the floor of s*(i+1)/2^32 and at most i; makePermutation is the downward
shuffle over the generator; and it is a bijection for every length and seed. -/
def Obligations.PermutationIsABijection : Prop :=
  (∀ x : Word, (lcgNext x).toNat = (1664525 * x.toNat + 1013904223) % 2 ^ 32)
    ∧ (∀ (x : Word) (i : Nat),
      shuffleIndex x i ≤ i ∧ shuffleIndex x i * 2 ^ 32 ≤ x.toNat * (i + 1)
        ∧ x.toNat * (i + 1) < (shuffleIndex x i + 1) * 2 ^ 32)
    ∧ ∀ (n : Nat) (seed : Word),
      (∀ k, k < n → (makePermutation n seed).getD k 0 = shuffled n seed.toNat (n - 1) k)
        ∧ (makePermutation n seed).size = n ∧ ∀ v, v < n → (makePermutation n seed).toList.count v = 1

/-- R234: PERMGEN. -/
def Obligations.PermgenWritesThePermutation : Prop :=
  ∀ s : State,
    (s.status.seedValid = false → exec .permgen s = failedWith s .config)
      ∧ (s.status.seedValid = true → s.params.pmax < s.regs.pn.toNat → exec .permgen s = failedWith s .range)
      ∧ (s.status.seedValid = true → s.regs.pn.toNat ≤ s.params.pmax →
        ∃ t, exec .permgen s = .next t
          ∧ t = { s with perm := t.perm, inflight := none, status := doneStatus s }
          ∧ (∀ k, k < s.regs.pn.toNat →
            t.permAt k = BitVec.ofNat 32 ((makePermutation s.regs.pn.toNat s.regs.seed).getD k 0))
          ∧ ∀ k, s.regs.pn.toNat ≤ k → t.permAt k = s.permAt k)

/-! ### The Haar transform (43_haar.md) -/

/-- R251, R253, R254, R255: FWD, by the four sub-bands of each 2 x 2 block. -/
def Obligations.FwdComputesTheFourSubBands : Prop :=
  ∀ s : State,
    (s.status.xf = true → exec .fwd s = failedWith s .sequence)
      ∧ (s.status.xf = false → s.legalDims = false → exec .fwd s = failedWith s .dimension)
      ∧ (s.status.xf = false → s.legalDims = true → ¬ forwardFinite s → exec .fwd s = failedWith s .numeric)
      ∧ (s.status.xf = false → s.legalDims = true → forwardFinite s →
        ∃ t, exec .fwd s = .next t
          ∧ t = { s with mat := t.mat, inflight := none, status := { doneStatus s with xf := true } }
          ∧ (∀ e, s.rowCount * s.colCount ≤ e → t.matAt e = s.matAt e)
          ∧ ∀ i j, i < s.rowCount / 2 → j < s.colCount / 2 →
            let a := elem s (2 * i) (2 * j)
            let b := elem s (2 * i) (2 * j + 1)
            let c := elem s (2 * i + 1) (2 * j)
            let d := elem s (2 * i + 1) (2 * j + 1)
            elem t i j = f64Half (f64Add (f64Half (f64Add a b)) (f64Half (f64Add c d)))
              ∧ elem t i (s.colCount / 2 + j) = f64Half (f64Add (f64Half (f64Sub a b)) (f64Half (f64Sub c d)))
              ∧ elem t (s.rowCount / 2 + i) j = f64Half (f64Sub (f64Half (f64Add a b)) (f64Half (f64Add c d)))
              ∧ elem t (s.rowCount / 2 + i) (s.colCount / 2 + j)
                = f64Half (f64Sub (f64Half (f64Sub a b)) (f64Half (f64Sub c d))))

/-- R252, R254, R256: INV, by the four samples of each 2 x 2 block. -/
def Obligations.InvRebuildsTheSamples : Prop :=
  ∀ s : State,
    (s.status.xf = false → exec .inv s = failedWith s .sequence)
      ∧ (s.status.xf = true → s.legalDims = false → exec .inv s = failedWith s .dimension)
      ∧ (s.status.xf = true → s.legalDims = true → ¬ inverseFinite s → exec .inv s = failedWith s .numeric)
      ∧ (s.status.xf = true → s.legalDims = true → inverseFinite s →
        ∃ t, exec .inv s = .next t
          ∧ t = { s with mat := t.mat, inflight := none, status := { doneStatus s with xf := false } }
          ∧ (∀ e, s.rowCount * s.colCount ≤ e → t.matAt e = s.matAt e)
          ∧ ∀ i j, i < s.rowCount / 2 → j < s.colCount / 2 →
            let ll := elem s i j
            let lh := elem s i (s.colCount / 2 + j)
            let hl := elem s (s.rowCount / 2 + i) j
            let hh := elem s (s.rowCount / 2 + i) (s.colCount / 2 + j)
            elem t (2 * i) (2 * j) = f64Add (f64Add ll hl) (f64Add lh hh)
              ∧ elem t (2 * i) (2 * j + 1) = f64Sub (f64Add ll hl) (f64Add lh hh)
              ∧ elem t (2 * i + 1) (2 * j) = f64Add (f64Sub ll hl) (f64Sub lh hh)
              ∧ elem t (2 * i + 1) (2 * j + 1) = f64Sub (f64Sub ll hl) (f64Sub lh hh))

/-- R257: a matrix of integers of magnitude at most 2^49 survives FWD and then INV, element by element in value. -/
def Obligations.IntegerMatrixSurvivesFwdThenInv : Prop :=
  ∀ s : State, clean s → s.status.xf = false → s.legalDims = true →
    (∀ e, e < s.rowCount * s.colCount →
      f64Finite (s.matAt e) = true
        ∧ ∃ n : Int, n.natAbs ≤ 2 ^ 49 ∧ f64Int (s.matAt e) = n * 2 ^ 1074) →
    ∃ t u, exec .fwd s = .next t ∧ exec .inv t = .next u ∧ succeeded t ∧ succeeded u
      ∧ ∀ e, e < s.rowCount * s.colCount →
        f64Finite (u.matAt e) = true ∧ f64Int (u.matAt e) = f64Int (s.matAt e)

/-! ### binary64 (00_scope.md R11) -/

/-- R11: `fl` rounds to a nearest representable value, a tie to the even significand, and gives the infinity of its sign exactly
when the magnitude reaches the largest finite one plus half a unit in its last place, 2^1024 - 2^970; add, sub, half, fmul and
fdiv are `fl` of the exact result, with the signs of zero of R11; toF is exact. Numbers are in units of 2^-1074. The format,
and the sign of a zero product or quotient, are general knowledge (log entry 8). -/
def Obligations.RoundingIsToNearestEven : Prop :=
  (∀ (neg : Bool) (num den : Nat) (y : F64), 0 < den → f64Finite y = true → f64Finite (f64Round neg num den) = true →
    |(num : Int) - den * f64Mag (f64Round neg num den)| ≤ |(num : Int) - den * f64Mag y|
      ∧ (|(num : Int) - den * f64Mag (f64Round neg num den)| = |(num : Int) - den * f64Mag y| →
        f64Mag y ≠ f64Mag (f64Round neg num den) → f64Frac (f64Round neg num den) % 2 = 0))
  ∧ (∀ (neg : Bool) (num den : Nat), 0 < den →
    f64Neg (f64Round neg num den) = neg
      ∧ (f64Finite (f64Round neg num den) = false ↔ (2 ^ 1024 - 2 ^ 970) * 2 ^ 1074 * den ≤ num)
      ∧ (f64Finite (f64Round neg num den) = false →
        f64Round neg num den = if neg then 0xFFF0000000000000 else 0x7FF0000000000000))
  ∧ (∀ a b : F64, f64Finite a = true → f64Finite b = true →
    isRoundedSum (f64Add a b) (f64Int a) (f64Int b) (f64Neg a = true ∧ f64Neg b = true)
      ∧ isRoundedSum (f64Sub a b) (f64Int a) (-f64Int b) (f64Neg a = true ∧ f64Neg b = false)
      ∧ f64Sub a a = 0 ∧ f64Add a (a ^^^ 0x8000000000000000) = 0
      ∧ f64Half a = f64Round (f64Neg a) (f64Mag a) 2
      ∧ f64Mul a b = f64Round (f64Neg a != f64Neg b) (f64Mag a * f64Mag b) (2 ^ 1074)
      ∧ (f64Mag b ≠ 0 → f64Div a b = f64Round (f64Neg a != f64Neg b) (f64Mag a * 2 ^ 1074) (f64Mag b)))
  ∧ ∀ k : Int, k.natAbs ≤ 2 ^ 53 → f64Finite (f64OfInt k) = true ∧ f64Int (f64OfInt k) = k * 2 ^ 1074

/-! ### The QIM engine (44_qim.md) -/

/-- A QIM operation is outside its limits (44_qim.md R282). -/
def Sys2Proof.Claims.outsideLimits (c q : F64) : Prop :=
  f64Finite c = false ∨ f64Finite (f64Div c q) = false ∨ (2 ^ 48 : Int) * 2 ^ 1074 ≤ |f64Int (f64Div c q)|

/-- R283: the lattice index is the integer of parity b nearest to t, the larger one when two are equally near, at most 1 from
t; qimWrite returns that integer times q, and fails exactly when c or t is not finite, |t| or the index reaches 2^48, or the
product is not finite. -/
def Obligations.QimWriteTakesTheNearestOfItsParity : Prop :=
  ∀ (c q : F64) (b : Bit), f64Positive q = true →
    let t := f64Div c q
    let k := latticeIndex t b
    let product := f64Mul (f64OfInt k) q
    k % 2 = (b.toNat : Int)
      ∧ |f64Int t - k * 2 ^ 1074| ≤ 2 ^ 1074
      ∧ (∀ j : Int, j % 2 = (b.toNat : Int) → j ≠ k →
        |f64Int t - k * 2 ^ 1074| ≤ |f64Int t - j * 2 ^ 1074|
          ∧ (|f64Int t - k * 2 ^ 1074| = |f64Int t - j * 2 ^ 1074| → j < k))
      ∧ (qimWrite c b q = none ↔ outsideLimits c q ∨ 2 ^ 48 ≤ k.natAbs ∨ f64Finite product = false)
      ∧ ∀ c', qimWrite c b q = some c' → c' = product

/-- R285: a written coefficient reads back as the bit written. -/
def Obligations.QimReadAfterWrite : Prop :=
  ∀ (c q c' : F64) (b : Bit), f64Positive q = true → qimWrite c b q = some c' → qimRead c' q = some b

/-- R284, R286: qimRead fails exactly outside its limits, and a coefficient whose scaled value lies within one half of an
integer k reads as k's parity; half-way above n reads as n + 1. -/
def Obligations.QimReadIsRobust : Prop :=
  ∀ (c q : F64), f64Positive q = true →
    (qimRead c q = none ↔ outsideLimits c q)
      ∧ ∀ k : Int, f64Finite c = true → f64Finite (f64Div c q) = true → k.natAbs < 2 ^ 48 →
        -(2 ^ 1074) ≤ 2 * (f64Int (f64Div c q) - k * 2 ^ 1074) →
        2 * (f64Int (f64Div c q) - k * 2 ^ 1074) < 2 ^ 1074 →
        qimRead c q = some (BitVec.ofInt 1 k)

/-- R287, R290: the majority vote. -/
def Obligations.MajorityVoteLaws : Prop :=
  (∀ b : List Bit, b ≠ [] → (majority b = 1 ↔ b.length ≤ 2 * b.count 1) ∧ (majority b = 0 ↔ 2 * b.count 1 < b.length))
    ∧ (∀ (n : Nat) (b : Bit), 0 < n → majority (List.replicate n b) = b)
    ∧ (∀ (b : List Bit) (x : Bit), b.length % 2 = 1 → 2 * (b.length - b.count x) < b.length + 1 → majority b = x)
    ∧ ∀ b : List Bit, b.length % 2 = 0 → b.length / 2 ≤ b.count 1 → majority b = 1

/-- R288: QWRITE. -/
def Obligations.QwriteWritesTheCoefficient : Prop :=
  ∀ s : State,
    (s.qLegal = false → exec .qwrite s = failedWith s .config)
      ∧ (s.qLegal = true → qimWrite s.coef (s.regs.arg0.extractLsb' 0 1) s.q = none →
        exec .qwrite s = failedWith s .numeric)
      ∧ (∀ c', s.qLegal = true → qimWrite s.coef (s.regs.arg0.extractLsb' 0 1) s.q = some c' →
        exec .qwrite s = .next { s with
          regs.coefLo := c'.extractLsb' 0 32
          regs.coefHi := c'.extractLsb' 32 32
          inflight := none
          status := doneStatus s })

/-- R284, R289: QREAD: the parity of floor(t + 1/2). -/
def Obligations.QreadReadsTheParity : Prop :=
  ∀ s : State,
    (s.qLegal = false → exec .qread s = failedWith s .config)
      ∧ (s.qLegal = true → qimRead s.coef s.q = none → exec .qread s = failedWith s .numeric)
      ∧ (s.qLegal = true → f64Finite s.coef = true → f64Finite (f64Div s.coef s.q) = true →
        |f64Int (f64Div s.coef s.q)| < (2 ^ 48 : Int) * 2 ^ 1074 →
        ∃ t, exec .qread s = .next t
          ∧ t = { s with regs.result := t.regs.result, inflight := none, status := doneStatus s }
          ∧ (t.regs.result.toNat : Int) = (2 * f64Int (f64Div s.coef s.q) + 2 ^ 1074) / 2 ^ 1075 % 2)

/-- R280, R34, R253: the MAT index of a site of the band whose code CTRL bits 1:0 read, and that distinct sites are distinct
elements of the matrix. -/
def Obligations.SitesAreDistinctElements : Prop :=
  ∀ s : State,
    let h := s.regs.cols.toNat / 2
    let v := s.regs.rows.toNat / 2
    (∀ code r0 c0, (code, r0, c0) ∈ [(0#2, 0, 0), (1#2, 0, h), (2#2, v, 0), (3#2, v, h)] →
        (s.readReg .ctrl).extractLsb' 0 2 = code →
        ∀ a, s.siteAddr a = (r0 + a / h) * s.regs.cols.toNat + (c0 + a % h))
      ∧ s.nsites = v * h
      ∧ (s.legalDims = true → ∀ a b, a < s.nsites → b < s.nsites →
        s.siteAddr a < s.rowCount * s.colCount ∧ (s.siteAddr a = s.siteAddr b → a = b))

/-! ### The framed payload multiplexer (45_frame_mux.md) -/

/-- R316, R310: FRAME. -/
def Obligations.FrameBuildsTheFramedBits : Prop :=
  ∀ s : State,
    (s.params.bmax < s.payloadLen → exec .frame s = failedWith s .range)
      ∧ (s.payloadLen ≤ s.params.bmax →
        ∃ t, exec .frame s = .next t
          ∧ t = { s with
              bits := t.bits
              regs.bitlen := BitVec.ofNat 32 (32 + 8 * s.payloadLen)
              inflight := none
              status := doneStatus s }
          ∧ (∀ k, k < 32 + 8 * s.payloadLen → t.bitAt k = framedBit s k)
          ∧ ∀ k, 32 + 8 * s.payloadLen ≤ k → t.bitAt k = s.bitAt k)

/-- R250, R281, R311, R353: what legalDims, qLegal and cfgLegal say, and the checks that the four pipeline commands make before
reading a coefficient, in their order: SEQUENCE, DIMENSION, CONFIG, CAPACITY, RANGE. -/
def Obligations.PipelineChecksInOrder : Prop :=
  (∀ s : State,
    (s.legalDims = true ↔ s.rowCount % 2 = 0 ∧ s.colCount % 2 = 0 ∧ s.rowCount ≠ 0 ∧ s.colCount ≠ 0
        ∧ s.rowCount ≤ s.params.rmax ∧ s.colCount ≤ s.params.cmax)
      ∧ (s.qLegal = true ↔ f64Finite (s.regs.qHi ++ s.regs.qLo) = true ∧ 0 < f64Int (s.regs.qHi ++ s.regs.qLo))
      ∧ (s.cfgLegal = true ↔ s.qLegal = true ∧ 1 ≤ s.repCount ∧ s.status.seedValid = true))
  ∧ ∀ (s : State) (i : Instr) (xf embedding : Bool),
    (i, xf, embedding) ∈ [(Instr.embed, true, true), (.embedf, false, true), (.extract, true, false), (.extractf, false, false)] →
    (s.status.xf ≠ xf → exec i s = failedWith s .sequence)
      ∧ (s.status.xf = xf → s.legalDims = false → exec i s = failedWith s .dimension)
      ∧ (s.status.xf = xf → s.legalDims = true → s.cfgLegal = false → exec i s = failedWith s .config)
      ∧ (s.status.xf = xf → s.legalDims = true → s.cfgLegal = true →
        s.capbits < (if embedding then 32 + 8 * s.payloadLen else 32) → exec i s = failedWith s .capacity)
      ∧ (embedding = true → s.status.xf = xf → s.legalDims = true → s.cfgLegal = true →
        32 + 8 * s.payloadLen ≤ s.capbits → s.params.bmax < s.payloadLen → exec i s = failedWith s .range)

/-- R314, R317: EMBED, site by site: when every used site can be written, what MAT, PERM, BIT and BITLEN hold; when one cannot,
NUMERIC. -/
def Obligations.EmbedWritesEverySite : Prop :=
  ∀ s : State, embedReady s true →
    ((∀ k r, k < 32 + 8 * s.payloadLen → r < s.repCount →
        (qimWrite (s.matAt (site s k r)) (framedBit s k) s.q).isSome = true) →
      ∃ t, exec .embed s = .next t
        ∧ t = { s with
            mat := t.mat
            perm := t.perm
            bits := t.bits
            regs.bitlen := BitVec.ofNat 32 (32 + 8 * s.payloadLen)
            inflight := none
            status := doneStatus s }
        ∧ (∀ k r, k < 32 + 8 * s.payloadLen → r < s.repCount →
          some (t.matAt (site s k r)) = qimWrite (s.matAt (site s k r)) (framedBit s k) s.q)
        ∧ (∀ e, (∀ k r, k < 32 + 8 * s.payloadLen → r < s.repCount → e ≠ site s k r) → t.matAt e = s.matAt e)
        ∧ permWritten s t
        ∧ (∀ k, k < 32 + 8 * s.payloadLen → t.bitAt k = framedBit s k)
        ∧ ∀ k, 32 + 8 * s.payloadLen ≤ k → t.bitAt k = s.bitAt k)
      ∧ ∀ k r, k < 32 + 8 * s.payloadLen → r < s.repCount →
        qimWrite (s.matAt (site s k r)) (framedBit s k) s.q = none → exec .embed s = failedWith s .numeric

/-- R315, R318: EXTRACT, from the bits its sites read: `x k r` is what repetition r of framed bit k reads. -/
def Obligations.ExtractVotesTheFrame : Prop :=
  ∀ (s : State) (x : Nat → Nat → Bit) (len : Nat),
    let vote := fun k => majority ((List.range s.repCount).map (x k))
    extractReady s true → len = msbFirst 32 vote → 32 + 8 * len ≤ s.capbits → len ≤ s.params.bmax →
    (∀ k r, k < 32 + 8 * len → r < s.repCount → qimRead (s.matAt (site s k r)) s.q = some (x k r)) →
    ∃ t, exec .extract s = .next t
      ∧ t = { s with
          perm := t.perm
          bits := t.bits
          bytes := t.bytes
          regs.bitlen := BitVec.ofNat 32 (32 + 8 * len)
          regs.len := BitVec.ofNat 32 len
          inflight := none
          status := doneStatus s }
      ∧ permWritten s t
      ∧ (∀ k, k < 32 + 8 * len → t.bitAt k = vote k)
      ∧ (∀ k, 32 + 8 * len ≤ k → t.bitAt k = s.bitAt k)
      ∧ (∀ j, j < len → (t.byteAt j).toNat = msbFirst 8 fun i => vote (32 + 8 * j + i))
      ∧ ∀ j, len ≤ j → t.byteAt j = s.byteAt j

/-- R315, R318, R353: a header that reads but is implausible gives DECODE_MISMATCH whatever the payload sites hold; a header site
that does not read gives NUMERIC; a payload site that does not read gives NUMERIC after a plausible header. -/
def Obligations.ExtractRefusesABadHeader : Prop :=
  ∀ (s : State) (x : Nat → Nat → Bit), extractReady s true →
    let vote := fun k => majority ((List.range s.repCount).map (x k))
    let len := msbFirst 32 vote
    let read := fun k r => qimRead (s.matAt (site s k r)) s.q
    ((∃ k r, k < 32 ∧ r < s.repCount ∧ read k r = none) → exec .extract s = failedWith s .numeric)
      ∧ ((∀ k r, k < 32 → r < s.repCount → read k r = some (x k r)) →
        (s.capbits < 32 + 8 * len ∨ s.params.bmax < len → exec .extract s = failedWith s .decodeMismatch)
          ∧ (32 + 8 * len ≤ s.capbits → len ≤ s.params.bmax →
            (∃ k r, 32 ≤ k ∧ k < 32 + 8 * len ∧ r < s.repCount ∧ read k r = none) →
            exec .extract s = failedWith s .numeric))

/-- R319: EMBEDF, from its stages: NUMERIC when one of them fails, and otherwise what MAT, PERM, BIT and BITLEN hold. -/
def Obligations.EmbedfTransformsEmbedsAndInverts : Prop :=
  ∀ s : State, embedReady s false →
    (haarFwdOK s.rowCount s.colCount s.matrix = false → exec .embedf s = failedWith s .numeric)
    ∧ (embedBand s (haarFwd s.rowCount s.colCount s.matrix) s.framed = none → exec .embedf s = failedWith s .numeric)
    ∧ ∀ y : Array F64, embedBand s (haarFwd s.rowCount s.colCount s.matrix) s.framed = some y →
    (haarInvOK s.rowCount s.colCount y = false → exec .embedf s = failedWith s .numeric)
    ∧ (haarFwdOK s.rowCount s.colCount s.matrix = true → haarInvOK s.rowCount s.colCount y = true →
    ∃ t, exec .embedf s = .next t
      ∧ t = { s with
          mat := t.mat
          perm := t.perm
          bits := t.bits
          regs.bitlen := BitVec.ofNat 32 (32 + 8 * s.payloadLen)
          inflight := none
          status := doneStatus s }
      ∧ (∀ e, e < s.rowCount * s.colCount → t.matAt e = (haarInv s.rowCount s.colCount y).getD e 0)
      ∧ (∀ e, s.rowCount * s.colCount ≤ e → t.matAt e = s.matAt e)
      ∧ permWritten s t
      ∧ (∀ k, k < 32 + 8 * s.payloadLen → t.bitAt k = framedBit s k)
      ∧ ∀ k, 32 + 8 * s.payloadLen ≤ k → t.bitAt k = s.bitAt k)

/-- R320: EXTRACTF, from its stages: NUMERIC when the transform fails, the error of extractBand when that fails, and otherwise
what PERM, BIT, BYTE, BITLEN and LEN hold; MAT and XF are unchanged. -/
def Obligations.ExtractfTransformsAndExtracts : Prop :=
  ∀ s : State, extractReady s false →
    (haarFwdOK s.rowCount s.colCount s.matrix = false → exec .extractf s = failedWith s .numeric)
    ∧ (∀ c, haarFwdOK s.rowCount s.colCount s.matrix = true →
      extractBand s (haarFwd s.rowCount s.colCount s.matrix) = .error c → exec .extractf s = failedWith s c)
    ∧ ∀ r : Extracted, haarFwdOK s.rowCount s.colCount s.matrix = true →
    extractBand s (haarFwd s.rowCount s.colCount s.matrix) = .ok r →
    ∃ t, exec .extractf s = .next t
      ∧ t = { s with
          perm := t.perm
          bits := t.bits
          bytes := t.bytes
          regs.bitlen := BitVec.ofNat 32 (32 + 8 * r.len)
          regs.len := BitVec.ofNat 32 r.len
          inflight := none
          status := doneStatus s }
      ∧ r.len ≤ s.params.bmax ∧ 32 + 8 * r.len ≤ s.capbits
      ∧ permWritten s t
      ∧ (∀ k, k < 32 + 8 * r.len → t.bitAt k = r.bits.getD k 0)
      ∧ (∀ k, 32 + 8 * r.len ≤ k → t.bitAt k = s.bitAt k)
      ∧ (∀ j, j < r.len → t.byteAt j = r.bytes.getD j 0)
      ∧ ∀ j, r.len ≤ j → t.byteAt j = s.byteAt j

/-- R319: EMBEDF equals FWD, EMBED and INV one after another: the same matrix, permutation, bits and registers. -/
def Obligations.EmbedfEqualsFwdEmbedInv : Prop :=
  ∀ s a b c : State, clean s → s.status.xf = false →
    exec .fwd s = .next a → succeeded a → exec .embed a = .next b → succeeded b → exec .inv b = .next c → succeeded c →
    ∃ t, exec .embedf s = .next t ∧ succeeded t ∧ t.status.xf = false ∧ t.regs = c.regs
      ∧ (∀ e, t.matAt e = c.matAt e) ∧ (∀ k, t.permAt k = c.permAt k) ∧ (∀ k, t.bitAt k = c.bitAt k)
      ∧ ∀ j, t.byteAt j = c.byteAt j

/-- R320: EXTRACTF gives what EXTRACT gives after FWD, and leaves MAT and XF as they were. -/
def Obligations.ExtractfEqualsFwdThenExtract : Prop :=
  ∀ s a b : State, clean s → s.status.xf = false →
    exec .fwd s = .next a → succeeded a → exec .extract a = .next b →
    ∃ t, exec .extractf s = .next t ∧ t.mat = s.mat ∧ t.status.xf = false ∧ t.regs = b.regs
      ∧ t.status.errcode = b.status.errcode ∧ t.bits = b.bits ∧ t.bytes = b.bytes ∧ t.perm = b.perm

/-- R321: what EMBED embedded, EXTRACT extracts, from every state that agrees with the one EMBED left on MAT and on the
registers R321 names, whatever LEN, BITLEN, BYTE, BIT and PERM hold. -/
def Obligations.EmbedThenExtractReturnsThePayload : Prop :=
  ∀ s t t' : State, clean s → exec .embed s = .next t → succeeded t → sameMarking t t' → clean t' →
    ∃ u, exec .extract t' = .next u ∧ succeeded u ∧ u.mat = t'.mat ∧ u.regs.len = s.regs.len
      ∧ u.regs.bitlen = BitVec.ofNat 32 (32 + 8 * s.payloadLen)
      ∧ (∀ j, j < s.payloadLen → u.byteAt j = s.byteAt j)
      ∧ ∀ k, k < 32 + 8 * s.payloadLen → u.bitAt k = framedBit s k

/-- R322, its condition: EXTRACTF returns the payload that EMBEDF embedded, from every state that agrees with the one EMBEDF
left on MAT and on the registers, whatever LEN, BITLEN, BYTE, BIT and PERM hold, when, at every used site, the scaled value of
the forward transform of the marked samples lies within one half of the lattice index that EMBEDF wrote there. -/
def Obligations.EmbedfThenExtractfReturnsThePayload : Prop :=
  ∀ s t t' : State, clean s → exec .embedf s = .next t → succeeded t → sameMarking t t' → clean t' →
    haarFwdOK s.rowCount s.colCount t.matrix = true →
    (∀ k r, k < 32 + 8 * s.payloadLen → r < s.repCount →
      let written := f64Div ((haarFwd s.rowCount s.colCount s.matrix).getD (site s k r) 0) s.q
      let again := f64Div ((haarFwd s.rowCount s.colCount t.matrix).getD (site s k r) 0) s.q
      f64Finite again = true
        ∧ 2 * |f64Int again - latticeIndex written (framedBit s k) * 2 ^ 1074| < 2 ^ 1074) →
    ∃ u, exec .extractf t' = .next u ∧ succeeded u ∧ u.mat = t'.mat ∧ u.regs.len = s.regs.len
      ∧ u.regs.bitlen = BitVec.ofNat 32 (32 + 8 * s.payloadLen)
      ∧ (∀ j, j < s.payloadLen → u.byteAt j = s.byteAt j)
      ∧ ∀ k, k < 32 + 8 * s.payloadLen → u.bitAt k = framedBit s k

/-! ### Registers and windows (10_state.md, 20_memory.md) -/

/-- R49, R312: NSITES and CAPBITS read their formulas, and a frame of f bits fits CAPBITS exactly when f * REPS fits NSITES. -/
def Obligations.DerivedRegistersReadTheirFormulas : Prop :=
  ∀ s : State,
    (s.readReg .nsites).toNat = (s.regs.rows.toNat / 2) * (s.regs.cols.toNat / 2)
      ∧ (s.readReg .nsites).toNat ≤ 32767 ^ 2
      ∧ (s.regs.reps = 0 → s.readReg .capbits = 0)
      ∧ (1 ≤ s.regs.reps.toNat →
        (s.readReg .capbits).toNat = (s.readReg .nsites).toNat / s.regs.reps.toNat
          ∧ ∀ f, f ≤ (s.readReg .capbits).toNat ↔ f * s.regs.reps.toNat ≤ (s.readReg .nsites).toNat)

/-- R31, R37 to R47, R105, R408: the offset of every register; an idle write to the operand register at each offset, by the
state it leaves: all 32 bits stored (16 for ROWS and COLS) in the register of that offset, XF cleared by ROWS and COLS whatever
the value, SEED_VALID set by SEED, and nothing else changed; and that the register then reads back what was written. The
reply latch is the model's (log entry 13). -/
def Obligations.OperandWriteReadsBack : Prop :=
  (∀ off r, (off, r) ∈ registerMap ↔ r.offset = off)
  ∧ ∀ (s : State) (v : Word), s.busy = false →
    (∀ off t, (off, t) ∈ storedAt s v → write32 s off v = .next { t with reply := some .written })
      ∧ ∀ r : Reg, r ∈ operandRegs →
        ∃ t, write32 s r.offset v = .next t
          ∧ t.readReg r = (if r = .rows ∨ r = .cols then v &&& 0xFFFF else v)
          ∧ (∀ r', r' ≠ r → r' ≠ .status → r' ≠ .nsites → r' ≠ .capbits → t.readReg r' = s.readReg r')
          ∧ t = { s with
              regs := t.regs
              reply := some .written
              status := { s.status with
                xf := if r = .rows ∨ r = .cols then false else s.status.xf
                seedValid := if r = .seed then true else s.status.seedValid } }

/-- R110: a write to a read-only register or to the PERM window is answered normally and changes nothing, in any state. -/
def Obligations.ReadOnlyWritesAreIgnored : Prop :=
  ∀ (s : State) (v : Word),
    (∀ r, r ∈ readOnlyRegs → write32 s r.offset v = .next { s with reply := some .written })
      ∧ ∀ k, s.params.wf → k < s.params.pmax →
        write32 s (0x0800000 + 4 * k) v = .next { s with reply := some .written }

/-- R104, R111: an idle write to a BYTE, BIT or MAT window word, by what each element holds afterwards. -/
def Obligations.WindowWriteStoresItsElements : Prop :=
  ∀ (s : State) (v : Word), s.busy = false → s.params.wf →
    (∀ w, 4 * w < s.params.bmax →
        ∃ t, write32 s (0x0010000 + 4 * w) v = .next t
          ∧ t = { s with bytes := t.bytes, reply := some .written }
          ∧ (∀ i, i < 4 → 4 * w + i < s.params.bmax → t.byteAt (4 * w + i) = v.extractLsb' (8 * i) 8)
          ∧ ∀ k, k < 4 * w ∨ 4 * w + 4 ≤ k ∨ s.params.bmax ≤ k → t.byteAt k = s.byteAt k)
      ∧ (∀ w, w < s.params.fmax →
        ∃ t, write32 s (0x0400000 + 4 * w) v = .next t
          ∧ t = { s with bits := t.bits, reply := some .written }
          ∧ t.bitAt w = v.extractLsb' 0 1 ∧ ∀ k, k ≠ w → t.bitAt k = s.bitAt k)
      ∧ ∀ e, e < s.params.rmax * s.params.cmax →
        (∃ t, write32 s (0x1000000 + 4 * (2 * e)) v = .next t
          ∧ t = { s with mat := t.mat, reply := some .written }
          ∧ t.matAt e = (s.matAt e).extractLsb' 32 32 ++ v ∧ ∀ e', e' ≠ e → t.matAt e' = s.matAt e')
        ∧ ∃ t, write32 s (0x1000000 + 4 * (2 * e + 1)) v = .next t
          ∧ t = { s with mat := t.mat, reply := some .written }
          ∧ t.matAt e = v ++ (s.matAt e).extractLsb' 0 32 ∧ ∀ e', e' ≠ e → t.matAt e' = s.matAt e'

/-- R104, R105, R122: what an idle read of each register and of each window answers; ID, CFG_RMAX, CFG_CMAX and CFG_BMAX are
constant, and CMD reads 0, in every state (R32, R33, R36). The reply latch is the model's (log entry 13). -/
def Obligations.WindowReadAnswersItsElements : Prop :=
  (∀ s : State, s.readReg .id = 0x42574D31 ∧ s.readReg .cfgRmax = BitVec.ofNat 32 s.params.rmax
      ∧ s.readReg .cfgCmax = BitVec.ofNat 32 s.params.cmax ∧ s.readReg .cfgBmax = BitVec.ofNat 32 s.params.bmax
      ∧ s.readReg .cmd = 0)
  ∧ ∀ s : State, s.busy = false →
    (∀ off v, (off, v) ∈ registerValues s → read32 s off = .next { s with reply := some (.data v) })
      ∧ (∀ r : Reg, read32 s r.offset = .next { s with reply := some (.data (s.readReg r)) })
      ∧ (s.params.wf →
        (∀ w, 4 * w < s.params.bmax →
            ∃ v, read32 s (0x0010000 + 4 * w) = .next { s with reply := some (.data v) }
              ∧ ∀ i, i < 4 →
                v.extractLsb' (8 * i) 8 = if 4 * w + i < s.params.bmax then s.byteAt (4 * w + i) else 0)
          ∧ (∀ w, w < s.params.fmax →
            read32 s (0x0400000 + 4 * w) = .next { s with reply := some (.data ((s.bitAt w).setWidth 32)) })
          ∧ (∀ w, w < s.params.pmax →
            read32 s (0x0800000 + 4 * w) = .next { s with reply := some (.data (s.permAt w)) })
          ∧ ∀ e, e < s.params.rmax * s.params.cmax →
            read32 s (0x1000000 + 4 * (2 * e)) = .next { s with reply := some (.data ((s.matAt e).extractLsb' 0 32)) }
              ∧ read32 s (0x1000000 + 4 * (2 * e + 1))
                = .next { s with reply := some (.data ((s.matAt e).extractLsb' 32 32)) })

/-- R106, R107, R108: an access in the block's region gets a bus error exactly when its width is not 32, its offset is not a
multiple of 4, or nothing is implemented there; the data is then 0 (R109). -/
def Obligations.BusErrorsAreExactlyTheBadAccesses : Prop :=
  ∀ (s : State) (off width : Nat) (op : BusOp), s.params.wf → off < 2 ^ 27 →
    let answer := busAccess { addr := s.params.base + off, width := width, op := op } s
    ((∃ f, answer = .fault f) ↔ width ≠ 32 ∨ off % 4 ≠ 0 ∨ ¬ implemented s.params off)
      ∧ (∀ cause data, answer = .fault (.busError cause data) → data = 0)
      ∧ ∀ r, answer ≠ .refused r

/-- R114, R405: a read changes nothing in the block, in any state: only the reply and the draw counter, which are the model's
(log entries 13 and 10). -/
def Obligations.ReadsHaveNoSideEffect : Prop :=
  ∀ (s t : State) (addr width : Nat), busAccess { addr := addr, width := width, op := .read } s = .next t →
    t = { s with reply := t.reply, drawCount := t.drawCount }
      ∧ (s.busy = false → t.drawCount = s.drawCount)

/-- R100, R127: an access outside the block's region does not affect it. That the machine goes on unchanged is the model's
reading (log entry 7). -/
def Obligations.AccessElsewhereLeavesTheBlockAlone : Prop :=
  ∀ (s : State) (a : BusAccess), a.addr < s.params.base ∨ s.params.base + 2 ^ 27 ≤ a.addr → busAccess a s = .next s

/-! ### STATUS, CTRL and IRQ -/

/-- R35, R350, R406: the error codes, and where each STATUS bit stands in the word that STATUS reads; a STATUS write clears the W1C bits written with
1, and ERRCODE with ERR, at any time, and nothing else. -/
def Obligations.StatusReadsItsFieldsAndClearsOnes : Prop :=
  [none, some ErrCode.dimension, some .capacity, some .config, some .decodeMismatch, some .illegalCmd, some .sequence,
      some .numeric, some .range].map errcodeField = [0, 1, 2, 3, 4, 5, 6, 7, 8]
  ∧ ∀ (s : State) (v : Word),
    (∀ w, w = s.readReg .status →
      w.getLsbD 0 = s.inflight.isSome ∧ w.getLsbD 1 = s.status.done ∧ w.getLsbD 2 = s.status.err
        ∧ w.getLsbD 3 = s.status.cmdlost ∧ w.extractLsb' 4 4 = errcodeField s.status.errcode
        ∧ w.getLsbD 8 = s.status.xf ∧ w.getLsbD 9 = s.status.seedValid ∧ w.extractLsb' 10 22 = 0)
      ∧ ∃ t, write32 s 0x014 v = .next t
        ∧ t = { s with
            reply := some .written
            status := { s.status with
              done := t.status.done
              err := t.status.err
              cmdlost := t.status.cmdlost
              errcode := t.status.errcode } }
        ∧ (t.status.done = true ↔ s.status.done = true ∧ v.getLsbD 1 = false)
        ∧ (t.status.err = true ↔ s.status.err = true ∧ v.getLsbD 2 = false)
        ∧ (t.status.cmdlost = true ↔ s.status.cmdlost = true ∧ v.getLsbD 3 = false)
        ∧ (v.getLsbD 2 = true → t.status.errcode = none)
        ∧ (v.getLsbD 2 = false → t.status.errcode = s.status.errcode)

/-- R34, R404: a CTRL write without SRST sets BAND and IE from bits 1:0 and 8 when idle, and IE alone while a command runs. -/
def Obligations.CtrlWriteSetsBandAndIe : Prop :=
  ∀ (s : State) (v : Word), v.getLsbD 31 = false →
    ∃ t, write32 s 0x010 v = .next t
      ∧ t = { s with ctrl := t.ctrl, reply := some .written }
      ∧ t.ctrl.ie = v.getLsbD 8
      ∧ (s.busy = true → t.ctrl.band = s.ctrl.band)
      ∧ (s.busy = false → t.readReg .ctrl = v &&& 0x103)

/-- R360: the interrupt line, at the events that move it: a completion, an acceptance, a write to STATUS or to CTRL, and a soft
or a hard reset. -/
def Obligations.IrqFollowsIeAndDone : Prop :=
  ∀ s t : State,
    (s.irq = true ↔ s.ctrl.ie = true ∧ s.status.done = true)
      ∧ (∀ i, exec i s = .next t → t.irq = s.ctrl.ie)
      ∧ (∀ w, s.busy = false → write32 s 0x018 w = .next t → t.irq = false)
      ∧ (∀ v, v.getLsbD 1 = true → write32 s 0x014 v = .next t → t.irq = false)
      ∧ (∀ v, v.getLsbD 31 = false → write32 s 0x010 v = .next t → t.irq = (v.getLsbD 8 && s.status.done))
      ∧ (∀ v, v.getLsbD 31 = true → write32 s 0x010 v = .next t → t.irq = false)
      ∧ (∀ rest, s.agenda = .hardReset :: rest → step s = .next t → t.irq = false)

/-! ### The host program (30_encoding.md R150, R151) -/

/-- R151: at the host's turn, whatever the agenda after it, a beq or a bne costs one read, and the host continues at its target
or at the next statement by the value read; a goto makes no access. An rd or an rdw is one read, and its value is the one read.
An rdm is two reads, and its value is `{second, first}` of what they answer as a binary64: MAT[e], when no command runs. The agenda that gives the host its turn, and that the host acts when it is empty and the block idle, are the model's (log
entry 4), and so are the values that the host keeps (log entry 12) and the reply latch (log entry 13). -/
def Obligations.HostUsesTheValuesRead : Prop :=
  ∀ (s : State) (rest : List Turn) (r : Reg) (mask v : Word) (target : Nat), hostNext s rest →
    (s.host.prog[s.host.pc]? = some (.beq r mask v target) →
        ∃ t x, read32 { s with agenda := rest } r.offset = .next t ∧ t.reply = some (.data x)
          ∧ step s = .next { t with
              host.pc := if x &&& mask = v then target else s.host.pc + 1
              host.reads := some x :: s.host.reads })
      ∧ (s.host.prog[s.host.pc]? = some (.bne r mask v target) →
        ∃ t x, read32 { s with agenda := rest } r.offset = .next t ∧ t.reply = some (.data x)
          ∧ step s = .next { t with
              host.pc := if x &&& mask ≠ v then target else s.host.pc + 1
              host.reads := some x :: s.host.reads })
      ∧ (s.host.prog[s.host.pc]? = some (.goto target) →
        step s = .next { s with agenda := rest, host.pc := target })
      ∧ (s.host.prog[s.host.pc]? = some (.rd r) →
        ∃ t x, read32 { s with agenda := rest } r.offset = .next t ∧ t.reply = some (.data x)
          ∧ step s = .next { t with host.pc := s.host.pc + 1, host.reads := some x :: s.host.reads }
          ∧ (HostLine.rd r).value (some x :: s.host.reads) = some (.word x))
      ∧ (∀ g w, s.params.wf → w < g.words s.params → s.host.prog[s.host.pc]? = some (.rdw g w) →
        ∃ t x, read32 { s with agenda := rest } (g.wordOffset w) = .next t ∧ t.reply = some (.data x)
          ∧ step s = .next { t with host.pc := s.host.pc + 1, host.reads := some x :: s.host.reads }
          ∧ (HostLine.rdw g w).value (some x :: s.host.reads) = some (.word x))
      ∧ ∀ (find : String → Option Nat) (last : List Turn) (e : Nat) (first second : HostStmt),
        s.params.wf → e < s.params.rmax * s.params.cmax → hostNext { s with agenda := rest } last →
        (HostLine.rdm e).expand find s.host.pc = some [first, second] →
        s.host.prog[s.host.pc]? = some first → s.host.prog[s.host.pc + 1]? = some second →
          ∃ t u x y, read32 { s with agenda := rest } (0x1000000 + 8 * e) = .next t ∧ t.reply = some (.data x)
            ∧ read32 { t with agenda := last } (0x1000004 + 8 * e) = .next u ∧ u.reply = some (.data y)
            ∧ (∃ m, step s = .next m
              ∧ step m = .next { u with host.pc := s.host.pc + 2, host.reads := some y :: some x :: s.host.reads })
            ∧ (HostLine.rdm e).value (some y :: some x :: s.host.reads) = some (.double (y ++ x))
            ∧ (s.busy = false → y ++ x = s.matAt e)

/-! ### Busy and reset (70_reset_and_hazards.md) -/

/-- R403: while a command runs, a write to an operand register or to a window is dropped with a normal response. -/
def Obligations.OperandWritesWhileBusyAreDropped : Prop :=
  ∀ (s : State) (v : Word), s.busy = true → s.params.wf →
    (∀ r, r ∈ operandRegs → write32 s r.offset v = .next { s with reply := some .written })
      ∧ ∀ off, 0x0010000 ≤ off → off % 4 = 0 → implemented s.params off →
        write32 s off v = .next { s with reply := some .written }

/-- R405: while a command runs, seven registers read exactly; any other register or window word reads a fresh draw.
The form of the draw, and the count of draws, are the model's choice (log entry 10), and so is the reply latch (log entry
13). -/
def Obligations.BusyReadsAreExactOrDraws : Prop :=
  ∀ s : State, s.busy = true → s.params.wf →
    (∀ r, r ∈ exactRegs → read32 s r.offset = .next { s with reply := some (.data (s.readReg r)) })
      ∧ ∀ off, 0x01C ≤ off → off % 4 = 0 → implemented s.params off →
        ∃ idx, read32 s off = .next { s with
          reply := some (.data (Config.draw 32 s.drawCount idx))
          drawCount := s.drawCount + 1 }

/-- R390, R60, R61: the hard reset. That the parameters, the agenda and the host program stay is the model's choice (log entry
20). -/
def Obligations.HardResetResetsEverything : Prop :=
  ∀ (s : State) (rest : List Turn), s.agenda = .hardReset :: rest →
    ∃ t, step s = .next t ∧ readsResetValues t ∧ t.params = s.params ∧ t.agenda = rest ∧ t.host = s.host
      ∧ redrawn s s.mat t.mat (fun _ => True) ∧ redrawn s s.bytes t.bytes (fun _ => True)
      ∧ redrawn s s.bits t.bits (fun _ => True) ∧ redrawn s s.perm t.perm (fun _ => True)

/-- R391, R392: a soft reset, whether or not a command runs: nothing completes, every register is reset, the write's other bits are
discarded, and exactly the elements that the table gives for a command in flight become draws; an idle block and an illegal word
have none. How identifiers are spent on draws, and the reply latch, are the model's (log entries 11 and 13). -/
def Obligations.SoftResetRedrawsOnlyTheAbortedRanges : Prop :=
  ∀ (s : State) (v : Word), v.getLsbD 31 = true →
    let hit := fun g a => ∃ w i, s.inflight = some w ∧ decodeWord w = .ok i ∧ abortTable s i g a
    ∃ t, write32 s 0x010 v = .next t ∧ t.reply = some .written ∧ readsResetValues t ∧ t.params = s.params
      ∧ redrawn s s.mat t.mat (fun a => hit .mat (a / 2)) ∧ redrawn s s.bytes t.bytes (hit .byte)
      ∧ redrawn s s.bits t.bits (hit .bit) ∧ redrawn s s.perm t.perm (hit .perm)

/-- R393: the first command after a reset, with no register written. -/
def Obligations.FirstCommandAfterReset : Prop :=
  (∀ i, i ∈ [Instr.nop, .b2bits, .bits2b, .u32bits, .bitsu32, .frame] →
      ∃ t, step (State.reset.withFetchWord 32 (encode i).toNat) = .next t ∧ t.readReg .status = 0x002)
    ∧ (∀ i, i ∈ [Instr.posmod, .permgen, .qwrite, .qread] →
      ∃ t, step (State.reset.withFetchWord 32 (encode i).toNat) = .next t ∧ t.readReg .status = 0x036)
    ∧ (∀ i, i ∈ [Instr.fwd, .embedf, .extractf] →
      ∃ t, step (State.reset.withFetchWord 32 (encode i).toNat) = .next t ∧ t.readReg .status = 0x016)
    ∧ ∀ i, i ∈ [Instr.inv, .embed, .extract] →
      ∃ t, step (State.reset.withFetchWord 32 (encode i).toNat) = .next t ∧ t.readReg .status = 0x066

/-! ### Invariants -/

/-- The invariant of Safety.lean holds after reset. The configuration of State.reset is the model's choice (log entry 1). -/
def Obligations.ResetMeetsTheInvariant : Prop := State.reset.Inv

/-- Every step from every state that meets the invariant, whoever acts, gives a state that meets it, with the same parameters:
memories canonical and within their sizes, draws old, STATUS consistent (R35, R406), and XF only with legal dimensions (R256). -/
def Obligations.EveryStepKeepsTheInvariant : Prop :=
  ∀ s t : State, s.Inv → step s = .next t → t.Inv ∧ t.params = s.params
end

