-- ==== Sys2Proof/Laws/Binary64.lean ====
section
/-! SUPPORT. The laws of binary64 rounding: what f64Round gives, when it is finite, when it is exact, and how far it can be off. -/

namespace Sys2Proof.Machine

/-! ### Rounding to an integer -/

/-- What rounding half to even gives: within one half, and even at a tie. -/
theorem roundHalfEven_spec (num : Nat) {den : Nat} (h : 0 < den) :
    2 * num ≤ den * (2 * roundHalfEven num den + 1) ∧ den * (2 * roundHalfEven num den) ≤ 2 * num + den
      ∧ (2 * num = den * (2 * roundHalfEven num den + 1) ∨ den * (2 * roundHalfEven num den) = 2 * num + den →
        roundHalfEven num den % 2 = 0) := by
  have hdiv := Nat.div_add_mod num den
  have hmod := Nat.mod_lt num h
  unfold roundHalfEven
  generalize num / den = a at *
  generalize num % den = b at *
  subst hdiv
  simp only
  have e1 : ∀ x : Nat, den * (2 * x + 1) = 2 * (den * x) + den := fun x => by ring
  have e2 : ∀ x : Nat, den * (2 * x) = 2 * (den * x) := fun x => by ring
  have e3 : den * (a + 1) = den * a + den := by ring
  split
  · rw [e1, e2]; refine ⟨by omega, by omega, fun h => ?_⟩; omega
  · split
    · rw [e1, e2, e3]; refine ⟨by omega, by omega, fun h => ?_⟩; omega
    · obtain h2 | h2 : a % 2 = 0 ∨ a % 2 = 1 := by omega
      · simp only [h2, Nat.add_zero]; rw [e1, e2]; exact ⟨by omega, by omega, fun _ => trivial⟩
      · rw [h2, e1, e2, e3]; exact ⟨by omega, by omega, fun _ => by omega⟩

/-- A multiple of the denominator is rounded to itself. -/
@[simp] theorem roundHalfEven_mul (n : Nat) {den : Nat} (h : 0 < den) : roundHalfEven (den * n) den = n := by
  simp [roundHalfEven, Nat.mul_div_cancel_left n h, h]

/-- Rounding is between the integers on either side. -/
theorem roundHalfEven_bounds (num : Nat) (den : Nat) :
    num / den ≤ roundHalfEven num den ∧ roundHalfEven num den ≤ num / den + 1 := by
  unfold roundHalfEven
  simp only
  split
  · omega
  · split <;> omega

/-! ### The fields of a pattern -/

/-- The fields of a sign and 63 lower bits. -/
theorem f64_fields (neg : Bool) {b : Nat} (hb : b < 2 ^ 63) :
    f64Neg (BitVec.ofNat 64 ((if neg then 2 ^ 63 else 0) + b)) = neg
      ∧ f64Exp (BitVec.ofNat 64 ((if neg then 2 ^ 63 else 0) + b)) = b / 2 ^ 52
      ∧ f64Frac (BitVec.ofNat 64 ((if neg then 2 ^ 63 else 0) + b)) = b % 2 ^ 52 := by
  refine ⟨?_, ?_, ?_⟩
  · rw [f64Neg, BitVec.getLsbD_ofNat, Nat.testBit_eq_decide_div_mod_eq]
    cases neg
    · simp only [Bool.false_eq_true, if_false]
      have : (0 + b) / 2 ^ 63 % 2 = 0 := by omega
      rw [this]; rfl
    · simp only [if_true]
      have : (2 ^ 63 + b) / 2 ^ 63 % 2 = 1 := by omega
      rw [this]; rfl
  · simp only [f64Exp, BitVec.extractLsb'_toNat, BitVec.toNat_ofNat, Nat.shiftRight_eq_div_pow]
    cases neg <;> simp only [Bool.false_eq_true, if_false, if_true] <;> omega
  · simp only [f64Frac, BitVec.extractLsb'_toNat, BitVec.toNat_ofNat, Nat.shiftRight_eq_div_pow]
    cases neg <;> simp only [Bool.false_eq_true, if_false, if_true] <;> omega

theorem f64Exp_lt (x : F64) : f64Exp x < 2048 := (x.extractLsb' 52 11).isLt

theorem f64Frac_lt (x : F64) : f64Frac x < 2 ^ 52 := (x.extractLsb' 0 52).isLt

theorem f64RoundBits_le (num den : Nat) : f64RoundBits num den ≤ f64InfBits := Nat.min_le_right _ _

@[simp] theorem f64Neg_round (neg : Bool) (num den : Nat) : f64Neg (f64Round neg num den) = neg :=
  (f64_fields neg (by have := f64RoundBits_le num den; unfold f64InfBits at this; omega)).1

theorem f64Exp_round (neg : Bool) (num den : Nat) : f64Exp (f64Round neg num den) = f64RoundBits num den / 2 ^ 52 :=
  (f64_fields neg (by have := f64RoundBits_le num den; unfold f64InfBits at this; omega)).2.1

theorem f64Frac_round (neg : Bool) (num den : Nat) : f64Frac (f64Round neg num den) = f64RoundBits num den % 2 ^ 52 :=
  (f64_fields neg (by have := f64RoundBits_le num den; unfold f64InfBits at this; omega)).2.2

/-! ### The shift and the significand -/

/-- The significand that f64Round keeps. -/
def f64Sig (num den : Nat) : Nat := roundHalfEven num (den * 2 ^ f64Shift (num / den))

/-- The shift leaves at most 53 bits, and exactly 53 when it is not 0. -/
theorem f64Shift_spec (units : Nat) :
    units / 2 ^ f64Shift units < 2 ^ 53 ∧ (f64Shift units ≠ 0 → 2 ^ 52 ≤ units / 2 ^ f64Shift units) := by
  unfold f64Shift
  obtain rfl | hne := Nat.eq_zero_or_pos units
  · simp
  · have hlo : 2 ^ units.log2 ≤ units := Nat.log2_self_le (by omega)
    have hhi : units < 2 ^ (units.log2 + 1) := Nat.lt_log2_self
    constructor
    · rw [Nat.div_lt_iff_lt_mul (by positivity), ← pow_add]
      exact Nat.lt_of_lt_of_le hhi (Nat.pow_le_pow_right (by omega) (by omega))
    · intro h
      rw [Nat.le_div_iff_mul_le (by positivity), ← pow_add]
      exact Nat.le_trans (Nat.pow_le_pow_right (by omega) (by omega)) hlo

/-- The significand has at most 53 bits, a carry apart, and at least 53 when the shift is not 0. -/
theorem f64Sig_bounds (num den : Nat) :
    f64Sig num den ≤ 2 ^ 53 ∧ (f64Shift (num / den) ≠ 0 → 2 ^ 52 ≤ f64Sig num den) := by
  obtain ⟨h1, h2⟩ := f64Shift_spec (num / den)
  obtain ⟨h3, h4⟩ := roundHalfEven_bounds num (den * 2 ^ f64Shift (num / den))
  rw [← Nat.div_div_eq_div_mul] at h3 h4
  unfold f64Sig
  exact ⟨by omega, fun h => by have := h2 h; omega⟩

/-- When f64Round is finite: the exponent field of its pattern has not reached the top. -/
theorem f64Finite_round (neg : Bool) (num den : Nat) :
    f64Finite (f64Round neg num den) = true
      ↔ f64Shift (num / den) * 2 ^ 52 + f64Sig num den < f64InfBits := by
  have h := f64Exp_round neg num den
  have hmin : f64RoundBits num den = min (f64Shift (num / den) * 2 ^ 52 + f64Sig num den) f64InfBits := rfl
  unfold f64Finite
  rw [h, hmin]
  unfold f64InfBits
  simp only [bne_iff_ne, ne_eq]
  omega

/-- The magnitude of a finite result: the significand, shifted back. -/
theorem f64Mag_round (neg : Bool) (num den : Nat) (h : f64Finite (f64Round neg num den) = true) :
    f64Mag (f64Round neg num den) = f64Sig num den * 2 ^ f64Shift (num / den) := by
  rw [f64Finite_round] at h
  obtain ⟨h1, h2⟩ := f64Sig_bounds num den
  have hbits : f64RoundBits num den = f64Shift (num / den) * 2 ^ 52 + f64Sig num den := Nat.min_eq_left (by
    show f64Shift (num / den) * 2 ^ 52 + f64Sig num den ≤ f64InfBits; omega)
  rw [f64Mag, f64Exp_round, f64Frac_round, hbits]
  generalize f64Shift (num / den) = k at *
  generalize f64Sig num den = m at *
  by_cases hk : k = 0
  · subst hk
    obtain hm | hm | hm : m < 2 ^ 52 ∨ (2 ^ 52 ≤ m ∧ m < 2 ^ 53) ∨ m = 2 ^ 53 := by omega
    · rw [if_pos (by omega)]; omega
    · have e : (0 * 2 ^ 52 + m) / 2 ^ 52 = 1 := by omega
      rw [e, if_neg (by omega)]; omega
    · have e : (0 * 2 ^ 52 + m) / 2 ^ 52 = 2 := by omega
      have e' : (0 * 2 ^ 52 + m) % 2 ^ 52 = 0 := by omega
      rw [e, e', if_neg (by omega)]; omega
  · have hm := h2 hk
    obtain hm' | hm' : m < 2 ^ 53 ∨ m = 2 ^ 53 := by omega
    · have e : (k * 2 ^ 52 + m) / 2 ^ 52 = k + 1 := by omega
      have e' : (k * 2 ^ 52 + m) % 2 ^ 52 = m - 2 ^ 52 := by omega
      rw [e, e', if_neg (by omega), Nat.add_sub_cancel, Nat.add_sub_cancel' hm]
    · have e : (k * 2 ^ 52 + m) / 2 ^ 52 = k + 2 := by omega
      have e' : (k * 2 ^ 52 + m) % 2 ^ 52 = 0 := by omega
      have e'' : 2 ^ (k + 2 - 1) = 2 * 2 ^ k := pow_succ' 2 k
      have hne : ¬ k + 2 = 0 := Nat.succ_ne_zero _
      rw [e, e', if_neg hne, e'', hm']
      generalize 2 ^ k = p
      omega

/-! ### Exact results and the size of an error -/

/-- How far a finite result can be off: half of the last place it keeps. -/
theorem f64Round_error (neg : Bool) (num : Nat) {den : Nat} (hden : 0 < den)
    (h : f64Finite (f64Round neg num den) = true) :
    2 * num ≤ den * (2 * f64Mag (f64Round neg num den) + 2 ^ f64Shift (num / den))
      ∧ den * (2 * f64Mag (f64Round neg num den)) ≤ 2 * num + den * 2 ^ f64Shift (num / den) := by
  rw [f64Mag_round neg num den h]
  obtain ⟨h1, h2, -⟩ := roundHalfEven_spec num (den := den * 2 ^ f64Shift (num / den)) (by positivity)
  change 2 * num ≤ _ * (2 * f64Sig num den + 1) at h1
  change _ * (2 * f64Sig num den) ≤ _ at h2
  constructor
  · calc 2 * num ≤ _ := h1
      _ = _ := by ring
  · calc den * (2 * (f64Sig num den * 2 ^ f64Shift (num / den))) = _ := by ring
      _ ≤ _ := h2

/-- The last place kept is at most 2^-52 of the number, once the shift is not 0. -/
theorem f64Shift_small {num den : Nat} (h : f64Shift (num / den) ≠ 0) : den * 2 ^ f64Shift (num / den) * 2 ^ 52 ≤ num := by
  have h1 := (f64Shift_spec (num / den)).2 h
  rw [Nat.div_div_eq_div_mul] at h1
  have hpos : 0 < den * 2 ^ f64Shift (num / den) := by
    by_contra hz
    rw [Nat.eq_zero_of_not_pos hz] at h1
    simp at h1
  rw [Nat.le_div_iff_mul_le hpos] at h1
  rwa [Nat.mul_comm] at h1

/-- A number with a significand of at most 53 bits is rounded to itself. -/
theorem f64Round_exact (neg : Bool) {num den m e : Nat} (hden : 0 < den) (hnum : num = den * (m * 2 ^ e))
    (hm : m ≤ 2 ^ 53) (he : e ≤ 2044) :
    f64Finite (f64Round neg num den) = true ∧ f64Mag (f64Round neg num den) = m * 2 ^ e := by
  have hq : num / den = m * 2 ^ e := by rw [hnum, Nat.mul_div_cancel_left _ hden]
  have hk : f64Shift (num / den) ≤ e ∨ (f64Shift (num / den) = e + 1 ∧ m = 2 ^ 53) := by
    rw [hq]
    obtain rfl | hm' : m = 2 ^ 53 ∨ m < 2 ^ 53 := by omega
    · right
      rw [← pow_add]
      unfold f64Shift
      rw [Nat.log2_two_pow]
      omega
    · left
      unfold f64Shift
      obtain rfl | hpos := Nat.eq_zero_or_pos m
      · simp
      · have : m * 2 ^ e < 2 ^ (53 + e) := by
          rw [pow_add]; exact Nat.mul_lt_mul_of_pos_right hm' (by positivity)
        have := (Nat.log2_lt (by positivity)).2 this
        omega
  obtain ⟨j, hj⟩ : ∃ j, m * 2 ^ e = j * 2 ^ f64Shift (num / den) := by
    obtain h | ⟨h, rfl⟩ := hk
    · exact ⟨m * 2 ^ (e - f64Shift (num / den)), by rw [Nat.mul_assoc, ← pow_add]; congr 2; omega⟩
    · exact ⟨2 ^ 52, by rw [h, ← pow_add, ← pow_add]; congr 1; omega⟩
  have hsig : f64Sig num den = j := by
    unfold f64Sig
    have e1 : num = den * 2 ^ f64Shift (num / den) * j := by
      calc num = den * (m * 2 ^ e) := hnum
        _ = den * (j * 2 ^ f64Shift (num / den)) := by rw [hj]
        _ = _ := by ring
    calc roundHalfEven num (den * 2 ^ f64Shift (num / den))
        = roundHalfEven (den * 2 ^ f64Shift (num / den) * j) (den * 2 ^ f64Shift (num / den)) := by rw [← e1]
      _ = j := roundHalfEven_mul j (by positivity)
  have hfin : f64Finite (f64Round neg num den) = true := by
    rw [f64Finite_round]
    have hb := (f64Sig_bounds num den).1
    unfold f64InfBits
    obtain h | ⟨h, rfl⟩ := hk
    · omega
    · have : f64Sig num den = 2 ^ 52 := by
        rw [hsig]
        rw [h, pow_succ 2 e] at hj
        have hpos : 0 < 2 ^ e := by positivity
        have : 2 ^ 53 * 2 ^ e = (2 * j) * 2 ^ e := by rw [hj]; ring
        have := Nat.eq_of_mul_eq_mul_right hpos this
        omega
      omega
  exact ⟨hfin, by rw [f64Mag_round _ _ _ hfin, hsig, hj]⟩

/-! ### Signed values -/

theorem f64Int_eq (x : F64) : f64Int x = if f64Neg x then -(f64Mag x : Int) else f64Mag x := rfl

@[simp] theorem f64Int_natAbs (x : F64) : (f64Int x).natAbs = f64Mag x := by
  rw [f64Int_eq]
  split <;> omega

theorem f64Negate_fields (x : F64) :
    f64Neg (f64Negate x) = !f64Neg x ∧ f64Exp (f64Negate x) = f64Exp x ∧ f64Frac (f64Negate x) = f64Frac x := by
  refine ⟨by simp [f64Neg, f64Negate], ?_, ?_⟩
  · unfold f64Exp f64Negate
    congr 1
    apply BitVec.eq_of_getLsbD_eq
    intro i hi
    have : ∀ j < 11, (0x8000000000000000 : F64).getLsbD (52 + j) = false := by decide
    simp only [BitVec.getLsbD_extractLsb', BitVec.getLsbD_xor, this i hi, Bool.xor_false]
  · unfold f64Frac f64Negate
    congr 1
    apply BitVec.eq_of_getLsbD_eq
    intro i hi
    have : ∀ j < 52, (0x8000000000000000 : F64).getLsbD (0 + j) = false := by decide
    simp only [BitVec.getLsbD_extractLsb', BitVec.getLsbD_xor, this i hi, Bool.xor_false]

@[simp] theorem f64Finite_negate (x : F64) : f64Finite (f64Negate x) = f64Finite x := by
  simp [f64Finite, (f64Negate_fields x).2.1]

@[simp] theorem f64Int_negate (x : F64) : f64Int (f64Negate x) = -f64Int x := by
  obtain ⟨h1, h2, h3⟩ := f64Negate_fields x
  simp only [f64Int, f64Mag, h1, h2, h3]
  cases f64Neg x <;> simp

/-- A sum is exact when the exact sum has a significand of at most 53 bits. -/
theorem f64Add_exact {a b : F64} (ha : f64Finite a = true) (hb : f64Finite b = true) {z : Int} {e : Nat}
    (h : f64Int a + f64Int b = z * 2 ^ e) (hz : z.natAbs ≤ 2 ^ 53) (he : e ≤ 2044) :
    f64Finite (f64Add a b) = true ∧ f64Int (f64Add a b) = f64Int a + f64Int b := by
  simp only [f64Add, ha, hb, Bool.and_self, if_true]
  have habs : (f64Int a + f64Int b).natAbs = 1 * (z.natAbs * 2 ^ e) := by
    rw [h, Int.natAbs_mul, Int.natAbs_pow]; simp
  obtain ⟨hf, hm⟩ := f64Round_exact (if f64Int a + f64Int b = 0 then f64Neg a && f64Neg b else decide (f64Int a + f64Int b < 0))
    Nat.one_pos habs hz he
  refine ⟨hf, ?_⟩
  rw [f64Int_eq, hm, f64Neg_round]
  rw [Nat.one_mul] at habs
  rw [← habs]
  generalize f64Int a + f64Int b = n
  by_cases hn : n = 0
  · subst hn; simp
  · rw [if_neg hn]
    simp only [decide_eq_true_eq]
    split <;> omega

/-- A difference is exact when the exact difference has a significand of at most 53 bits. -/
theorem f64Sub_exact {a b : F64} (ha : f64Finite a = true) (hb : f64Finite b = true) {z : Int} {e : Nat}
    (h : f64Int a - f64Int b = z * 2 ^ e) (hz : z.natAbs ≤ 2 ^ 53) (he : e ≤ 2044) :
    f64Finite (f64Sub a b) = true ∧ f64Int (f64Sub a b) = f64Int a - f64Int b := by
  have := f64Add_exact (b := f64Negate b) ha (by simpa using hb) (z := z) (e := e) (by simpa [sub_eq_add_neg] using h) hz he
  simpa [sub_eq_add_neg, f64Sub] using this

/-- A half is exact when the exact half has a significand of at most 53 bits. -/
theorem f64Half_exact {a : F64} (ha : f64Finite a = true) {z : Int} {e : Nat}
    (h : f64Int a = 2 * (z * 2 ^ e)) (hz : z.natAbs ≤ 2 ^ 53) (he : e ≤ 2044) :
    f64Finite (f64Half a) = true ∧ 2 * f64Int (f64Half a) = f64Int a := by
  simp only [f64Half, ha, if_true]
  have habs : f64Mag a = 2 * (z.natAbs * 2 ^ e) := by
    rw [← f64Int_natAbs, h, Int.natAbs_mul, Int.natAbs_mul, Int.natAbs_pow]; simp
  obtain ⟨hf, hm⟩ := f64Round_exact (f64Neg a) (by omega) habs hz he
  refine ⟨hf, ?_⟩
  rw [f64Int_eq, hm, f64Neg_round, f64Int_eq, habs]
  split <;> push_cast <;> ring

/-- `toF` is exact (00_scope.md R11). -/
theorem f64OfInt_exact {k : Int} (h : k.natAbs ≤ 2 ^ 53) :
    f64Finite (f64OfInt k) = true ∧ f64Int (f64OfInt k) = k * 2 ^ 1074 := by
  obtain ⟨hf, hm⟩ := f64Round_exact (decide (k < 0)) (num := k.natAbs * 2 ^ 1074) (den := 1) (m := k.natAbs) (e := 1074)
    Nat.one_pos (by rw [Nat.one_mul]) h (by omega)
  refine ⟨hf, ?_⟩
  rw [f64OfInt, f64Int_eq, hm, f64Neg_round]
  simp only [decide_eq_true_eq]
  push_cast
  split
  case isTrue h0 => rw [abs_of_neg h0]; ring
  case isFalse h0 => rw [abs_of_nonneg (by omega)]

/-- The absolute error of a finite result: half of the last place it keeps. -/
theorem f64Round_abs (neg : Bool) (num : Nat) {den : Nat} (hden : 0 < den)
    (h : f64Finite (f64Round neg num den) = true) :
    2 * |(num : Int) - den * f64Mag (f64Round neg num den)| ≤ den * 2 ^ f64Shift (num / den) := by
  obtain ⟨h1, h2⟩ := f64Round_error neg num hden h
  rw [Nat.mul_add] at h1
  zify at h1 h2
  rw [show (2 : Int) * |_| = |2 * _| by rw [abs_mul]; rfl, abs_le]
  constructor <;> linarith

/-- The relative error of a finite result whose number is a whole number of units or at least 2^52 units: at most 2^-53. -/
theorem f64Round_rel (neg : Bool) (num : Nat) {den : Nat} (hden : 0 < den)
    (h : f64Finite (f64Round neg num den) = true) (hbig : den * 2 ^ 52 ≤ num ∨ den ∣ num) :
    |(num : Int) - den * f64Mag (f64Round neg num den)| * 2 ^ 53 ≤ num := by
  have habs := f64Round_abs neg num hden h
  by_cases hs : f64Shift (num / den) = 0
  · have hmag := f64Mag_round neg num den h
    rw [hs] at habs hmag
    obtain hbig | ⟨n, rfl⟩ := hbig
    · zify at hbig
      generalize |(num : Int) - den * f64Mag (f64Round neg num den)| = x at *
      rw [pow_zero] at habs
      omega
    · have : f64Mag (f64Round neg (den * n) den) = n := by
        rw [hmag, f64Sig, hs, pow_zero, Nat.mul_one, Nat.mul_one, roundHalfEven_mul n hden]
      rw [this]
      push_cast
      simp only [sub_self, abs_zero, zero_mul]
      positivity
  · have h3 := f64Shift_small hs
    zify at h3
    generalize |(num : Int) - den * f64Mag (f64Round neg num den)| = x at *
    generalize (den : Int) * 2 ^ f64Shift (num / den) = p at *
    omega

end Sys2Proof.Machine
end

