-- ==== Sys2Proof/Laws/Memory.lean ====
section
/-! SUPPORT. The laws of one memory: read after write, and the forms that every write keeps. -/

namespace Sys2Proof.Machine

variable {w : Nat}

/-! ### The cells that a write lists -/

/-- A listed cell of a write lies in its range, holds one of its slots, and not the background. -/
theorem mem_cellsFrom {bg : Nat} {xs : List (Slot w)} {lo : Nat} {c : Nat × Slot w} (h : c ∈ cellsFrom bg lo xs) :
    lo ≤ c.1 ∧ c.1 < lo + xs.length ∧ c.2 ∈ xs ∧ c.2 ≠ .draw bg := by
  induction xs generalizing lo with
  | nil => simp [cellsFrom] at h
  | cons x xs ih =>
    simp only [cellsFrom] at h
    split at h
    · have := ih h
      simp only [List.length_cons, List.mem_cons]
      exact ⟨by omega, by omega, .inr this.2.2.1, this.2.2.2⟩
    · simp only [List.mem_cons] at h
      obtain rfl | h := h
      · simp_all
      · have := ih h
        simp only [List.length_cons, List.mem_cons]
        exact ⟨by omega, by omega, .inr this.2.2.1, this.2.2.2⟩

/-- The cells of a write are in rising order. -/
theorem pairwise_cellsFrom (bg lo : Nat) (xs : List (Slot w)) :
    (cellsFrom bg lo xs).Pairwise (fun a b => a.1 < b.1) := by
  induction xs generalizing lo with
  | nil => simp [cellsFrom]
  | cons x xs ih =>
    simp only [cellsFrom]
    split
    · exact ih _
    · refine List.pairwise_cons.2 ⟨fun c hc => ?_, ih _⟩
      have := mem_cellsFrom hc
      show lo < c.1
      omega

/-- Looking up an element among the cells of a write. -/
theorem lookup_cellsFrom (bg lo : Nat) (xs : List (Slot w)) (a : Nat) :
    (List.lookup a (cellsFrom bg lo xs)).getD (.draw bg)
      = if lo ≤ a then xs.getD (a - lo) (.draw bg) else .draw bg := by
  induction xs generalizing lo with
  | nil => simp [cellsFrom]
  | cons x xs ih =>
    simp only [cellsFrom]
    by_cases hx : x = .draw bg
    · rw [if_pos hx, ih]
      by_cases h1 : lo + 1 ≤ a
      · obtain ⟨d, rfl⟩ : ∃ d, a = lo + 1 + d := ⟨a - (lo + 1), by omega⟩
        have e1 : lo + 1 + d - lo = d + 1 := by omega
        have e2 : lo + 1 + d - (lo + 1) = d := by omega
        rw [if_pos h1, if_pos (by omega), e1, e2]
        simp
      · by_cases h2 : lo ≤ a
        · have : a = lo := by omega
          subst this
          simp [hx]
        · simp [h1, h2]
    · rw [if_neg hx, List.lookup_cons]
      by_cases ha : a = lo
      · subst ha; simp
      · have hne : (a == lo) = false := by simpa using ha
        rw [hne, ih]
        by_cases h1 : lo + 1 ≤ a
        · obtain ⟨d, rfl⟩ : ∃ d, a = lo + 1 + d := ⟨a - (lo + 1), by omega⟩
          have e1 : lo + 1 + d - lo = d + 1 := by omega
          have e2 : lo + 1 + d - (lo + 1) = d := by omega
          rw [if_pos h1, if_pos (by omega), e1, e2]
          simp
        · simp [h1, show ¬ lo ≤ a by omega]

/-- A lookup in the cells of a write outside its range finds nothing. -/
theorem lookup_cellsFrom_none (bg lo : Nat) (xs : List (Slot w)) (a : Nat) (h : a < lo ∨ lo + xs.length ≤ a) :
    List.lookup a (cellsFrom bg lo xs) = none := by
  refine List.lookup_eq_none_iff.2 fun c hc => ?_
  have := mem_cellsFrom hc
  simp only [bne_iff_ne, ne_eq]
  omega

/-- Filtering cells by their index keeps the lookup of an index that passes. -/
theorem lookup_filter_pos (p : Nat → Bool) (l : List (Nat × Slot w)) (a : Nat) (h : p a = true) :
    List.lookup a (l.filter fun c => p c.1) = List.lookup a l := by
  induction l with
  | nil => rfl
  | cons c l ih =>
    by_cases hp : p c.1 = true
    · rw [List.filter_cons_of_pos (by simpa using hp), List.lookup_cons, List.lookup_cons, ih]
    · have hne : (a == c.1) = false := by
        simp only [beq_eq_false_iff_ne, ne_eq]
        rintro rfl
        exact hp h
      rw [List.filter_cons_of_neg (by simpa using hp), List.lookup_cons, hne, ih]

/-- Filtering cells by their index removes an index that does not pass. -/
theorem lookup_filter_neg (p : Nat → Bool) (l : List (Nat × Slot w)) (a : Nat) (h : p a = false) :
    List.lookup a (l.filter fun c => p c.1) = none := by
  refine List.lookup_eq_none_iff.2 fun c hc => ?_
  simp only [List.mem_filter] at hc
  simp only [bne_iff_ne, ne_eq]
  rintro rfl
  simp [hc.2] at h

/-! ### Read after write -/

/-- What an element holds after a write of slots: the slot written, or what it held. -/
theorem Memory.slot_writeSlots (m : Memory w) (lo : Nat) (xs : List (Slot w)) (a : Nat) :
    (m.writeSlots lo xs).slot a
      = if lo ≤ a ∧ a < lo + xs.length then xs.getD (a - lo) (.draw m.background) else m.slot a := by
  have hbelow := lookup_filter_pos (fun n => decide (n < lo)) m.cells a
  have hbelow' := lookup_filter_neg (fun n => decide (n < lo)) m.cells a
  have habove := lookup_filter_pos (fun n => decide (lo + xs.length ≤ n)) m.cells a
  have habove' := lookup_filter_neg (fun n => decide (lo + xs.length ≤ n)) m.cells a
  simp only [decide_eq_true_eq, decide_eq_false_iff_not] at hbelow hbelow' habove habove'
  simp only [Memory.slot, Memory.writeSlots, List.lookup_append]
  by_cases h1 : a < lo
  · rw [hbelow h1, lookup_cellsFrom_none _ _ _ _ (.inl h1), habove' (by omega), if_neg (by omega)]
    simp
  · rw [hbelow' h1]
    by_cases h2 : a < lo + xs.length
    · rw [habove' (by omega), if_pos ⟨by omega, h2⟩]
      have := lookup_cellsFrom m.background lo xs a
      rw [if_pos (by omega)] at this
      simpa using this
    · rw [habove (by omega), lookup_cellsFrom_none _ _ _ _ (.inr (by omega)), if_neg (by omega)]
      simp

/-- What an element reads as after a write of values. -/
theorem Memory.read_writeRange (m : Memory w) (lo : Nat) (vs : List (BitVec w)) (a : Nat) :
    (m.writeRange lo vs).read a
      = if lo ≤ a ∧ a < lo + vs.length then vs.getD (a - lo) 0 else m.read a := by
  simp only [Memory.read, Memory.writeRange, Memory.slot_writeSlots, List.length_map]
  split
  case isTrue h =>
    have hlt : a - lo < vs.length := by omega
    simp [List.getD_eq_getElem?_getD, hlt, Slot.value]
  case isFalse h => rfl

/-- A write of one element, read back. -/
@[simp] theorem Memory.read_write_same (m : Memory w) (a : Nat) (v : BitVec w) : (m.write a v).read a = v := by
  simp [Memory.write, Memory.read_writeRange]

/-- A write of one element leaves every other element alone. -/
theorem Memory.read_write_other (m : Memory w) {a b : Nat} (v : BitVec w) (h : b ≠ a) :
    (m.write a v).read b = m.read b := by
  rw [Memory.write, Memory.read_writeRange, if_neg]
  simp only [List.length_singleton]
  omega

/-- What an element holds after a range is turned into a draw. -/
theorem Memory.slot_scramble (m : Memory w) (lo n id a : Nat) :
    (m.scramble lo n id).slot a = if lo ≤ a ∧ a < lo + n then .draw id else m.slot a := by
  simp only [Memory.scramble, Memory.slot_writeSlots, List.length_replicate]
  split
  case isTrue h =>
    have hlt : a - lo < n := by omega
    simp [List.getD_eq_getElem?_getD, hlt]
  case isFalse h => rfl

/-- Every element of an unwritten memory is its draw. -/
@[simp] theorem Memory.slot_undefined (w id a : Nat) : (Memory.undefined w id).slot a = .draw id := rfl

@[simp] theorem Memory.length_readRange (m : Memory w) (lo n : Nat) : (m.readRange lo n).length = n := by
  simp [Memory.readRange]

/-- The elements of a range, by index. -/
theorem Memory.getD_readRange (m : Memory w) (lo n i : Nat) (d : BitVec w) (h : i < n) :
    (m.readRange lo n).getD i d = m.read (lo + i) := by
  simp [Memory.readRange, List.getD_eq_getElem?_getD, h]

/-! ### The canonical form, the size and the draws -/

/-- Every write keeps the canonical form. -/
theorem Memory.wf_writeSlots (m : Memory w) (lo : Nat) (xs : List (Slot w)) (h : m.wf) : (m.writeSlots lo xs).wf := by
  obtain ⟨hp, hb⟩ := h
  refine ⟨?_, fun c hc => ?_⟩
  · simp only [Memory.writeSlots, List.pairwise_append]
    refine ⟨⟨hp.filter _, pairwise_cellsFrom _ _ _, fun a ha b hb => ?_⟩, hp.filter _, fun a ha b hb => ?_⟩
    · have := mem_cellsFrom hb
      simp only [List.mem_filter, decide_eq_true_eq] at ha
      omega
    · simp only [List.mem_append, List.mem_filter, decide_eq_true_eq] at ha hb
      obtain ha | ha := ha
      · omega
      · have := mem_cellsFrom ha
        omega
  · simp only [Memory.writeSlots, List.mem_append, List.mem_filter] at hc ⊢
    obtain (hc | hc) | hc := hc
    · exact hb c hc.1
    · exact (mem_cellsFrom hc).2.2.2
    · exact hb c hc.1

theorem Memory.wf_writeRange (m : Memory w) (lo : Nat) (vs : List (BitVec w)) (h : m.wf) : (m.writeRange lo vs).wf :=
  m.wf_writeSlots _ _ h

theorem Memory.wf_write (m : Memory w) (a : Nat) (v : BitVec w) (h : m.wf) : (m.write a v).wf := m.wf_writeSlots _ _ h

theorem Memory.wf_scramble (m : Memory w) (lo n id : Nat) (h : m.wf) : (m.scramble lo n id).wf := m.wf_writeSlots _ _ h

theorem Memory.wf_undefined (w id : Nat) : (Memory.undefined w id).wf := ⟨.nil, by simp [Memory.undefined]⟩

/-- A write inside the size keeps the memory inside it. -/
theorem Memory.within_writeSlots (m : Memory w) (lo size : Nat) (xs : List (Slot w)) (h : m.within size)
    (hin : lo + xs.length ≤ size) : (m.writeSlots lo xs).within size := by
  intro c hc
  simp only [Memory.writeSlots, List.mem_append, List.mem_filter] at hc
  obtain (hc | hc) | hc := hc
  · exact h c hc.1
  · have := mem_cellsFrom hc
    omega
  · exact h c hc.1

theorem Memory.within_undefined (w id size : Nat) : (Memory.undefined w id).within size := by
  simp [Memory.undefined]

/-- A write of values keeps every draw old. -/
theorem Memory.drawnBefore_writeRange (m : Memory w) (lo count : Nat) (vs : List (BitVec w)) (h : m.drawnBefore count) :
    (m.writeRange lo vs).drawnBefore count := by
  refine ⟨h.1, fun c hc => ?_⟩
  simp only [Memory.writeRange, Memory.writeSlots, List.mem_append, List.mem_filter] at hc
  obtain (hc | hc) | hc := hc
  · exact h.2 c hc.1
  · obtain ⟨v, -, hv⟩ := List.mem_map.1 (mem_cellsFrom hc).2.2.1
    rw [← hv]
    rfl
  · exact h.2 c hc.1

/-- A slot drawn before one count was drawn before every later one. -/
theorem Slot.drawnBefore_mono (x : Slot w) {a b : Nat} (hab : a ≤ b) (h : x.drawnBefore a = true) :
    x.drawnBefore b = true := by
  cases x with
  | val v => rfl
  | draw id =>
    simp only [Slot.drawnBefore, decide_eq_true_eq] at h ⊢
    omega

theorem Memory.drawnBefore_mono (m : Memory w) {a b : Nat} (hab : a ≤ b) (h : m.drawnBefore a) : m.drawnBefore b :=
  ⟨Nat.lt_of_lt_of_le h.1 hab, fun c hc => c.2.drawnBefore_mono hab (h.2 c hc)⟩

/-- Turning a range into a draw keeps every draw old, once the count is past that draw. -/
theorem Memory.drawnBefore_scramble (m : Memory w) (lo n id count : Nat) (h : m.drawnBefore count) (hid : id < count) :
    (m.scramble lo n id).drawnBefore count := by
  refine ⟨h.1, fun c hc => ?_⟩
  simp only [Memory.scramble, Memory.writeSlots, List.mem_append, List.mem_filter] at hc
  obtain (hc | hc) | hc := hc
  · exact h.2 c hc.1
  · rw [List.eq_of_mem_replicate (mem_cellsFrom hc).2.2.1]
    simpa [Slot.drawnBefore] using hid
  · exact h.2 c hc.1

end Sys2Proof.Machine
end

