-- ==== Sys2Proof/Laws/State.lean ====
section
/-! SUPPORT. One lemma per field per update of State, so that no proof unfolds a record update. -/

namespace Sys2Proof.Machine

/-! ### accept -/

@[simp] theorem State.accept_params (s : State) (w : Word) : (s.accept w).params = s.params := rfl
@[simp] theorem State.accept_regs (s : State) (w : Word) : (s.accept w).regs = s.regs := rfl
@[simp] theorem State.accept_ctrl (s : State) (w : Word) : (s.accept w).ctrl = s.ctrl := rfl
@[simp] theorem State.accept_status (s : State) (w : Word) : (s.accept w).status = s.status.accepted := rfl
@[simp] theorem State.accept_inflight (s : State) (w : Word) : (s.accept w).inflight = some w := rfl
@[simp] theorem State.accept_mat (s : State) (w : Word) : (s.accept w).mat = s.mat := rfl
@[simp] theorem State.accept_bytes (s : State) (w : Word) : (s.accept w).bytes = s.bytes := rfl
@[simp] theorem State.accept_bits (s : State) (w : Word) : (s.accept w).bits = s.bits := rfl
@[simp] theorem State.accept_perm (s : State) (w : Word) : (s.accept w).perm = s.perm := rfl
@[simp] theorem State.accept_drawCount (s : State) (w : Word) : (s.accept w).drawCount = s.drawCount := rfl
@[simp] theorem State.accept_agenda (s : State) (w : Word) : (s.accept w).agenda = s.agenda := rfl
@[simp] theorem State.accept_host (s : State) (w : Word) : (s.accept w).host = s.host := rfl
@[simp] theorem State.accept_reply (s : State) (w : Word) : (s.accept w).reply = s.reply := rfl

/-! ### succeed -/

@[simp] theorem State.succeed_params (s : State) : (s.succeed).params = s.params := rfl
@[simp] theorem State.succeed_regs (s : State) : (s.succeed).regs = s.regs := rfl
@[simp] theorem State.succeed_ctrl (s : State) : (s.succeed).ctrl = s.ctrl := rfl
@[simp] theorem State.succeed_status (s : State) : (s.succeed).status = s.status.succeeded := rfl
@[simp] theorem State.succeed_inflight (s : State) : (s.succeed).inflight = none := rfl
@[simp] theorem State.succeed_mat (s : State) : (s.succeed).mat = s.mat := rfl
@[simp] theorem State.succeed_bytes (s : State) : (s.succeed).bytes = s.bytes := rfl
@[simp] theorem State.succeed_bits (s : State) : (s.succeed).bits = s.bits := rfl
@[simp] theorem State.succeed_perm (s : State) : (s.succeed).perm = s.perm := rfl
@[simp] theorem State.succeed_drawCount (s : State) : (s.succeed).drawCount = s.drawCount := rfl
@[simp] theorem State.succeed_agenda (s : State) : (s.succeed).agenda = s.agenda := rfl
@[simp] theorem State.succeed_host (s : State) : (s.succeed).host = s.host := rfl
@[simp] theorem State.succeed_reply (s : State) : (s.succeed).reply = s.reply := rfl

/-! ### fail -/

@[simp] theorem State.fail_params (s : State) (c : ErrCode) : (s.fail c).params = s.params := rfl
@[simp] theorem State.fail_regs (s : State) (c : ErrCode) : (s.fail c).regs = s.regs := rfl
@[simp] theorem State.fail_ctrl (s : State) (c : ErrCode) : (s.fail c).ctrl = s.ctrl := rfl
@[simp] theorem State.fail_status (s : State) (c : ErrCode) : (s.fail c).status = s.status.failed c := rfl
@[simp] theorem State.fail_inflight (s : State) (c : ErrCode) : (s.fail c).inflight = none := rfl
@[simp] theorem State.fail_mat (s : State) (c : ErrCode) : (s.fail c).mat = s.mat := rfl
@[simp] theorem State.fail_bytes (s : State) (c : ErrCode) : (s.fail c).bytes = s.bytes := rfl
@[simp] theorem State.fail_bits (s : State) (c : ErrCode) : (s.fail c).bits = s.bits := rfl
@[simp] theorem State.fail_perm (s : State) (c : ErrCode) : (s.fail c).perm = s.perm := rfl
@[simp] theorem State.fail_drawCount (s : State) (c : ErrCode) : (s.fail c).drawCount = s.drawCount := rfl
@[simp] theorem State.fail_agenda (s : State) (c : ErrCode) : (s.fail c).agenda = s.agenda := rfl
@[simp] theorem State.fail_host (s : State) (c : ErrCode) : (s.fail c).host = s.host := rfl
@[simp] theorem State.fail_reply (s : State) (c : ErrCode) : (s.fail c).reply = s.reply := rfl

/-! ### setBits -/

@[simp] theorem State.setBits_params (s : State) (o : Nat) (b : List Bit) : (s.setBits o b).params = s.params := rfl
@[simp] theorem State.setBits_regs (s : State) (o : Nat) (b : List Bit) : (s.setBits o b).regs = s.regs := rfl
@[simp] theorem State.setBits_ctrl (s : State) (o : Nat) (b : List Bit) : (s.setBits o b).ctrl = s.ctrl := rfl
@[simp] theorem State.setBits_status (s : State) (o : Nat) (b : List Bit) : (s.setBits o b).status = s.status := rfl
@[simp] theorem State.setBits_inflight (s : State) (o : Nat) (b : List Bit) :
    (s.setBits o b).inflight = s.inflight := rfl
@[simp] theorem State.setBits_mat (s : State) (o : Nat) (b : List Bit) : (s.setBits o b).mat = s.mat := rfl
@[simp] theorem State.setBits_bytes (s : State) (o : Nat) (b : List Bit) : (s.setBits o b).bytes = s.bytes := rfl
@[simp] theorem State.setBits_bits (s : State) (o : Nat) (b : List Bit) :
    (s.setBits o b).bits = s.bits.writeRange o b := rfl
@[simp] theorem State.setBits_perm (s : State) (o : Nat) (b : List Bit) : (s.setBits o b).perm = s.perm := rfl
@[simp] theorem State.setBits_drawCount (s : State) (o : Nat) (b : List Bit) :
    (s.setBits o b).drawCount = s.drawCount := rfl
@[simp] theorem State.setBits_agenda (s : State) (o : Nat) (b : List Bit) : (s.setBits o b).agenda = s.agenda := rfl
@[simp] theorem State.setBits_host (s : State) (o : Nat) (b : List Bit) : (s.setBits o b).host = s.host := rfl
@[simp] theorem State.setBits_reply (s : State) (o : Nat) (b : List Bit) : (s.setBits o b).reply = s.reply := rfl

/-! ### setBytes -/

@[simp] theorem State.setBytes_params (s : State) (b : List Byte) : (s.setBytes b).params = s.params := rfl
@[simp] theorem State.setBytes_regs (s : State) (b : List Byte) : (s.setBytes b).regs = s.regs := rfl
@[simp] theorem State.setBytes_ctrl (s : State) (b : List Byte) : (s.setBytes b).ctrl = s.ctrl := rfl
@[simp] theorem State.setBytes_status (s : State) (b : List Byte) : (s.setBytes b).status = s.status := rfl
@[simp] theorem State.setBytes_inflight (s : State) (b : List Byte) : (s.setBytes b).inflight = s.inflight := rfl
@[simp] theorem State.setBytes_mat (s : State) (b : List Byte) : (s.setBytes b).mat = s.mat := rfl
@[simp] theorem State.setBytes_bytes (s : State) (b : List Byte) :
    (s.setBytes b).bytes = s.bytes.writeRange 0 b := rfl
@[simp] theorem State.setBytes_bits (s : State) (b : List Byte) : (s.setBytes b).bits = s.bits := rfl
@[simp] theorem State.setBytes_perm (s : State) (b : List Byte) : (s.setBytes b).perm = s.perm := rfl
@[simp] theorem State.setBytes_drawCount (s : State) (b : List Byte) : (s.setBytes b).drawCount = s.drawCount := rfl
@[simp] theorem State.setBytes_agenda (s : State) (b : List Byte) : (s.setBytes b).agenda = s.agenda := rfl
@[simp] theorem State.setBytes_host (s : State) (b : List Byte) : (s.setBytes b).host = s.host := rfl
@[simp] theorem State.setBytes_reply (s : State) (b : List Byte) : (s.setBytes b).reply = s.reply := rfl

/-! ### setPerm -/

@[simp] theorem State.setPerm_params (s : State) (p : Array Nat) : (s.setPerm p).params = s.params := rfl
@[simp] theorem State.setPerm_regs (s : State) (p : Array Nat) : (s.setPerm p).regs = s.regs := rfl
@[simp] theorem State.setPerm_ctrl (s : State) (p : Array Nat) : (s.setPerm p).ctrl = s.ctrl := rfl
@[simp] theorem State.setPerm_status (s : State) (p : Array Nat) : (s.setPerm p).status = s.status := rfl
@[simp] theorem State.setPerm_inflight (s : State) (p : Array Nat) : (s.setPerm p).inflight = s.inflight := rfl
@[simp] theorem State.setPerm_mat (s : State) (p : Array Nat) : (s.setPerm p).mat = s.mat := rfl
@[simp] theorem State.setPerm_bytes (s : State) (p : Array Nat) : (s.setPerm p).bytes = s.bytes := rfl
@[simp] theorem State.setPerm_bits (s : State) (p : Array Nat) : (s.setPerm p).bits = s.bits := rfl
@[simp] theorem State.setPerm_perm (s : State) (p : Array Nat) :
    (s.setPerm p).perm = s.perm.writeRange 0 (p.toList.map (BitVec.ofNat 32)) := rfl
@[simp] theorem State.setPerm_drawCount (s : State) (p : Array Nat) : (s.setPerm p).drawCount = s.drawCount := rfl
@[simp] theorem State.setPerm_agenda (s : State) (p : Array Nat) : (s.setPerm p).agenda = s.agenda := rfl
@[simp] theorem State.setPerm_host (s : State) (p : Array Nat) : (s.setPerm p).host = s.host := rfl
@[simp] theorem State.setPerm_reply (s : State) (p : Array Nat) : (s.setPerm p).reply = s.reply := rfl

/-! ### setMatrix -/

@[simp] theorem State.setMatrix_params (s : State) (y : Array F64) : (s.setMatrix y).params = s.params := rfl
@[simp] theorem State.setMatrix_regs (s : State) (y : Array F64) : (s.setMatrix y).regs = s.regs := rfl
@[simp] theorem State.setMatrix_ctrl (s : State) (y : Array F64) : (s.setMatrix y).ctrl = s.ctrl := rfl
@[simp] theorem State.setMatrix_status (s : State) (y : Array F64) : (s.setMatrix y).status = s.status := rfl
@[simp] theorem State.setMatrix_inflight (s : State) (y : Array F64) : (s.setMatrix y).inflight = s.inflight := rfl
@[simp] theorem State.setMatrix_mat (s : State) (y : Array F64) :
    (s.setMatrix y).mat = s.mat.writeRange 0 (y.toList.flatMap fun x => [f64Lo x, f64Hi x]) := rfl
@[simp] theorem State.setMatrix_bytes (s : State) (y : Array F64) : (s.setMatrix y).bytes = s.bytes := rfl
@[simp] theorem State.setMatrix_bits (s : State) (y : Array F64) : (s.setMatrix y).bits = s.bits := rfl
@[simp] theorem State.setMatrix_perm (s : State) (y : Array F64) : (s.setMatrix y).perm = s.perm := rfl
@[simp] theorem State.setMatrix_drawCount (s : State) (y : Array F64) : (s.setMatrix y).drawCount = s.drawCount := rfl
@[simp] theorem State.setMatrix_agenda (s : State) (y : Array F64) : (s.setMatrix y).agenda = s.agenda := rfl
@[simp] theorem State.setMatrix_host (s : State) (y : Array F64) : (s.setMatrix y).host = s.host := rfl
@[simp] theorem State.setMatrix_reply (s : State) (y : Array F64) : (s.setMatrix y).reply = s.reply := rfl

/-! ### setBitlen -/

@[simp] theorem State.setBitlen_params (s : State) (n : Nat) : (s.setBitlen n).params = s.params := rfl
@[simp] theorem State.setBitlen_regs (s : State) (n : Nat) :
    (s.setBitlen n).regs = { s.regs with bitlen := BitVec.ofNat 32 n } := rfl
@[simp] theorem State.setBitlen_ctrl (s : State) (n : Nat) : (s.setBitlen n).ctrl = s.ctrl := rfl
@[simp] theorem State.setBitlen_status (s : State) (n : Nat) : (s.setBitlen n).status = s.status := rfl
@[simp] theorem State.setBitlen_inflight (s : State) (n : Nat) : (s.setBitlen n).inflight = s.inflight := rfl
@[simp] theorem State.setBitlen_mat (s : State) (n : Nat) : (s.setBitlen n).mat = s.mat := rfl
@[simp] theorem State.setBitlen_bytes (s : State) (n : Nat) : (s.setBitlen n).bytes = s.bytes := rfl
@[simp] theorem State.setBitlen_bits (s : State) (n : Nat) : (s.setBitlen n).bits = s.bits := rfl
@[simp] theorem State.setBitlen_perm (s : State) (n : Nat) : (s.setBitlen n).perm = s.perm := rfl
@[simp] theorem State.setBitlen_drawCount (s : State) (n : Nat) : (s.setBitlen n).drawCount = s.drawCount := rfl
@[simp] theorem State.setBitlen_agenda (s : State) (n : Nat) : (s.setBitlen n).agenda = s.agenda := rfl
@[simp] theorem State.setBitlen_host (s : State) (n : Nat) : (s.setBitlen n).host = s.host := rfl
@[simp] theorem State.setBitlen_reply (s : State) (n : Nat) : (s.setBitlen n).reply = s.reply := rfl

/-! ### setLen -/

@[simp] theorem State.setLen_params (s : State) (n : Nat) : (s.setLen n).params = s.params := rfl
@[simp] theorem State.setLen_regs (s : State) (n : Nat) :
    (s.setLen n).regs = { s.regs with len := BitVec.ofNat 32 n } := rfl
@[simp] theorem State.setLen_ctrl (s : State) (n : Nat) : (s.setLen n).ctrl = s.ctrl := rfl
@[simp] theorem State.setLen_status (s : State) (n : Nat) : (s.setLen n).status = s.status := rfl
@[simp] theorem State.setLen_inflight (s : State) (n : Nat) : (s.setLen n).inflight = s.inflight := rfl
@[simp] theorem State.setLen_mat (s : State) (n : Nat) : (s.setLen n).mat = s.mat := rfl
@[simp] theorem State.setLen_bytes (s : State) (n : Nat) : (s.setLen n).bytes = s.bytes := rfl
@[simp] theorem State.setLen_bits (s : State) (n : Nat) : (s.setLen n).bits = s.bits := rfl
@[simp] theorem State.setLen_perm (s : State) (n : Nat) : (s.setLen n).perm = s.perm := rfl
@[simp] theorem State.setLen_drawCount (s : State) (n : Nat) : (s.setLen n).drawCount = s.drawCount := rfl
@[simp] theorem State.setLen_agenda (s : State) (n : Nat) : (s.setLen n).agenda = s.agenda := rfl
@[simp] theorem State.setLen_host (s : State) (n : Nat) : (s.setLen n).host = s.host := rfl
@[simp] theorem State.setLen_reply (s : State) (n : Nat) : (s.setLen n).reply = s.reply := rfl

/-! ### setResult -/

@[simp] theorem State.setResult_params (s : State) (v : Word) : (s.setResult v).params = s.params := rfl
@[simp] theorem State.setResult_regs (s : State) (v : Word) :
    (s.setResult v).regs = { s.regs with result := v } := rfl
@[simp] theorem State.setResult_ctrl (s : State) (v : Word) : (s.setResult v).ctrl = s.ctrl := rfl
@[simp] theorem State.setResult_status (s : State) (v : Word) : (s.setResult v).status = s.status := rfl
@[simp] theorem State.setResult_inflight (s : State) (v : Word) : (s.setResult v).inflight = s.inflight := rfl
@[simp] theorem State.setResult_mat (s : State) (v : Word) : (s.setResult v).mat = s.mat := rfl
@[simp] theorem State.setResult_bytes (s : State) (v : Word) : (s.setResult v).bytes = s.bytes := rfl
@[simp] theorem State.setResult_bits (s : State) (v : Word) : (s.setResult v).bits = s.bits := rfl
@[simp] theorem State.setResult_perm (s : State) (v : Word) : (s.setResult v).perm = s.perm := rfl
@[simp] theorem State.setResult_drawCount (s : State) (v : Word) : (s.setResult v).drawCount = s.drawCount := rfl
@[simp] theorem State.setResult_agenda (s : State) (v : Word) : (s.setResult v).agenda = s.agenda := rfl
@[simp] theorem State.setResult_host (s : State) (v : Word) : (s.setResult v).host = s.host := rfl
@[simp] theorem State.setResult_reply (s : State) (v : Word) : (s.setResult v).reply = s.reply := rfl

/-! ### setCoef -/

@[simp] theorem State.setCoef_params (s : State) (c : F64) : (s.setCoef c).params = s.params := rfl
@[simp] theorem State.setCoef_regs (s : State) (c : F64) :
    (s.setCoef c).regs = { s.regs with coefLo := f64Lo c, coefHi := f64Hi c } := rfl
@[simp] theorem State.setCoef_ctrl (s : State) (c : F64) : (s.setCoef c).ctrl = s.ctrl := rfl
@[simp] theorem State.setCoef_status (s : State) (c : F64) : (s.setCoef c).status = s.status := rfl
@[simp] theorem State.setCoef_inflight (s : State) (c : F64) : (s.setCoef c).inflight = s.inflight := rfl
@[simp] theorem State.setCoef_mat (s : State) (c : F64) : (s.setCoef c).mat = s.mat := rfl
@[simp] theorem State.setCoef_bytes (s : State) (c : F64) : (s.setCoef c).bytes = s.bytes := rfl
@[simp] theorem State.setCoef_bits (s : State) (c : F64) : (s.setCoef c).bits = s.bits := rfl
@[simp] theorem State.setCoef_perm (s : State) (c : F64) : (s.setCoef c).perm = s.perm := rfl
@[simp] theorem State.setCoef_drawCount (s : State) (c : F64) : (s.setCoef c).drawCount = s.drawCount := rfl
@[simp] theorem State.setCoef_agenda (s : State) (c : F64) : (s.setCoef c).agenda = s.agenda := rfl
@[simp] theorem State.setCoef_host (s : State) (c : F64) : (s.setCoef c).host = s.host := rfl
@[simp] theorem State.setCoef_reply (s : State) (c : F64) : (s.setCoef c).reply = s.reply := rfl

/-! ### setXf -/

@[simp] theorem State.setXf_params (s : State) (x : Bool) : (s.setXf x).params = s.params := rfl
@[simp] theorem State.setXf_regs (s : State) (x : Bool) : (s.setXf x).regs = s.regs := rfl
@[simp] theorem State.setXf_ctrl (s : State) (x : Bool) : (s.setXf x).ctrl = s.ctrl := rfl
@[simp] theorem State.setXf_status (s : State) (x : Bool) : (s.setXf x).status = { s.status with xf := x } := rfl
@[simp] theorem State.setXf_inflight (s : State) (x : Bool) : (s.setXf x).inflight = s.inflight := rfl
@[simp] theorem State.setXf_mat (s : State) (x : Bool) : (s.setXf x).mat = s.mat := rfl
@[simp] theorem State.setXf_bytes (s : State) (x : Bool) : (s.setXf x).bytes = s.bytes := rfl
@[simp] theorem State.setXf_bits (s : State) (x : Bool) : (s.setXf x).bits = s.bits := rfl
@[simp] theorem State.setXf_perm (s : State) (x : Bool) : (s.setXf x).perm = s.perm := rfl
@[simp] theorem State.setXf_drawCount (s : State) (x : Bool) : (s.setXf x).drawCount = s.drawCount := rfl
@[simp] theorem State.setXf_agenda (s : State) (x : Bool) : (s.setXf x).agenda = s.agenda := rfl
@[simp] theorem State.setXf_host (s : State) (x : Bool) : (s.setXf x).host = s.host := rfl
@[simp] theorem State.setXf_reply (s : State) (x : Bool) : (s.setXf x).reply = s.reply := rfl

/-! ### resetRegisters -/

@[simp] theorem State.resetRegisters_params (s : State) : (s.resetRegisters).params = s.params := rfl
@[simp] theorem State.resetRegisters_regs (s : State) : (s.resetRegisters).regs = Regs.reset := rfl
@[simp] theorem State.resetRegisters_ctrl (s : State) : (s.resetRegisters).ctrl = Ctrl.reset := rfl
@[simp] theorem State.resetRegisters_status (s : State) : (s.resetRegisters).status = Status.reset := rfl
@[simp] theorem State.resetRegisters_inflight (s : State) : (s.resetRegisters).inflight = none := rfl
@[simp] theorem State.resetRegisters_mat (s : State) : (s.resetRegisters).mat = s.mat := rfl
@[simp] theorem State.resetRegisters_bytes (s : State) : (s.resetRegisters).bytes = s.bytes := rfl
@[simp] theorem State.resetRegisters_bits (s : State) : (s.resetRegisters).bits = s.bits := rfl
@[simp] theorem State.resetRegisters_perm (s : State) : (s.resetRegisters).perm = s.perm := rfl
@[simp] theorem State.resetRegisters_drawCount (s : State) : (s.resetRegisters).drawCount = s.drawCount := rfl
@[simp] theorem State.resetRegisters_agenda (s : State) : (s.resetRegisters).agenda = s.agenda := rfl
@[simp] theorem State.resetRegisters_host (s : State) : (s.resetRegisters).host = s.host := rfl
@[simp] theorem State.resetRegisters_reply (s : State) : (s.resetRegisters).reply = s.reply := rfl

/-! ### STATUS -/

@[simp] theorem Status.accepted_done (st : Status) : st.accepted.done = false := rfl
@[simp] theorem Status.accepted_err (st : Status) : st.accepted.err = false := rfl
@[simp] theorem Status.accepted_errcode (st : Status) : st.accepted.errcode = none := rfl
@[simp] theorem Status.accepted_cmdlost (st : Status) : st.accepted.cmdlost = st.cmdlost := rfl
@[simp] theorem Status.accepted_xf (st : Status) : st.accepted.xf = st.xf := rfl
@[simp] theorem Status.accepted_seedValid (st : Status) : st.accepted.seedValid = st.seedValid := rfl
@[simp] theorem Status.succeeded_done (st : Status) : st.succeeded.done = true := rfl
@[simp] theorem Status.succeeded_err (st : Status) : st.succeeded.err = st.err := rfl
@[simp] theorem Status.succeeded_errcode (st : Status) : st.succeeded.errcode = st.errcode := rfl
@[simp] theorem Status.succeeded_cmdlost (st : Status) : st.succeeded.cmdlost = st.cmdlost := rfl
@[simp] theorem Status.succeeded_xf (st : Status) : st.succeeded.xf = st.xf := rfl
@[simp] theorem Status.succeeded_seedValid (st : Status) : st.succeeded.seedValid = st.seedValid := rfl
@[simp] theorem Status.failed_done (st : Status) (c : ErrCode) : (st.failed c).done = true := rfl
@[simp] theorem Status.failed_err (st : Status) (c : ErrCode) : (st.failed c).err = true := rfl
@[simp] theorem Status.failed_errcode (st : Status) (c : ErrCode) : (st.failed c).errcode = some c := rfl
@[simp] theorem Status.failed_cmdlost (st : Status) (c : ErrCode) : (st.failed c).cmdlost = st.cmdlost := rfl
@[simp] theorem Status.failed_xf (st : Status) (c : ErrCode) : (st.failed c).xf = st.xf := rfl
@[simp] theorem Status.failed_seedValid (st : Status) (c : ErrCode) : (st.failed c).seedValid = st.seedValid := rfl

end Sys2Proof.Machine
end

