-- ==== Sys2Proof/Laws/Ops.lean ====
section
/-! SUPPORT. What completing a command and committing its writes can do: one lemma per shared operation of Machine/Ops.lean. -/

namespace Sys2Proof.Machine

/-! ### Completion -/

@[simp] theorem finish_ok (s t : State) : finish s (.ok t) = .next t.succeed := rfl

@[simp] theorem finish_error (s : State) (c : ErrCode) : finish s (.error c) = .next (s.fail c) := rfl

/-- Everything a completion can be: the writes committed, or an error that changes nothing but STATUS. -/
theorem finish_cases {s u : State} {result : Except ErrCode State} (h : finish s result = .next u) :
    (∃ t, result = .ok t ∧ u = t.succeed) ∨ ∃ c, result = .error c ∧ u = s.fail c := by
  cases result with
  | ok t => exact .inl ⟨t, rfl, (Host.Outcome.next.inj h).symm⟩
  | error c => exact .inr ⟨c, rfl, (Host.Outcome.next.inj h).symm⟩

/-- A completion that names success committed a result. -/
theorem finish_ok_of_errcode {s u : State} {result : Except ErrCode State} (h : finish s result = .next u)
    (hu : u.status.errcode = none) : ∃ t, result = .ok t ∧ u = t.succeed := by
  obtain h | ⟨c, -, rfl⟩ := finish_cases h
  · exact h
  · simp at hu

/-- What a command computes, its completion apart. -/
def runOf (i : Instr) (s : State) : Except ErrCode State :=
  match i with
  | .nop => .ok s
  | .b2bits => runB2bits s
  | .bits2b => runBits2b s
  | .u32bits => runU32bits s
  | .bitsu32 => runBitsu32 s
  | .posmod => runPosmod s
  | .permgen => runPermgen s
  | .fwd => runFwd s
  | .inv => runInv s
  | .qwrite => runQwrite s
  | .qread => runQread s
  | .frame => runFrame s
  | .embed => runEmbed s
  | .extract => runExtract s
  | .embedf => runEmbedf s
  | .extractf => runExtractf s

/-- Every command is a completion of what it computes. -/
theorem exec_eq_finish (i : Instr) (s : State) : exec i s = finish s (runOf i s) := by
  cases i <;> rfl

/-- Every command completes: neither a fault nor a refusal. -/
theorem exec_next (i : Instr) (s : State) : ∃ t, exec i s = .next t := by
  rw [exec_eq_finish]
  cases runOf i s with
  | ok t => exact ⟨_, rfl⟩
  | error c => exact ⟨_, rfl⟩

/-! ### The writes, read back -/

theorem State.bitAt_setBits (s : State) (o : Nat) (b : List Bit) (k : Nat) :
    (s.setBits o b).bitAt k = if o ≤ k ∧ k < o + b.length then b.getD (k - o) 0 else s.bitAt k :=
  Memory.read_writeRange _ _ _ _

theorem State.byteAt_setBytes (s : State) (bs : List Byte) (k : Nat) :
    (s.setBytes bs).byteAt k = if k < bs.length then bs.getD k 0 else s.byteAt k := by
  simpa [State.byteAt] using Memory.read_writeRange s.bytes 0 bs k

theorem State.permAt_setPerm (s : State) (p : Array Nat) (k : Nat) :
    (s.setPerm p).permAt k = if k < p.size then BitVec.ofNat 32 (p.getD k 0) else s.permAt k := by
  have := Memory.read_writeRange s.perm 0 (p.toList.map (BitVec.ofNat 32)) k
  simp only [State.permAt, State.setPerm_perm, this, Nat.zero_le, true_and, List.length_map, Array.length_toList, Nat.zero_add]
  split
  case isTrue h => simp [List.getD_eq_getElem?_getD, h]
  case isFalse h => rfl

/-- The words of a list of binary64, two by two. -/
theorem length_halves (l : List F64) : (l.flatMap fun x => [f64Lo x, f64Hi x]).length = 2 * l.length := by
  simp [List.length_flatMap, Nat.mul_comm]

theorem getElem?_halves (l : List F64) (e : Nat) :
    (l.flatMap fun x => [f64Lo x, f64Hi x])[2 * e]? = (l[e]?).map f64Lo
      ∧ (l.flatMap fun x => [f64Lo x, f64Hi x])[2 * e + 1]? = (l[e]?).map f64Hi := by
  induction l generalizing e with
  | nil => simp
  | cons x l ih =>
    cases e with
    | zero => simp
    | succ e =>
      have h0 : 2 * (e + 1) = 2 * e + 2 := by omega
      simpa [h0] using ih e

@[simp] theorem f64_halves (x : F64) : f64Hi x ++ f64Lo x = x := by
  apply BitVec.eq_of_getLsbD_eq
  intro i hi
  refine (BitVec.getLsbD_append (x := f64Hi x) (y := f64Lo x)).trans ?_
  split
  case isTrue h => simp [f64Lo, h]
  case isFalse h =>
    have h32 : i - 32 < 32 := by omega
    have e : 32 + (i - 32) = i := by omega
    simp [f64Hi, h32, e]

/-- The halves of a binary64 put together are the binary64 (20_memory.md R111; 30_encoding.md R151). -/
@[simp] theorem f64OfHalves_halves (x : F64) : f64OfHalves (f64Lo x) (f64Hi x) = x := f64_halves x

theorem State.matAt_setMatrix (s : State) (y : Array F64) (e : Nat) :
    (s.setMatrix y).matAt e = if e < y.size then y.getD e 0 else s.matAt e := by
  have hlen := length_halves y.toList
  obtain ⟨h0, h1⟩ := getElem?_halves y.toList e
  simp only [State.matAt, State.setMatrix_mat, Memory.read_writeRange, hlen, Array.length_toList, Nat.zero_le, true_and,
    Nat.zero_add, Nat.sub_zero, List.getD_eq_getElem?_getD, h0, h1]
  by_cases h : e < y.size
  · rw [if_pos (by omega), if_pos (by omega), if_pos h]
    simp [h, Array.getD]
  · rw [if_neg (by omega), if_neg (by omega), if_neg h]

/-! ### What commands read -/

@[simp] theorem State.length_payload (s : State) (n : Nat) : (s.payload n).length = n := by simp [State.payload]

theorem State.getD_payload (s : State) {n k : Nat} (h : k < n) (d : Byte) : (s.payload n).getD k d = s.byteAt k :=
  (s.bytes.getD_readRange 0 n k d h).trans (by rw [Nat.zero_add]; rfl)

@[simp] theorem State.length_bitSlice (s : State) (o n : Nat) : (s.bitSlice o n).length = n := by simp [State.bitSlice]

theorem State.getD_bitSlice (s : State) {o n k : Nat} (h : k < n) (d : Bit) :
    (s.bitSlice o n).getD k d = s.bitAt (o + k) := s.bits.getD_readRange o n k d h

@[simp] theorem State.size_matrix (s : State) : s.matrix.size = s.matSize := by simp [State.matrix]

theorem State.getD_matrix (s : State) {e : Nat} (h : e < s.matSize) : s.matrix.getD e 0 = s.matAt e := by
  simp [State.matrix, Array.getD, h]

/-- A matrix that was committed is the matrix that is read, when it is as large as ROWS and COLS say. -/
theorem State.matrix_setMatrix (s : State) (y : Array F64) (h : y.size = s.matSize) : (s.setMatrix y).matrix = y := by
  apply Array.ext
  · simp [h, State.matSize, State.rowCount, State.colCount]
  · intro e he _
    have he' : e < s.matSize := by simpa [State.matSize, State.rowCount, State.colCount] using he
    have := (s.setMatrix y).getD_matrix (e := e) (by simpa [State.matSize, State.rowCount, State.colCount] using he')
    rw [State.matAt_setMatrix, if_pos (by omega)] at this
    simpa [Array.getD_eq_getD_getElem?, he, h, he', -State.size_matrix] using this

end Sys2Proof.Machine
end

