-- ==== Sys2Proof/Laws/BitByte.lean ====
section
/-! SUPPORT. The laws of the bit and byte conversions: how long each result is and what stands at each place. -/

namespace Sys2Proof.Machine

/-! ### Bits of bytes and words -/

@[simp] theorem length_byteToBits (b : Byte) : (byteToBits b).length = 8 := by simp [byteToBits]

theorem getElem?_byteToBits (b : Byte) {i : Nat} (h : i < 8) : (byteToBits b)[i]? = some (b.extractLsb' (7 - i) 1) := by
  simp [byteToBits, h]

@[simp] theorem length_u32ToBits (x : Word) : (u32ToBits x).length = 32 := by simp [u32ToBits]

theorem getElem?_u32ToBits (x : Word) {i : Nat} (h : i < 32) : (u32ToBits x)[i]? = some (x.extractLsb' (31 - i) 1) := by
  simp [u32ToBits, h]

@[simp] theorem bytesToBits_nil : bytesToBits [] = [] := rfl

@[simp] theorem bytesToBits_cons (b : Byte) (bs : List Byte) : bytesToBits (b :: bs) = byteToBits b ++ bytesToBits bs := rfl

@[simp] theorem length_bytesToBits (bs : List Byte) : (bytesToBits bs).length = 8 * bs.length := by
  induction bs with
  | nil => rfl
  | cons b bs ih => simp [ih, Nat.mul_add, Nat.add_comm]

theorem getElem?_bytesToBits (bs : List Byte) (k : Nat) {i : Nat} (h : i < 8) :
    (bytesToBits bs)[8 * k + i]? = (bs[k]?).map fun b => b.extractLsb' (7 - i) 1 := by
  induction bs generalizing k with
  | nil => simp
  | cons b bs ih =>
    cases k with
    | zero =>
      rw [bytesToBits_cons, Nat.mul_zero, Nat.zero_add, List.getElem?_append_left (by simpa), getElem?_byteToBits _ h]
      rfl
    | succ k =>
      have e : 8 * (k + 1) + i - (byteToBits b).length = 8 * k + i := by simp; omega
      rw [bytesToBits_cons, List.getElem?_append_right (by simp; omega), e, ih]
      rfl

/-! ### Numbers of bits -/

theorem bitsToNat_append_singleton (b : List Bit) (x : Bit) : bitsToNat (b ++ [x]) = 2 * bitsToNat b + x.toNat := by
  simp [bitsToNat, List.foldl_append]

theorem bitsToNat_append (a b : List Bit) : bitsToNat (a ++ b) = bitsToNat a * 2 ^ b.length + bitsToNat b := by
  induction b using List.reverseRecOn with
  | nil => simp [bitsToNat]
  | append_singleton b x ih =>
    rw [← List.append_assoc, bitsToNat_append_singleton, ih, bitsToNat_append_singleton]
    simp only [List.length_append, List.length_singleton, pow_succ]
    ring

theorem bitsToNat_lt (b : List Bit) : bitsToNat b < 2 ^ b.length := by
  induction b using List.reverseRecOn with
  | nil => simp [bitsToNat]
  | append_singleton b x ih =>
    have := x.isLt
    rw [bitsToNat_append_singleton]
    simp only [List.length_append, List.length_singleton, pow_succ]
    omega

/-- The number that bits denote, as a sum over their places, the first being the most significant. -/
theorem bitsToNat_eq_sum (b : List Bit) :
    bitsToNat b = ∑ i ∈ Finset.range b.length, (b.getD i 0).toNat * 2 ^ (b.length - 1 - i) := by
  induction b using List.reverseRecOn with
  | nil => simp [bitsToNat]
  | append_singleton b x ih =>
    rw [bitsToNat_append_singleton, ih, List.length_append, List.length_singleton, Finset.sum_range_succ, Finset.mul_sum]
    congr 1
    · refine Finset.sum_congr rfl fun i hi => ?_
      have hi' : i < b.length := by simpa using hi
      have e : b.length + 1 - 1 - i = b.length - 1 - i + 1 := by omega
      rw [e, pow_succ]
      simp only [List.getD_eq_getElem?_getD, List.getElem?_append_left hi']
      ring
    · simp

/-- Bit `n - 1 - i` of the number is bit `i` of the list. -/
theorem testBit_bitsToNat (b : List Bit) {i : Nat} (h : i < b.length) :
    (bitsToNat b).testBit (b.length - 1 - i) = (b.getD i 0).getLsbD 0 := by
  induction b using List.reverseRecOn with
  | nil => simp at h
  | append_singleton b x ih =>
    rw [bitsToNat_append_singleton, List.length_append, List.length_singleton]
    have hx : x.toNat < 2 := x.isLt
    by_cases hi : i < b.length
    · have e : b.length + 1 - 1 - i = b.length - 1 - i + 1 := by omega
      have hdiv : (2 * bitsToNat b + x.toNat) / 2 = bitsToNat b := by omega
      rw [e, Nat.testBit_succ, hdiv, ih hi]
      simp only [List.getD_eq_getElem?_getD, List.getElem?_append_left hi]
    · have hi' : i = b.length := by simp at h; omega
      subst hi'
      have hmod : (2 * bitsToNat b + x.toNat) % 2 = x.toNat % 2 := by omega
      simp [Nat.testBit_zero, hmod, BitVec.getLsbD]

/-- A one-bit vector is its bit. -/
theorem bit_ext {x y : Bit} (h : x.getLsbD 0 = y.getLsbD 0) : x = y := by
  apply BitVec.eq_of_getLsbD_eq
  intro i hi
  obtain rfl : i = 0 := by omega
  exact h

/-! ### Bytes of bits -/

@[simp] theorem length_takeBytes (n : Nat) (b : List Bit) : (takeBytes n b).length = n := by
  induction n generalizing b with
  | zero => rfl
  | succ n ih => simp [takeBytes, ih]

@[simp] theorem length_bitsToBytes (b : List Bit) : (bitsToBytes b).length = b.length / 8 := by simp [bitsToBytes]

theorem getElem?_takeBytes (n : Nat) (b : List Bit) {k : Nat} (h : k < n) :
    (takeBytes n b)[k]? = some (BitVec.ofNat 8 (bitsToNat ((b.drop (8 * k)).take 8))) := by
  induction n generalizing b k with
  | zero => omega
  | succ n ih =>
    cases k with
    | zero => simp [takeBytes]
    | succ k =>
      have e : 8 + 8 * k = 8 * (k + 1) := by omega
      simp [takeBytes, ih (b.drop 8) (k := k) (by omega), List.drop_drop, e]

theorem getElem?_bitsToBytes (b : List Bit) {k : Nat} (h : k < b.length / 8) :
    (bitsToBytes b)[k]? = some (BitVec.ofNat 8 (bitsToNat ((b.drop (8 * k)).take 8))) :=
  getElem?_takeBytes _ _ h

/-- The number in the byte of eight bits. -/
theorem toNat_ofNat_bitsToNat {n : Nat} (b : List Bit) (h : b.length ≤ n) :
    (BitVec.ofNat n (bitsToNat b)).toNat = bitsToNat b := by
  rw [BitVec.toNat_ofNat]
  exact Nat.mod_eq_of_lt (Nat.lt_of_lt_of_le (bitsToNat_lt b) (Nat.pow_le_pow_right (by omega) h))

/-- A bit of the number that bits denote, kept in a vector as wide as the list. -/
theorem extract_ofNat_bitsToNat {n : Nat} (b : List Bit) (hn : b.length = n) {i : Nat} (h : i < n) :
    (BitVec.ofNat n (bitsToNat b)).extractLsb' (n - 1 - i) 1 = b.getD i 0 := by
  apply bit_ext
  subst hn
  rw [← testBit_bitsToNat b h]
  have : b.length - 1 - i < b.length := by omega
  rw [BitVec.getLsbD_extractLsb', BitVec.getLsbD_ofNat]
  simp [this]

/-- Two byte lists of eight bits each agree when their bits do. -/
theorem byteToBits_ofNat_bitsToNat (b : List Bit) (h : b.length = 8) : byteToBits (BitVec.ofNat 8 (bitsToNat b)) = b := by
  apply List.ext_getElem?
  intro i
  by_cases hi : i < 8
  · rw [getElem?_byteToBits _ hi, extract_ofNat_bitsToNat b h hi]
    simp [List.getD_eq_getElem?_getD, h, hi]
  · simp [byteToBits, hi, h]

theorem bitsToNat_byteToBits (b : Byte) : BitVec.ofNat 8 (bitsToNat (byteToBits b)) = b := by
  apply BitVec.eq_of_getLsbD_eq
  intro i hi
  have h := testBit_bitsToNat (byteToBits b) (i := 7 - i) (by simp; omega)
  have e : 8 - 1 - (7 - i) = i := by omega
  rw [length_byteToBits, e, List.getD_eq_getElem?_getD, getElem?_byteToBits _ (by omega)] at h
  have e' : 7 - (7 - i) = i := by omega
  rw [BitVec.getLsbD_ofNat]
  simpa [hi, e'] using h

theorem bitsToNat_u32ToBits (x : Word) : BitVec.ofNat 32 (bitsToNat (u32ToBits x)) = x := by
  apply BitVec.eq_of_getLsbD_eq
  intro i hi
  have h := testBit_bitsToNat (u32ToBits x) (i := 31 - i) (by simp; omega)
  have e : 32 - 1 - (31 - i) = i := by omega
  rw [length_u32ToBits, e, List.getD_eq_getElem?_getD, getElem?_u32ToBits _ (by omega)] at h
  have e' : 31 - (31 - i) = i := by omega
  rw [BitVec.getLsbD_ofNat]
  simpa [hi, e'] using h

end Sys2Proof.Machine
end

