-- ==== Sys2Proof/Laws/Bus.lean ====
section
/-! SUPPORT. The laws of the bus: where each register and window word stands, and everything an access can do. -/

namespace Sys2Proof.Machine

/-! ### The address map -/

@[simp] theorem Reg.ofOffset_offset (r : Reg) : Reg.ofOffset r.offset = some r := by cases r <;> rfl

theorem Reg.offset_le (r : Reg) : r.offset ≤ 0x5C ∧ r.offset % 4 = 0 := by cases r <;> decide

/-- The register found at an offset stands there. -/
theorem Reg.offset_of_ofOffset {off : Nat} {r : Reg} (h : Reg.ofOffset off = some r) : r.offset = off := by
  simpa using List.find?_some h

/-- An offset past the register block selects no register. -/
theorem Reg.ofOffset_high {off : Nat} (h : 0x5C < off) : Reg.ofOffset off = none := by
  cases hr : Reg.ofOffset off with
  | none => rfl
  | some r =>
    have := Reg.offset_of_ofOffset hr
    have := r.offset_le
    omega

/-- A 4-aligned offset of the register block selects a register (20_memory.md R105). -/
theorem Reg.ofOffset_low {off : Nat} (h : off ≤ 0x5C) (h4 : off % 4 = 0) : ∃ r, Reg.ofOffset off = some r := by
  have all : ∀ k < 24, (Reg.ofOffset (4 * k)).isSome = true := by decide
  obtain ⟨k, rfl⟩ : ∃ k, off = 4 * k := ⟨off / 4, by omega⟩
  exact Option.isSome_iff_exists.1 (all k (by omega))

/-- The windows lie one after another: a window's first offset, its aperture, and the word count it may have. -/
theorem Region.words_fit (g : Region) (p : Params) (h : p.wf) : 4 * g.words p ≤ g.aperture := by
  obtain ⟨-, ⟨⟨hr, hr'⟩, hc, hc'⟩, ha, ⟨hb, hb'⟩, -⟩ := h
  have hp : 4 * ((p.rmax / 2) * (p.cmax / 2)) ≤ p.rmax * p.cmax := by
    have h1 := Nat.mul_le_mul (Nat.mul_div_le p.rmax 2) (Nat.mul_div_le p.cmax 2)
    have h2 : 2 * (p.rmax / 2) * (2 * (p.cmax / 2)) = 4 * ((p.rmax / 2) * (p.cmax / 2)) := by ring
    omega
  cases g <;> simp only [Region.words, Region.aperture, Params.fmax, Params.pmax] <;> omega

/-- An implemented window word is selected by its offset, and by no other access. -/
theorem targetAt_word (p : Params) (g : Region) (w : Nat) (hp : p.wf) (hw : w < g.words p) :
    targetAt p (g.start + 4 * w) = some (.word g w) := by
  have hfit := g.words_fit p hp
  have hreg : Reg.ofOffset (g.start + 4 * w) = none := Reg.ofOffset_high (by cases g <;> simp only [Region.start] <;> omega)
  have hself : g.wordAt p (g.start + 4 * w) = some w := by
    unfold Region.wordAt
    rw [if_pos (by omega), Nat.add_sub_cancel_left, Nat.mul_div_cancel_left _ (by omega)]
  have hother : ∀ g' : Region, g' ≠ g → g'.wordAt p (g.start + 4 * w) = none := fun g' hne => by
    unfold Region.wordAt
    rw [if_neg]
    rintro ⟨h1, h2, -⟩
    cases g <;> cases g' <;> simp only [Region.start, Region.aperture, ne_eq, not_true_eq_false] at * <;> omega
  unfold targetAt
  rw [hreg]
  cases g <;> simp [List.findSome?, hself, hother]

/-- What a selected target is: a register at its offset, or an implemented word of a window. -/
theorem targetAt_cases {p : Params} {off : Nat} {t : Target} (h : targetAt p off = some t) :
    (∃ r, t = .reg r ∧ r.offset = off)
      ∨ ∃ g w, t = .word g w ∧ g.start ≤ off ∧ off < g.start + g.aperture ∧ w = (off - g.start) / 4 ∧ w < g.words p := by
  unfold targetAt at h
  split at h
  case h_1 r hr => exact .inl ⟨r, (Option.some.inj h).symm, Reg.offset_of_ofOffset hr⟩
  case h_2 =>
    obtain ⟨g, -, hg⟩ := List.exists_of_findSome?_eq_some h
    obtain ⟨w, hw, rfl⟩ := Option.map_eq_some_iff.1 hg
    unfold Region.wordAt at hw
    split at hw
    case isTrue hc => exact .inr ⟨g, w, rfl, hc.1, hc.2.1, (Option.some.inj hw).symm, by
      rw [← Option.some.inj hw]; exact hc.2.2⟩
    case isFalse => cases hw

/-- When an access is served: it is 32 bits wide, aligned, and something stands there. -/
theorem decodeAccess_eq_ok {p : Params} {width off : Nat} {t : Target} :
    decodeAccess p width off = .ok t ↔ width = 32 ∧ off % 4 = 0 ∧ targetAt p off = some t := by
  unfold decodeAccess
  split
  case isTrue h => simp; omega
  case isFalse h =>
    split
    case isTrue h' => simp; omega
    case isFalse h' =>
      cases targetAt p off with
      | none => simp
      | some t' =>
        simp only [Except.ok.injEq, Option.some.injEq]
        constructor
        · rintro rfl
          exact ⟨by omega, by omega, rfl⟩
        · exact fun h => h.2.2

/-! ### Accesses -/

/-- Everything an access can do when it ends in a next state: nothing, or one target served. -/
theorem busAccess_cases {a : BusAccess} {s t : State} (h : busAccess a s = .next t) :
    ((a.addr < s.params.base ∨ s.params.base + 2 ^ 27 ≤ a.addr) ∧ t = s)
      ∨ ∃ off tgt, a.addr = s.params.base + off ∧ off < 2 ^ 27 ∧ a.width = 32 ∧ off % 4 = 0
        ∧ targetAt s.params off = some tgt
        ∧ t = { (s.serve tgt a.op).2 with reply := some (s.serve tgt a.op).1 } := by
  unfold busAccess at h
  split at h
  case h_1 hoff =>
    unfold offsetOf regionSize at hoff
    split at hoff
    · cases hoff
    · exact .inl ⟨by omega, (Host.Outcome.next.inj h).symm⟩
  case h_2 off hoff =>
    unfold offsetOf regionSize at hoff
    split at hoff
    case isFalse => cases hoff
    case isTrue hin =>
      obtain rfl := Option.some.inj hoff
      split at h
      case h_1 => cases h
      case h_2 tgt ht =>
        obtain ⟨h1, h2, h3⟩ := decodeAccess_eq_ok.1 ht
        exact .inr ⟨_, tgt, by omega, by omega, h1, h2, h3, (Host.Outcome.next.inj h).symm⟩

/-- An access to an offset that decodes is served. -/
theorem busAccess_served (s : State) (off : Nat) (op : BusOp) {tgt : Target} (hoff : off < 2 ^ 27) (h4 : off % 4 = 0)
    (ht : targetAt s.params off = some tgt) :
    busAccess { addr := s.params.base + off, width := 32, op := op } s
      = .next { (s.serve tgt op).2 with reply := some (s.serve tgt op).1 } := by
  have h1 : offsetOf s.params (s.params.base + off) = some off := by
    unfold offsetOf regionSize
    rw [if_pos (by omega), Nat.add_sub_cancel_left]
  have h2 : decodeAccess s.params 32 off = .ok tgt := decodeAccess_eq_ok.2 ⟨rfl, h4, ht⟩
  simp only [busAccess, h1, h2]

/-- An access to a register is served. -/
theorem busAccess_reg (s : State) (r : Reg) (op : BusOp) :
    busAccess { addr := s.params.base + r.offset, width := 32, op := op } s
      = .next { (s.serve (.reg r) op).2 with reply := some (s.serve (.reg r) op).1 } := by
  have := r.offset_le
  exact busAccess_served s _ op (by omega) this.2 (by simp [targetAt])

/-- An access to an implemented window word is served. -/
theorem busAccess_word (s : State) (g : Region) (w : Nat) (op : BusOp) (hp : s.params.wf) (hw : w < g.words s.params) :
    busAccess { addr := s.params.base + (g.start + 4 * w), width := 32, op := op } s
      = .next { (s.serve (.word g w) op).2 with reply := some (s.serve (.word g w) op).1 } := by
  have := g.words_fit s.params hp
  refine busAccess_served s _ op ?_ ?_ (targetAt_word _ g w hp hw) <;>
    cases g <;> simp only [Region.start, Region.aperture] at * <;> omega

/-- No access is refused. -/
theorem busAccess_not_refused (a : BusAccess) (s : State) (r : Refusal) : busAccess a s ≠ .refused r := by
  unfold busAccess
  split
  · simp
  · split <;> simp

/-! ### What serving an access leaves alone -/

/-- A read changes at most the draw counter, and only while a command runs. -/
theorem State.serveRead_state (s : State) (t : Target) :
    (s.serveRead t).2 = s ∨ (s.busy = true ∧ (s.serveRead t).2 = { s with drawCount := s.drawCount + 1 }) := by
  unfold State.serveRead
  split
  case isTrue h => exact .inr ⟨by simp_all, rfl⟩
  case isFalse => exact .inl rfl

/-- A write to a target that is not the command register, CTRL or STATUS changes nothing while a command runs. -/
theorem State.writeTarget_busy {s : State} (h : s.busy = true) {t : Target} (v : Word) (h1 : t ≠ .reg .ctrl)
    (h2 : t ≠ .reg .status) (h3 : t ≠ .reg .cmd) : s.writeTarget t v = s := by
  cases t with
  | word g w => simp [State.writeTarget, h]
  | reg r => cases r <;> simp_all [State.writeTarget, State.writeReg]

/-- No write changes the parameters. -/
@[simp] theorem State.writeTarget_params (s : State) (t : Target) (v : Word) : (s.writeTarget t v).params = s.params := by
  cases t with
  | word g w =>
    simp only [State.writeTarget]
    split
    · rfl
    · cases g <;> rfl
  | reg r =>
    cases r <;> simp only [State.writeTarget, State.writeReg, State.writeCtrl, State.writeCmd, State.storeReg] <;>
      (try split) <;> (try split) <;> rfl

/-- No access changes the parameters. -/
@[simp] theorem State.serve_params (s : State) (t : Target) (op : BusOp) : (s.serve t op).2.params = s.params := by
  cases op with
  | write v => exact s.writeTarget_params t v
  | read =>
    obtain h | ⟨-, h⟩ := s.serveRead_state t
    · exact congrArg State.params (h : (s.serve t .read).2 = s)
    · simp only [State.serve, h]

end Sys2Proof.Machine
end

