-- ==== Sys2Proof/Laws/Haar.lean ====
section
/-! SUPPORT. The laws of the Haar transform pair: the size of a matrix and what stands at each row and column. -/

namespace Sys2Proof.Machine

@[simp] theorem size_tabulate (rows cols : Nat) (f : Nat → Nat → F64) : (tabulate rows cols f).size = rows * cols := by
  simp [tabulate]

/-- Row-major places of a matrix. -/
theorem rowMajor_lt {rows cols r c : Nat} (hr : r < rows) (hc : c < cols) : r * cols + c < rows * cols := by
  have : (r + 1) * cols ≤ rows * cols := Nat.mul_le_mul_right _ hr
  rw [Nat.add_mul, Nat.one_mul] at this
  omega

theorem rowMajor_div {cols r c : Nat} (hc : c < cols) : (r * cols + c) / cols = r := by
  rw [Nat.mul_comm, Nat.mul_add_div (by omega), Nat.div_eq_of_lt hc, Nat.add_zero]

theorem rowMajor_mod {cols r c : Nat} (hc : c < cols) : (r * cols + c) % cols = c := by
  rw [Nat.mul_comm, Nat.mul_add_mod, Nat.mod_eq_of_lt hc]

/-- What a tabulated matrix holds at a row and a column. -/
theorem elemAt_tabulate {rows cols r c : Nat} (f : Nat → Nat → F64) (hr : r < rows) (hc : c < cols) :
    elemAt cols (tabulate rows cols f) r c = f r c := by
  simp [elemAt, tabulate, Array.getD, rowMajor_lt hr hc, rowMajor_div hc, rowMajor_mod hc]

/-- Every element of a tabulated matrix, by row and column. -/
theorem allFinite_tabulate {rows cols : Nat} (f : Nat → Nat → F64) :
    allFinite (tabulate rows cols f) = true ↔ ∀ r c, r < rows → c < cols → f64Finite (f r c) = true := by
  simp only [allFinite, tabulate, List.all_eq_true, List.mem_map, List.mem_range, forall_exists_index, and_imp,
    forall_apply_eq_imp_iff₂]
  constructor
  · intro h r c hr hc
    simpa [rowMajor_div hc, rowMajor_mod hc] using h _ (rowMajor_lt hr hc)
  · intro h e he
    have hcols : 0 < cols := Nat.pos_of_ne_zero (by rintro rfl; simp at he)
    exact h _ _ (Nat.div_lt_of_lt_mul (by rwa [Nat.mul_comm])) (Nat.mod_lt _ hcols)

/-- Every element of a matrix, by place. -/
theorem allFinite_iff (x : Array F64) : allFinite x = true ↔ ∀ e, e < x.size → f64Finite (x.getD e 0) = true := by
  simp only [allFinite, List.all_eq_true, Array.mem_toList_iff, Array.mem_iff_getElem, forall_exists_index]
  constructor
  · intro h e he
    simpa [Array.getD, he] using h _ e he rfl
  · rintro h _ e he rfl
    simpa [Array.getD, he] using h e he

@[simp] theorem size_haarFwd (rows cols : Nat) (x : Array F64) : (haarFwd rows cols x).size = rows * cols := by
  simp [haarFwd]

@[simp] theorem size_haarInv (rows cols : Nat) (x : Array F64) : (haarInv rows cols x).size = rows * cols := by
  simp [haarInv]

/-- The four sub-bands of a forward transform, block by block: the row pass and then the column pass. -/
theorem elemAt_haarFwd {rows cols i j : Nat} (x : Array F64) (hr : rows % 2 = 0) (hc : cols % 2 = 0) (hi : i < rows / 2)
    (hj : j < cols / 2) :
    let a := elemAt cols x (2 * i) (2 * j)
    let b := elemAt cols x (2 * i) (2 * j + 1)
    let c := elemAt cols x (2 * i + 1) (2 * j)
    let d := elemAt cols x (2 * i + 1) (2 * j + 1)
    elemAt cols (haarFwdRows rows cols x) (2 * i) j = f64Half (f64Add a b)
      ∧ elemAt cols (haarFwdRows rows cols x) (2 * i + 1) j = f64Half (f64Add c d)
      ∧ elemAt cols (haarFwdRows rows cols x) (2 * i) (cols / 2 + j) = f64Half (f64Sub a b)
      ∧ elemAt cols (haarFwdRows rows cols x) (2 * i + 1) (cols / 2 + j) = f64Half (f64Sub c d)
      ∧ elemAt cols (haarFwd rows cols x) i j = f64Half (f64Add (f64Half (f64Add a b)) (f64Half (f64Add c d)))
      ∧ elemAt cols (haarFwd rows cols x) i (cols / 2 + j) = f64Half (f64Add (f64Half (f64Sub a b)) (f64Half (f64Sub c d)))
      ∧ elemAt cols (haarFwd rows cols x) (rows / 2 + i) j = f64Half (f64Sub (f64Half (f64Add a b)) (f64Half (f64Add c d)))
      ∧ elemAt cols (haarFwd rows cols x) (rows / 2 + i) (cols / 2 + j)
        = f64Half (f64Sub (f64Half (f64Sub a b)) (f64Half (f64Sub c d))) := by
  intro a b c d
  have h1 : elemAt cols (haarFwdRows rows cols x) (2 * i) j = f64Half (f64Add a b) := by
    rw [haarFwdRows, elemAt_tabulate _ (by omega) (by omega), rowForward, if_pos hj]
  have h2 : elemAt cols (haarFwdRows rows cols x) (2 * i + 1) j = f64Half (f64Add c d) := by
    rw [haarFwdRows, elemAt_tabulate _ (by omega) (by omega), rowForward, if_pos hj]
  have h3 : elemAt cols (haarFwdRows rows cols x) (2 * i) (cols / 2 + j) = f64Half (f64Sub a b) := by
    rw [haarFwdRows, elemAt_tabulate _ (by omega) (by omega), rowForward, if_neg (by omega), Nat.add_sub_cancel_left]
  have h4 : elemAt cols (haarFwdRows rows cols x) (2 * i + 1) (cols / 2 + j) = f64Half (f64Sub c d) := by
    rw [haarFwdRows, elemAt_tabulate _ (by omega) (by omega), rowForward, if_neg (by omega), Nat.add_sub_cancel_left]
  refine ⟨h1, h2, h3, h4, ?_, ?_, ?_, ?_⟩
  · rw [haarFwd, elemAt_tabulate _ (by omega) (by omega), colForward, if_pos hi, h1, h2]
  · rw [haarFwd, elemAt_tabulate _ (by omega) (by omega), colForward, if_pos hi, h3, h4]
  · rw [haarFwd, elemAt_tabulate _ (by omega) (by omega), colForward, if_neg (by omega), Nat.add_sub_cancel_left, h1, h2]
  · rw [haarFwd, elemAt_tabulate _ (by omega) (by omega), colForward, if_neg (by omega), Nat.add_sub_cancel_left, h3, h4]

/-- The four samples of an inverse transform, block by block: the column pass and then the row pass. -/
theorem elemAt_haarInv {rows cols i j : Nat} (x : Array F64) (hr : rows % 2 = 0) (hc : cols % 2 = 0) (hi : i < rows / 2)
    (hj : j < cols / 2) :
    let ll := elemAt cols x i j
    let lh := elemAt cols x i (cols / 2 + j)
    let hl := elemAt cols x (rows / 2 + i) j
    let hh := elemAt cols x (rows / 2 + i) (cols / 2 + j)
    elemAt cols (haarInvCols rows cols x) (2 * i) j = f64Add ll hl
      ∧ elemAt cols (haarInvCols rows cols x) (2 * i + 1) j = f64Sub ll hl
      ∧ elemAt cols (haarInvCols rows cols x) (2 * i) (cols / 2 + j) = f64Add lh hh
      ∧ elemAt cols (haarInvCols rows cols x) (2 * i + 1) (cols / 2 + j) = f64Sub lh hh
      ∧ elemAt cols (haarInv rows cols x) (2 * i) (2 * j) = f64Add (f64Add ll hl) (f64Add lh hh)
      ∧ elemAt cols (haarInv rows cols x) (2 * i) (2 * j + 1) = f64Sub (f64Add ll hl) (f64Add lh hh)
      ∧ elemAt cols (haarInv rows cols x) (2 * i + 1) (2 * j) = f64Add (f64Sub ll hl) (f64Sub lh hh)
      ∧ elemAt cols (haarInv rows cols x) (2 * i + 1) (2 * j + 1) = f64Sub (f64Sub ll hl) (f64Sub lh hh) := by
  intro ll lh hl hh
  have e0 : ∀ k, 2 * k % 2 = 0 ∧ (2 * k + 1) % 2 ≠ 0 ∧ 2 * k / 2 = k ∧ (2 * k + 1) / 2 = k := fun k => by omega
  obtain ⟨i0, i1, i2, i3⟩ := e0 i
  obtain ⟨j0, j1, j2, j3⟩ := e0 j
  have h1 : elemAt cols (haarInvCols rows cols x) (2 * i) j = f64Add ll hl := by
    rw [haarInvCols, elemAt_tabulate _ (by omega) (by omega), colInverse, if_pos i0, i2]
  have h2 : elemAt cols (haarInvCols rows cols x) (2 * i + 1) j = f64Sub ll hl := by
    rw [haarInvCols, elemAt_tabulate _ (by omega) (by omega), colInverse, if_neg i1, i3]
  have h3 : elemAt cols (haarInvCols rows cols x) (2 * i) (cols / 2 + j) = f64Add lh hh := by
    rw [haarInvCols, elemAt_tabulate _ (by omega) (by omega), colInverse, if_pos i0, i2]
  have h4 : elemAt cols (haarInvCols rows cols x) (2 * i + 1) (cols / 2 + j) = f64Sub lh hh := by
    rw [haarInvCols, elemAt_tabulate _ (by omega) (by omega), colInverse, if_neg i1, i3]
  refine ⟨h1, h2, h3, h4, ?_, ?_, ?_, ?_⟩
  · rw [haarInv, elemAt_tabulate _ (by omega) (by omega), rowInverse, if_pos j0, j2, h1, h3]
  · rw [haarInv, elemAt_tabulate _ (by omega) (by omega), rowInverse, if_neg j1, j3, h1, h3]
  · rw [haarInv, elemAt_tabulate _ (by omega) (by omega), rowInverse, if_pos j0, j2, h2, h4]
  · rw [haarInv, elemAt_tabulate _ (by omega) (by omega), rowInverse, if_neg j1, j3, h2, h4]

/-- MAT, by row and column of the matrix. -/
theorem State.elemAt_matrix (s : State) {r c : Nat} (hr : r < s.rowCount) (hc : c < s.colCount) :
    elemAt s.colCount s.matrix r c = s.matAt (r * s.colCount + c) :=
  s.getD_matrix (rowMajor_lt hr hc)

/-- Legal dimensions, as numbers. -/
theorem State.legalDims_iff (s : State) :
    s.legalDims = true ↔ (s.rowCount % 2 = 0 ∧ s.colCount % 2 = 0 ∧ s.rowCount ≠ 0 ∧ s.colCount ≠ 0)
      ∧ s.rowCount ≤ s.params.rmax ∧ s.colCount ≤ s.params.cmax := by
  simp only [State.legalDims, Bool.and_eq_true, beq_iff_eq, bne_iff_ne, ne_eq, decide_eq_true_eq]
  tauto

end Sys2Proof.Machine
end

