-- ==== Sys2Proof/Laws/Permutation.lean ====
section
/-! SUPPORT. The laws of the permutation generator: the shuffle swaps, and so permutes, what it is given. -/

namespace Sys2Proof.Machine

/-- An index drawn for i lies in 0 to i: the high half of a 32-bit number times i + 1. -/
theorem shuffleIndex_le (x : Word) (i : Nat) : shuffleIndex x i ≤ i := by
  have hx : x.toNat < 2 ^ 32 := x.isLt
  have : x.toNat * (i + 1) < 2 ^ 32 * (i + 1) := Nat.mul_lt_mul_of_pos_right hx (by omega)
  have := Nat.div_lt_of_lt_mul this
  unfold shuffleIndex
  omega

/-- Every pass of the shuffle rearranges the array. -/
theorem shuffleDown_perm (k : Nat) (x : Word) (p : Array Nat) : (shuffleDown k x p).Perm p := by
  induction k generalizing x p with
  | zero => exact .rfl
  | succ k ih =>
    refine (ih _ _).trans ?_
    unfold Array.swapIfInBounds
    split
    · split
      · exact Array.swap_perm _ _
      · exact .rfl
    · exact .rfl

/-- A made permutation rearranges 0 to n - 1. -/
theorem makePermutation_perm (n : Nat) (seed : Word) : (makePermutation n seed).toList.Perm (List.range n) := by
  simpa [makePermutation] using Array.perm_iff_toList_perm.1 (shuffleDown_perm (n - 1) seed (List.range n).toArray)

@[simp] theorem size_makePermutation (n : Nat) (seed : Word) : (makePermutation n seed).size = n := by
  simpa using (makePermutation_perm n seed).length_eq

theorem mem_makePermutation {n : Nat} {seed : Word} {v : Nat} (h : v ∈ (makePermutation n seed).toList) : v < n := by
  simpa using (makePermutation_perm n seed).mem_iff.1 h

theorem nodup_makePermutation (n : Nat) (seed : Word) : (makePermutation n seed).toList.Nodup :=
  (makePermutation_perm n seed).nodup_iff.2 List.nodup_range

end Sys2Proof.Machine
end

