-- ==== Sys2Proof/Laws/Qim.lean ====
section
/-! SUPPORT. The laws of the QIM engine: when a coefficient is inside its limits, the lattice index, and the vote. -/

namespace Sys2Proof.Machine

/-! ### The scaled value -/

/-- When a scaled value exists, and what it is (44_qim.md R282). -/
theorem scaled_eq_some {c q t : F64} :
    scaled c q = some t
      ↔ t = f64Div c q ∧ f64Finite c = true ∧ f64Finite t = true ∧ f64Mag t < 2 ^ 48 * 2 ^ 1074 := by
  unfold scaled
  simp only
  cases hc : f64Finite c
  · simp
  · cases ht : f64Finite (f64Div c q)
    · simp only [Bool.not_true, Bool.false_eq_true, if_false, Bool.not_false, Bool.true_or, if_true, reduceCtorEq, false_iff]
      rintro ⟨rfl, -, h, -⟩
      rw [ht] at h
      cases h
    · simp only [Bool.not_true, Bool.false_eq_true, if_false, Bool.false_or, decide_eq_true_eq]
      split
      case isTrue h =>
        simp only [reduceCtorEq, false_iff]
        rintro ⟨rfl, -, -, h'⟩
        omega
      case isFalse h =>
        simp only [Option.some.injEq]
        constructor
        · rintro rfl
          exact ⟨rfl, trivial, ht, by omega⟩
        · rintro ⟨rfl, -⟩
          rfl

/-! ### Integers near a value -/

theorem posMod_two (k : Int) : (posMod k 2 : Int) = k % 2 := by
  unfold posMod
  push_cast
  omega

/-- The nearest integer of a value less than one half above it and at most one half below. -/
theorem f64NearestInt_eq {x : F64} {k : Int} (h1 : -(2 ^ 1074) ≤ 2 * (f64Int x - k * 2 ^ 1074))
    (h2 : 2 * (f64Int x - k * 2 ^ 1074) < 2 ^ 1074) : f64NearestInt x = k := by
  unfold f64NearestInt
  have e : (2 : Int) ^ 1074 = 2 * 2 ^ 1073 := pow_succ' 2 1073
  rw [e] at h1 h2 ⊢
  have hp : (0 : Int) < 2 ^ 1073 := by positivity
  generalize (2 : Int) ^ 1073 = p at *
  rw [Int.ediv_eq_iff_of_pos (by omega)]
  constructor <;> linarith

/-- The nearest integer is within one half, and a value half-way is below it. -/
theorem f64NearestInt_spec (x : F64) :
    -(2 ^ 1074) ≤ 2 * (f64Int x - f64NearestInt x * 2 ^ 1074) ∧ 2 * (f64Int x - f64NearestInt x * 2 ^ 1074) < 2 ^ 1074 := by
  unfold f64NearestInt
  have e : (2 : Int) ^ 1074 = 2 * 2 ^ 1073 := pow_succ' 2 1073
  rw [e]
  have hp : (0 : Int) < 2 ^ 1073 := by positivity
  generalize (2 : Int) ^ 1073 = p at *
  have h1 := Int.mul_ediv_add_emod (f64Int x + p) (2 * p)
  have h2 := Int.emod_nonneg (f64Int x + p) (b := 2 * p) (by omega)
  have h3 := Int.emod_lt_of_pos (f64Int x + p) (b := 2 * p) (by omega)
  rw [Int.mul_comm] at h1
  constructor <;> linarith

/-- The lattice index has the parity asked for, and no integer of that parity is nearer (44_qim.md R283). -/
theorem latticeIndex_spec (t : F64) (b : Bit) :
    latticeIndex t b % 2 = b.toNat
      ∧ -(2 ^ 1074) ≤ f64Int t - latticeIndex t b * 2 ^ 1074 ∧ f64Int t - latticeIndex t b * 2 ^ 1074 < 2 ^ 1074 := by
  obtain ⟨h1, h2⟩ := f64NearestInt_spec t
  have hb : b.toNat < 2 := b.isLt
  have hp : (0 : Int) < 2 ^ 1074 := by positivity
  have hmod := posMod_two (f64NearestInt t)
  unfold latticeIndex
  simp only
  generalize f64NearestInt t = k at *
  generalize f64Int t = x at *
  generalize (2 : Int) ^ 1074 = p at *
  have e1 : (k + 1) * p = k * p + p := by ring
  have e2 : (k - 1) * p = k * p - p := by ring
  split
  · exact ⟨by omega, by omega, by omega⟩
  · split
    · rw [e1]; exact ⟨by omega, by omega, by omega⟩
    · rw [e2]; exact ⟨by omega, by omega, by omega⟩

/-- Everything a written coefficient comes from (44_qim.md R283). -/
theorem qimWrite_eq_some {c q c' : F64} {b : Bit} :
    qimWrite c b q = some c'
      ↔ ∃ t, scaled c q = some t ∧ (latticeIndex t b).natAbs < 2 ^ 48
        ∧ c' = f64Mul (f64OfInt (latticeIndex t b)) q ∧ f64Finite c' = true := by
  unfold qimWrite
  cases hs : scaled c q with
  | none => simp
  | some t =>
    simp only [Option.some.injEq, exists_eq_left']
    split
    case isTrue h =>
      simp only [reduceCtorEq, false_iff]
      omega
    case isFalse h =>
      split
      case isTrue hf =>
        simp only [Option.some.injEq]
        constructor
        · rintro rfl
          exact ⟨by omega, rfl, hf⟩
        · rintro ⟨-, rfl, -⟩
          rfl
      case isFalse hf =>
        simp only [reduceCtorEq, false_iff]
        rintro ⟨-, rfl, h'⟩
        exact hf h'

/-- What a coefficient reads as (44_qim.md R284). -/
theorem qimRead_eq_some {c q : F64} {b : Bit} :
    qimRead c q = some b ↔ ∃ t, scaled c q = some t ∧ b = BitVec.ofNat 1 (posMod (f64NearestInt t) 2) := by
  unfold qimRead
  cases scaled c q <;> simp [eq_comm]

/-! ### The vote -/

/-- The ones of a list of bits, counted. -/
theorem countOnes_eq (b : List Bit) : countOnes b = b.count 1 := by
  induction b with
  | nil => rfl
  | cons x b ih =>
    have hx : x = 0 ∨ x = 1 := by
      have : x.toNat = 0 ∨ x.toNat = 1 := by have := x.isLt; omega
      exact this.imp (fun h => BitVec.eq_of_toNat_eq h) (fun h => BitVec.eq_of_toNat_eq h)
    have hc : countOnes (x :: b) = x.toNat + countOnes b := by simp [countOnes]
    rw [hc, ih]
    obtain rfl | rfl := hx
    · simp
    · simp [Nat.add_comm]

/-- The vote, by the ones counted (44_qim.md R287). -/
theorem majority_eq (b : List Bit) : majority b = if b.length ≤ 2 * b.count 1 then 1 else 0 := by
  rw [majority, countOnes_eq]

end Sys2Proof.Machine
end

