-- ==== Sys2Proof/Laws/FrameMux.lean ====
section
/-! SUPPORT. The laws of the frame multiplexer: the frame bit by bit, the sites that carry it, and what embedding and voting do. -/

namespace Sys2Proof.Machine

/-! ### The frame -/

@[simp] theorem length_frameBits (len : Word) (bs : List Byte) : (frameBits len bs).length = frameLen bs.length := by
  simp [frameBits, frameLen]

@[simp] theorem State.length_framed (s : State) : s.framed.length = frameLen s.payloadLen := by simp [State.framed]

/-- A bit of the header (45_frame_mux.md R310). -/
theorem getElem?_frameBits_header (len : Word) (bs : List Byte) {i : Nat} (h : i < 32) :
    (frameBits len bs)[i]? = some (len.extractLsb' (31 - i) 1) := by
  rw [frameBits, List.getElem?_append_left (by simpa using h), getElem?_u32ToBits _ h]

/-- A bit of the payload (45_frame_mux.md R310). -/
theorem getElem?_frameBits_payload (len : Word) (bs : List Byte) (j : Nat) {i : Nat} (h : i < 8) :
    (frameBits len bs)[32 + 8 * j + i]? = (bs[j]?).map fun b => b.extractLsb' (7 - i) 1 := by
  have e : 32 + 8 * j + i - (u32ToBits len).length = 8 * j + i := by simp; omega
  rw [frameBits, List.getElem?_append_right (by simp; omega), e, getElem?_bytesToBits _ _ h]

/-! ### The sites that carry it -/

@[simp] theorem State.size_sitePerm (s : State) : s.sitePerm.size = s.nsites := by simp [State.sitePerm]

@[simp] theorem State.length_siteAddrs (s : State) : s.siteAddrs.length = s.nsites := by simp [State.siteAddrs]

theorem State.getElem?_siteAddrs (s : State) {t : Nat} (h : t < s.nsites) :
    s.siteAddrs[t]? = some (s.siteAddr (s.sitePerm.getD t 0)) := by
  simp [State.siteAddrs, Array.getD, h]

/-- Each bit, `n` times in a row: place `k * n + r` holds bit `k`. -/
theorem getElem?_repeatBits (fb : List Bit) (n k : Nat) {r : Nat} (h : r < n) :
    (fb.flatMap fun b => List.replicate n b)[k * n + r]? = fb[k]? := by
  induction fb generalizing k with
  | nil => simp
  | cons b fb ih =>
    cases k with
    | zero => simp [List.getElem?_append, h]
    | succ k =>
      have e : (k + 1) * n + r - n = k * n + r := by rw [Nat.add_mul]; omega
      rw [List.flatMap_cons, List.getElem?_append_right (by simp [Nat.add_mul]; omega)]
      simp [e, ih]

theorem length_repeatBits (fb : List Bit) (n : Nat) : (fb.flatMap fun b => List.replicate n b).length = fb.length * n := by
  simp [List.length_flatMap]

/-- A frame that fits the capacity fits the sites (45_frame_mux.md R312). -/
theorem State.fits_iff (s : State) (f : Nat) (h : s.repCount ≠ 0) : f ≤ s.capbits ↔ f * s.repCount ≤ s.nsites := by
  rw [State.capbits, if_neg h, Nat.le_div_iff_mul_le (Nat.pos_of_ne_zero h)]

/-- The site of framed bit `k`, repetition `r`, and the bit it carries. -/
theorem State.getElem?_carriers (s : State) (fb : List Bit) {k r : Nat} (hk : k < fb.length) (hr : r < s.repCount)
    (hfit : fb.length * s.repCount ≤ s.nsites) :
    (s.carriers fb)[k * s.repCount + r]?
      = some (s.siteAddr (s.sitePerm.getD (k * s.repCount + r) 0), fb.getD k 0) := by
  have h1 := rowMajor_lt hk hr
  have h2 := getElem?_repeatBits fb s.repCount k hr
  have h3 : k * s.repCount + r < s.nsites := by omega
  rw [List.getElem?_eq_getElem hk] at h2
  have h4 : fb.getD k 0 = fb[k] := by simp [List.getD_eq_getElem?_getD, hk]
  rw [State.carriers, h4]
  exact List.getElem?_zip_eq_some.2 ⟨s.getElem?_siteAddrs h3, h2⟩

theorem State.length_carriers (s : State) (fb : List Bit) (hfit : fb.length * s.repCount ≤ s.nsites) :
    (s.carriers fb).length = fb.length * s.repCount := by
  rw [State.carriers, List.length_zip, length_repeatBits, s.length_siteAddrs]
  omega

/-! ### Embedding -/

/-- A successful embedding keeps the size, leaves every element that is no site, and at each site writes the bit it carries into
the coefficient of `x`; sites are distinct. -/
theorem embedSites_eq_some {q : F64} {x : Array F64} {l : List (Nat × Bit)} {y z : Array F64} (hd : (l.map Prod.fst).Nodup)
    (hin : ∀ c ∈ l, c.1 < y.size) (h : embedSites q x l y = some z) :
    z.size = y.size ∧ (∀ e, e ∉ l.map Prod.fst → z.getD e 0 = y.getD e 0)
      ∧ ∀ c ∈ l, qimWrite (x.getD c.1 0) c.2 q = some (z.getD c.1 0) := by
  induction l generalizing y with
  | nil =>
    obtain rfl : y = z := by simpa [embedSites] using h
    simp
  | cons c l ih =>
    obtain ⟨e, b⟩ := c
    simp only [embedSites] at h
    split at h
    case h_1 => cases h
    case h_2 v hv =>
      simp only [List.map_cons, List.nodup_cons] at hd
      obtain ⟨h1, h2, h3⟩ := ih hd.2 (fun c hc => by simpa using hin c (.tail _ hc)) h
      have he : e < y.size := hin _ (.head _)
      refine ⟨by simpa using h1, fun a ha => ?_, fun c hc => ?_⟩
      · simp only [List.map_cons, List.mem_cons, not_or] at ha
        rw [h2 a ha.2]
        simp [Array.getD_eq_getD_getElem?, Ne.symm ha.1]
      · obtain rfl | hc := List.mem_cons.1 hc
        · rw [hv, h2 _ hd.1]
          simp [Array.getD_eq_getD_getElem?, he]
        · exact h3 c hc

/-- An embedding fails exactly when a site cannot be written. -/
theorem embedSites_eq_none {q : F64} {x : Array F64} {l : List (Nat × Bit)} {y : Array F64} :
    embedSites q x l y = none ↔ ∃ c ∈ l, qimWrite (x.getD c.1 0) c.2 q = none := by
  induction l generalizing y with
  | nil => simp [embedSites]
  | cons c l ih =>
    obtain ⟨e, b⟩ := c
    simp only [embedSites, List.mem_cons, exists_eq_or_imp]
    cases hv : qimWrite (x.getD e 0) b q with
    | none => simp
    | some v => simp [ih]

/-! ### Voting -/

/-- Reading sites succeeds with the bits that each of them reads as. -/
theorem readSites_eq_some {q : F64} {x : Array F64} {l : List Nat} {b : List Bit} :
    readSites q x l = some b ↔ l.map (fun e => qimRead (x.getD e 0) q) = b.map some := by
  induction l generalizing b with
  | nil => cases b <;> simp [readSites]
  | cons e l ih =>
    simp only [readSites, List.map_cons]
    cases b with
    | nil =>
      simp only [List.map_nil, reduceCtorEq, iff_false]
      split <;> simp
    | cons a b =>
      rw [List.map_cons, List.cons.injEq, ← ih]
      cases qimRead (x.getD e 0) q <;> cases readSites q x l <;> simp

/-- Reading sites fails exactly when one of them does. -/
theorem readSites_eq_none {q : F64} {x : Array F64} {l : List Nat} :
    readSites q x l = none ↔ ∃ e ∈ l, qimRead (x.getD e 0) q = none := by
  induction l with
  | nil => simp [readSites]
  | cons e l ih =>
    simp only [readSites, List.mem_cons, exists_eq_or_imp, ← ih]
    cases qimRead (x.getD e 0) q <;> cases readSites q x l <;> simp

/-- Votes succeed when every group of sites reads, each with its majority. -/
theorem votes_eq_some {q : F64} {x : Array F64} {reps n : Nat} {sites : List Nat} {b : List Bit} :
    votes q x reps n sites = some b
      ↔ b.length = n ∧ ∀ k, k < n → ∃ g, readSites q x ((sites.drop (k * reps)).take reps) = some g
        ∧ b.getD k 0 = majority g := by
  induction n generalizing sites b with
  | zero => cases b <;> simp [votes]
  | succ n ih =>
    simp only [votes]
    constructor
    · intro h
      split at h
      case h_2 => cases h
      case h_1 g bs hg hbs =>
        obtain rfl := Option.some.inj h
        obtain ⟨h1, h2⟩ := ih.1 hbs
        refine ⟨by simp [h1], fun k hk => ?_⟩
        cases k with
        | zero => exact ⟨g, by simpa using hg, by simp⟩
        | succ k =>
          obtain ⟨g', h3, h4⟩ := h2 k (by omega)
          rw [List.drop_drop] at h3
          exact ⟨g', by rw [Nat.add_mul, Nat.one_mul, Nat.add_comm]; exact h3, by simpa using h4⟩
    · rintro ⟨h1, h2⟩
      obtain ⟨g, hg, hb⟩ := h2 0 (by omega)
      cases b with
      | nil => simp at h1
      | cons a b =>
        have hbs : votes q x reps n (sites.drop reps) = some b := by
          refine ih.2 ⟨by simpa using h1, fun k hk => ?_⟩
          obtain ⟨g', h3, h4⟩ := h2 (k + 1) (by omega)
          rw [List.drop_drop]
          exact ⟨g', by rw [Nat.add_mul, Nat.one_mul, Nat.add_comm] at h3; exact h3, by simpa using h4⟩
        simp only [Nat.zero_mul, List.drop_zero] at hg
        simp only [hg, hbs]
        simpa using hb.symm

/-- Votes fail exactly when a site of one of the groups does not read. -/
theorem votes_eq_none {q : F64} {x : Array F64} {reps n : Nat} {sites : List Nat} :
    votes q x reps n sites = none ↔ ∃ k, k < n ∧ readSites q x ((sites.drop (k * reps)).take reps) = none := by
  induction n generalizing sites with
  | zero => simp [votes]
  | succ n ih =>
    rw [← Nat.or_exists_add_one]
    simp only [votes, Nat.zero_mul, List.drop_zero, Nat.zero_lt_succ, true_and, Nat.add_lt_add_iff_right]
    have e : ∀ k, (sites.drop ((k + 1) * reps)).take reps = ((sites.drop reps).drop (k * reps)).take reps := fun k => by
      rw [List.drop_drop, Nat.add_mul, Nat.one_mul, Nat.add_comm]
    simp only [e, ← ih]
    cases readSites q x (sites.take reps) <;> cases votes q x reps n (sites.drop reps) <;> simp

end Sys2Proof.Machine
end

