-- ==== Sys2Proof/Laws/HostProgram.lean ====
section
/-! SUPPORT. The laws of the host: what a reading statement does, and that a line's listing shows the accesses, the way and the
value of the statements it expands to. -/

namespace Sys2Proof.Machine

/-- The accesses that a listing shows of a line are those of its statements (30_encoding.md R153). -/
theorem HostLine.accesses_listing {l : HostLine} {find : String → Option Nat} {at_ : Nat} {xs : List HostStmt}
    {answers left : List Word} {items : List ListItem} {dest : Option String} (p : Params)
    (hx : l.expand find at_ = some xs) (hl : l.listing answers = some (items, left, dest)) :
    items.filterMap (fun x => x.access p) = xs.filterMap fun st => st.access p := by
  cases l
  case beq r mask v name =>
    simp only [HostLine.expand, Option.map_eq_some_iff] at hx
    obtain ⟨t, -, rfl⟩ := hx
    cases answers <;> simp only [HostLine.listing, reduceCtorEq, Option.some.injEq, Prod.mk.injEq] at hl
    obtain ⟨rfl, -⟩ := hl
    rfl
  case bne r mask v name =>
    simp only [HostLine.expand, Option.map_eq_some_iff] at hx
    obtain ⟨t, -, rfl⟩ := hx
    cases answers <;> simp only [HostLine.listing, reduceCtorEq, Option.some.injEq, Prod.mk.injEq] at hl
    obtain ⟨rfl, -⟩ := hl
    rfl
  case goto name =>
    simp only [HostLine.expand, Option.map_eq_some_iff] at hx
    obtain ⟨t, -, rfl⟩ := hx
    simp only [HostLine.listing, Option.some.injEq, Prod.mk.injEq] at hl
    obtain ⟨rfl, -⟩ := hl
    rfl
  all_goals
    simp only [HostLine.expand, Option.some.injEq] at hx
    subst hx
    rcases answers with _ | ⟨a, _ | ⟨b, as⟩⟩ <;>
      simp only [HostLine.listing, reduceCtorEq, Option.some.injEq, Prod.mk.injEq] at hl <;>
      obtain ⟨rfl, -⟩ := hl <;> rfl

/-- The way that a listing shows of a branch on the value `a` is the way the host takes (30_encoding.md R151, R153). -/
theorem HostLine.way_listing {l : HostLine} {find : String → Option Nat} {at_ target : Nat} {st : HostStmt} {name : String}
    {a : Word} {items : List ListItem} {left : List Word} {dest : Option String}
    (h : (∃ r mask v, l = .beq r mask v name) ∨ (∃ r mask v, l = .bne r mask v name) ∨ l = .goto name)
    (hf : find name = some target) (hx : l.expand find at_ = some [st]) (hl : l.listing [a] = some (items, left, dest)) :
    st.nextPc at_ (some (.data a)) = dest.elim (at_ + 1) fun _ => target := by
  obtain ⟨r, mask, v, rfl⟩ | ⟨r, mask, v, rfl⟩ | rfl := h
  all_goals
    simp only [HostLine.expand, hf, Option.map_some, Option.some.injEq, List.cons.injEq, and_true] at hx
    simp only [HostLine.listing, Option.some.injEq, Prod.mk.injEq] at hl
    obtain ⟨-, -, rfl⟩ := hl
    subst hx
    simp only [HostStmt.nextPc, BusReply.value]
  · by_cases h : a &&& mask = v <;> simp [h]
  · by_cases h : a &&& mask = v <;> simp [h]
  · rfl

/-- The value that a listing writes after the two reads of an `rdm` is the value of the line (30_encoding.md R151). -/
theorem HostLine.rdm_listing (e : Nat) (a b : Word) (as : List Word) :
    ∃ x, (HostLine.rdm e).value [some b, some a] = some (.double x)
      ∧ (HostLine.rdm e).listing (a :: b :: as)
        = some ([.read (Region.mat.wordOffset (2 * e)) a, .read (Region.mat.wordOffset (2 * e + 1)) b, .double x], as, none) :=
  ⟨_, rfl, rfl⟩

/-! ### What a reading statement does -/

/-- A read of the block at an offset of its region answers the value in the reply. -/
theorem accessAt_read_answer (p : Params) {off : Nat} (h : off < 2 ^ 27) (reply : Option BusReply) :
    (accessAt p off .read).answer p reply = [some (BusReply.value reply)] := by
  simp [BusAccess.answer, accessAt, offsetOf, regionSize]
  omega

/-- An `rd` keeps the value of its register and goes on. -/
theorem hostStatement_rd (s : State) (r : Reg) :
    hostStatement (.rd r) s = .next
      { (s.serveRead (.reg r)).2 with
        reply := some (.data (s.serveRead (.reg r)).1)
        host.pc := s.host.pc + 1
        host.reads := some (s.serveRead (.reg r)).1 :: s.host.reads } := by
  have hoff := r.offset_le
  have hr : busAccess (accessAt s.params r.offset .read) s = _ := busAccess_reg s r .read
  simp only [hostStatement, HostStmt.access, hr, accessAt_read_answer s.params (show r.offset < 2 ^ 27 by omega)]
  obtain h | ⟨-, h⟩ := s.serveRead_state (.reg r) <;> simp only [State.serve, h] <;> rfl

/-- An `rdw` of an implemented word keeps its value and goes on. -/
theorem hostStatement_rdw (s : State) (g : Region) (w : Nat) (hp : s.params.wf) (hw : w < g.words s.params) :
    hostStatement (.rdw g w) s = .next
      { (s.serveRead (.word g w)).2 with
        reply := some (.data (s.serveRead (.word g w)).1)
        host.pc := s.host.pc + 1
        host.reads := some (s.serveRead (.word g w)).1 :: s.host.reads } := by
  have hfit := g.words_fit s.params hp
  have hoff : g.wordOffset w < 2 ^ 27 := by
    cases g <;> simp only [Region.wordOffset, Region.start, Region.aperture] at * <;> omega
  have hr : busAccess (accessAt s.params (g.wordOffset w) .read) s = _ := busAccess_word s g w .read hp hw
  simp only [hostStatement, HostStmt.access, hr, accessAt_read_answer s.params hoff]
  obtain h | ⟨-, h⟩ := s.serveRead_state (.word g w) <;> simp only [State.serve, h] <;> rfl

end Sys2Proof.Machine
end

