-- ==== Sys2Proof/Laws/PerInstr.lean ====
section
/-! SUPPORT. The family EncodeFields: the two fields of every command's word (30_encoding.md R141, R143). -/

namespace Sys2Proof.Laws.EncodeFields

/-- The word of a command is well formed: RSV is 0 and OPC is the command's opcode, an assigned one. -/
def Statement (i : Instr) : Prop :=
  CommandWord.wf (encode i) ∧ rsvField (encode i) = 0 ∧ opcField (encode i) = opcode i

theorem nop : Statement .nop := by unfold Statement; decide
theorem b2bits : Statement .b2bits := by unfold Statement; decide
theorem bits2b : Statement .bits2b := by unfold Statement; decide
theorem u32bits : Statement .u32bits := by unfold Statement; decide
theorem bitsu32 : Statement .bitsu32 := by unfold Statement; decide
theorem posmod : Statement .posmod := by unfold Statement; decide
theorem permgen : Statement .permgen := by unfold Statement; decide
theorem fwd : Statement .fwd := by unfold Statement; decide
theorem inv : Statement .inv := by unfold Statement; decide
theorem qwrite : Statement .qwrite := by unfold Statement; decide
theorem qread : Statement .qread := by unfold Statement; decide
theorem frame : Statement .frame := by unfold Statement; decide
theorem embed : Statement .embed := by unfold Statement; decide
theorem extract : Statement .extract := by unfold Statement; decide
theorem embedf : Statement .embedf := by unfold Statement; decide
theorem extractf : Statement .extractf := by unfold Statement; decide

end Sys2Proof.Laws.EncodeFields
end

