-- ==== Sys2Proof/Laws/Step.lean ====
section
/-! SUPPORT. The laws of a step: whose turn it is, and everything each turn can do. -/

namespace Sys2Proof.Machine

@[simp] theorem State.busy_eq (s : State) : s.busy = s.inflight.isSome := rfl

/-- A step is one turn, of the agenda's next agent or of the default one. -/
theorem step_cases {s t : State} (h : step s = .next t) :
    (s.agenda = [] ∧ turn s.defaultTurn s = .next t)
      ∨ ∃ who rest, s.agenda = who :: rest ∧ turn who { s with agenda := rest } = .next t := by
  unfold step at h
  split at h
  case h_1 ha => exact .inl ⟨ha, h⟩
  case h_2 who rest ha => exact .inr ⟨who, rest, ha, h⟩

/-- Everything an engine turn can do. -/
theorem engineTurn_cases {s t : State} (h : engineTurn s = .next t) :
    (s.inflight = none ∧ t = s)
      ∨ (∃ w i, s.inflight = some w ∧ decodeWord w = .ok i ∧ exec i s = .next t)
      ∨ ∃ w e, s.inflight = some w ∧ decodeWord w = .error e ∧ t = s.fail .illegalCmd := by
  unfold engineTurn at h
  split at h
  case h_1 hi => exact .inl ⟨hi, (Host.Outcome.next.inj h).symm⟩
  case h_2 w hi =>
    split at h
    case h_1 i hd => exact .inr (.inl ⟨w, i, hi, hd, h⟩)
    case h_2 e hd => exact .inr (.inr ⟨w, e, hi, hd, (Host.Outcome.next.inj h).symm⟩)

/-- Everything a host turn can do: nothing, a move without an access, or one access, whose value it keeps, and a move. -/
theorem hostTurn_cases {s t : State} (h : hostTurn s = .next t) :
    t = s ∨ (∃ pc, t = { s with host.pc := pc }) ∨ ∃ a u pc, busAccess a s = .next u
        ∧ t = { u with host.pc := pc, host.reads := a.answer s.params u.reply ++ s.host.reads } := by
  unfold hostTurn at h
  split at h
  case h_1 => exact .inl (Host.Outcome.next.inj h).symm
  case h_2 st _ =>
    unfold hostStatement at h
    split at h
    case h_1 => exact .inr (.inl ⟨_, (Host.Outcome.next.inj h).symm⟩)
    case h_2 a _ =>
      split at h
      case h_1 u hu => exact .inr (.inr ⟨a, u, _, hu, (Host.Outcome.next.inj h).symm⟩)
      case h_2 => cases h
      case h_3 => cases h

/-- A property that the engine, an access, a hard reset and a change of the host keep is kept by every step. -/
theorem step_induction {P : State → Prop} {s t : State} (h : step s = .next t) (hs : P s)
    (agenda : ∀ {u : State} {rest : List Turn}, P u → P { u with agenda := rest })
    (host : ∀ {u : State} {h : HostAgent}, P u → P { u with host := h })
    (engine : ∀ {u v : State}, P u → engineTurn u = .next v → P v)
    (bus : ∀ {u v : State} {a : BusAccess}, P u → busAccess a u = .next v → P v)
    (reset : ∀ {u : State}, P u → P u.hardReset) : P t := by
  have hturn : ∀ {who : Turn} {u v : State}, P u → turn who u = .next v → P v := by
    intro who u v hu hv
    cases who with
    | engine => exact engine hu hv
    | bus a => exact bus hu hv
    | hardReset => exact Host.Outcome.next.inj hv ▸ reset hu
    | host =>
      obtain rfl | ⟨n, rfl⟩ | ⟨a, w, n, ha, rfl⟩ := hostTurn_cases hv
      · exact hu
      · exact host hu
      · exact host (bus hu ha)
  obtain ⟨-, h⟩ | ⟨who, rest, -, h⟩ := step_cases h
  · exact hturn hs h
  · exact hturn (agenda hs) h

/-! ### Runs -/

@[simp] theorem core_run_zero (s : State) : Sys2Proof.core.run 0 s = .next s := rfl

theorem core_run_next {s t : State} (h : step s = .next t) (n : Nat) :
    Sys2Proof.core.run (n + 1) s = Sys2Proof.core.run n t := by
  have h' : Sys2Proof.core.step s = .next t := h
  simp only [Host.Core.run, h']

theorem core_run_fault {s : State} {f : Fault} (h : step s = .fault f) (n : Nat) :
    Sys2Proof.core.run (n + 1) s = .fault f := by
  have h' : Sys2Proof.core.step s = .fault f := h
  simp only [Host.Core.run, h']

end Sys2Proof.Machine
end

