-- ==== Sys2Proof/Tests/Slice0.lean ====
section
/-! SUPPORT. The model's own tests: ill-formed terms, words of the encoding, one step of each command on the spec's own vectors
(95_test_vectors.md; the section of a vector is in its comment), and a witness for the hypotheses of each obligation. -/

namespace Sys2Proof.Tests

-- One kernel check at a time: checks that wait for one another hold a thread each.
set_option Elab.async false

open Sys2Proof Sys2Proof.Machine Sys2Proof.Claims

/-! ### Well-formedness: an ill-formed term for each check -/

theorem test_rsv_must_be_zero : ¬ CommandWord.wf 0x00000120 := by decide
theorem test_opcode_must_be_assigned : ¬ CommandWord.wf 0x00000006 ∧ ¬ CommandWord.wf 0x000000FF := by decide
theorem test_words_of_the_map_are_wf : CommandWord.wf 0x00000000 ∧ CommandWord.wf 0x00000044 := by decide
theorem test_reference_params_are_wf : Params.reference.wf := by decide
theorem test_odd_rmax_is_refused : ¬ Params.evenDims { Params.reference with rmax := 255 } := by decide
theorem test_zero_cmax_is_refused : ¬ Params.dimRange { Params.reference with cmax := 0 } := by decide
theorem test_large_area_is_refused : ¬ Params.areaFits { Params.reference with rmax := 65534, cmax := 130 } := by decide
theorem test_large_bmax_is_refused : ¬ Params.byteRange { Params.reference with bmax := 65537 } := by decide
theorem test_unaligned_base_is_refused : ¬ Params.baseAligned { Params.reference with base := 0x4000000 } := by decide
theorem test_every_command_is_wf : Instr.wf .nop = true ∧ Instr.wf .extractf = true := by decide

/-! ### Words, written out bit by bit from 30_encoding.md R143: RSV (24 bits), then OPC (8 bits) -/

theorem test_decode_nop : decodeWord 0b00000000000000000000000000000000#32 = .ok .nop := by decide
theorem test_decode_b2bits : decodeWord 0b00000000000000000000000000000001#32 = .ok .b2bits := by decide
theorem test_decode_bits2b : decodeWord 0b00000000000000000000000000000010#32 = .ok .bits2b := by decide
theorem test_decode_u32bits : decodeWord 0b00000000000000000000000000000011#32 = .ok .u32bits := by decide
theorem test_decode_bitsu32 : decodeWord 0b00000000000000000000000000000100#32 = .ok .bitsu32 := by decide
theorem test_decode_posmod : decodeWord 0b00000000000000000000000000000101#32 = .ok .posmod := by decide
theorem test_decode_permgen : decodeWord 0b00000000000000000000000000010000#32 = .ok .permgen := by decide
theorem test_decode_fwd : decodeWord 0b00000000000000000000000000100000#32 = .ok .fwd := by decide
theorem test_decode_inv : decodeWord 0b00000000000000000000000000100001#32 = .ok .inv := by decide
theorem test_decode_qwrite : decodeWord 0b00000000000000000000000000110000#32 = .ok .qwrite := by decide
theorem test_decode_qread : decodeWord 0b00000000000000000000000000110001#32 = .ok .qread := by decide
theorem test_decode_frame : decodeWord 0b00000000000000000000000001000000#32 = .ok .frame := by decide
theorem test_decode_embed : decodeWord 0b00000000000000000000000001000001#32 = .ok .embed := by decide
theorem test_decode_extract : decodeWord 0b00000000000000000000000001000010#32 = .ok .extract := by decide
theorem test_decode_embedf : decodeWord 0b00000000000000000000000001000011#32 = .ok .embedf := by decide
theorem test_decode_extractf : decodeWord 0b00000000000000000000000001000100#32 = .ok .extractf := by decide

/-- The four bytes of EXTRACTF in bus order (20_memory.md R111), and a string that is too short (30_encoding.md R140). -/
theorem test_decode_bytes :
    decodeBytes [0x44, 0x00, 0x00, 0x00] = .ok .extractf ∧ decodeBytes [0x44, 0x00, 0x00] = .error .notOneWord := by decide

/-! ### Helpers -/

/-- The state of a next answer. -/
def answered (a : Answer) : Option State :=
  match a with
  | .next t => some t
  | _ => none

/-- What a command leaves, in one view of it. -/
def leaves {α : Type} (i : Instr) (s : State) (view : State → α) : Option α := (answered (exec i s)).map view

/-- The patterns of 95_test_vectors.md section 1. -/
def f1 : F64 := 0x3FF0000000000000
def f2 : F64 := 0x4000000000000000
def f2half : F64 := 0x4004000000000000
def f3 : F64 := 0x4008000000000000
def f4 : F64 := 0x4010000000000000
def f12 : F64 := 0x4028000000000000
def f24 : F64 := 0x4038000000000000
def f88 : F64 := 0x4056000000000000
def f100 : F64 := 0x4059000000000000
def f112 : F64 := 0x405C000000000000
def fMinusHalf : F64 := 0xBFE0000000000000
def fMinus1 : F64 := 0xBFF0000000000000
def fMinusZero : F64 := 0x8000000000000000
def fLargest : F64 := 0x7FEFFFFFFFFFFFFF

/-- Reset, with Q and COEF. -/
def withQ (q c : F64) : State :=
  { State.reset with regs := { Regs.reset with qLo := f64Lo q, qHi := f64Hi q, coefLo := f64Lo c, coefHi := f64Hi c } }

/-- Reset, with a matrix in MAT. -/
def withMatrix (rows cols : Nat) (xf : Bool) (y : List F64) : State :=
  ({ State.reset with
      regs := { Regs.reset with rows := BitVec.ofNat 16 rows, cols := BitVec.ofNat 16 cols }
      status := { Status.reset with xf := xf } }).setMatrix y.toArray

/-- The 14 x 14 scenario of 95_test_vectors.md section 3.5 over this matrix. -/
def scenario (xf : Bool) (y : List F64) : State :=
  let s := withMatrix 14 14 xf y
  { s with
    regs := { s.regs with qLo := f64Lo f12, qHi := f64Hi f12, seed := 1234, len := 1 }
    status := { s.status with seedValid := true }
    bytes := s.bytes.writeRange 0 [65] }

/-- The coefficients of the 14 x 14 matrix of 100.0: LL holds 100.0 and everything else +0.0. -/
def coeffList : List F64 := (List.replicate 7 (List.replicate 7 f100 ++ List.replicate 7 0)).flatten ++ List.replicate 98 0

/-- The EMBED result of section 3.5: 12.0 at the three one-bits. -/
def markedList : List F64 := ((coeffList.set 130 f12).set 141 f12).set 184 f12

/-- The frame of [65]: ones at 31, 33 and 39 (section 3.5). -/
def frameList : List Bit := (List.range 40).map fun k => if k = 31 ∨ k = 33 ∨ k = 39 then 1 else 0

def coeffs14 : State := scenario true coeffList
def marked14 : State := scenario true markedList

theorem matrix_scenario (xf : Bool) (y : List F64) (h : y.length = 196) : (scenario xf y).matrix = y.toArray :=
  State.matrix_setMatrix _ _ (by rw [List.size_toArray, h]; rfl)

theorem matAt_scenario (xf : Bool) (y : List F64) (h : y.length = 196) {e : Nat} (he : e < 196) :
    (scenario xf y).matAt e = y.toArray.getD e 0 :=
  (State.matAt_setMatrix _ _ _).trans (if_pos (by simpa [h] using he))

/-! ### One step of each command, on the vectors of 95_test_vectors.md sections 2 and 3 -/

/-- Section 4.5: NOP after reset reads STATUS 0x002. -/
theorem test_nop : leaves .nop State.reset (fun t => t.readReg .status) = some 0x002 := by decide

/-- Section 2.2: [65] to 0,1,0,0,0,0,0,1. -/
theorem test_b2bits :
    leaves .b2bits { State.reset with regs.len := 1, bytes := State.reset.bytes.writeRange 0 [65] }
      (fun t => (t.bitSlice 0 8, t.regs.bitlen)) = some ([0, 1, 0, 0, 0, 0, 0, 1], 8) := by decide

/-- Section 3.1: eleven bits to one byte, the rest dropped. -/
theorem test_bits2b :
    leaves .bits2b
      { State.reset with regs.bitlen := 11, bits := State.reset.bits.writeRange 0 [0, 1, 0, 0, 0, 0, 0, 1, 1, 0, 1] }
      (fun t => (t.byteAt 0, t.regs.len)) = some (65, 1) := by decide

/-- Section 3.1: 0xDEADBEEF at 100 starts 1101 1110. -/
theorem test_u32bits :
    leaves .u32bits { State.reset with regs.arg0 := 0xDEADBEEF, regs.off := 100 }
      (fun t => t.bitSlice 100 8) = some [1, 1, 0, 1, 1, 1, 1, 0] := by decide

/-- Section 3.1: OFF does not wrap. -/
theorem test_u32bits_no_wrap :
    leaves .u32bits { State.reset with regs.off := 0xFFFFFFFF } (fun t => t.readReg .status) = some 0x086 := by decide

/-- Section 3.1: bits 29 and 31 set read as 5. -/
theorem test_bitsu32 :
    leaves .bitsu32 { State.reset with bits := State.reset.bits.writeRange 0 (List.replicate 29 0 ++ [1, 0, 1]) }
      (fun t => t.regs.result) = some 5 := by decide

/-- Section 3.1: -7 mod 3 is 2. -/
theorem test_posmod :
    leaves .posmod { State.reset with regs.arg0 := 0xFFFFFFF9, regs.arg1 := 3 } (fun t => t.regs.result) = some 2 := by
  decide

/-- Section 3.1: -2^31 mod 2^32 - 1, ARG1 unsigned. -/
theorem test_posmod_unsigned :
    leaves .posmod { State.reset with regs.arg0 := 0x80000000, regs.arg1 := 0xFFFFFFFF } (fun t => t.regs.result)
      = some 0x7FFFFFFF := by decide

/-- Section 3.2: seed 1234, n = 8. -/
theorem test_permgen :
    leaves .permgen
      { State.reset with regs.pn := 8, regs.seed := 1234, status := { Status.reset with seedValid := true } }
      (fun t => (List.range 8).map t.permAt) = some [7, 2, 0, 3, 6, 4, 1, 5] := by decide +kernel

/-- Section 2.3: 1, 2, 3, 4. -/
theorem test_fwd :
    leaves .fwd (withMatrix 2 2 false [f1, f2, f3, f4]) (fun t => (t.matrix.toList, t.status.xf))
      = some ([f2half, fMinusHalf, fMinus1, 0], true) := by decide +kernel

/-- Section 3.3: the signs of zero. -/
theorem test_fwd_negative_zero :
    leaves .fwd (withMatrix 2 2 false (List.replicate 4 fMinusZero)) (fun t => t.matrix.toList)
      = some [fMinusZero, 0, 0, 0] := by decide +kernel

/-- Section 3.3: back to 1, 2, 3, 4. -/
theorem test_inv :
    leaves .inv (withMatrix 2 2 true [f2half, fMinusHalf, fMinus1, 0]) (fun t => (t.matrix.toList, t.status.xf))
      = some ([f1, f2, f3, f4], false) := by decide +kernel

/-- Section 3.4: a tie between 0 and 2 goes up. -/
theorem test_qwrite_tie : leaves .qwrite (withQ f12 f12) (fun t => t.coef) = some f24 := by decide +kernel

/-- Section 3.4: Q = 0.1, COEF = 0.35, bit 1. -/
theorem test_qwrite_rounding :
    leaves .qwrite { withQ 0x3FB999999999999A 0x3FD6666666666666 with regs.arg0 := 1 } (fun t => t.coef)
      = some 0x3FD3333333333334 := by decide +kernel

/-- Section 3.4: -18 with Q = 12 is half-way between -2 and -1, and reads as 1. -/
theorem test_qread : leaves .qread (withQ f12 0xC032000000000000) (fun t => t.regs.result) = some 1 := by decide +kernel

/-- Section 3.4: 1.0 with Q = 2^-1074 overflows the scaled value: NUMERIC. -/
theorem test_qread_overflow : leaves .qread (withQ 1 f1) (fun t => t.readReg .status) = some 0x076 := by decide +kernel

/-- Section 3.5: the ones of the frame of [65] are at 31, 33 and 39. -/
theorem test_frame :
    leaves .frame { State.reset with regs.len := 1, bytes := State.reset.bytes.writeRange 0 [65] }
      (fun t => ((List.range 40).filter fun k => t.bitAt k == 1, t.regs.bitlen)) = some ([31, 33, 39], 40) := by
  decide +kernel

theorem framed_coeffs14 : coeffs14.framed = frameList := by decide +kernel

theorem carriers_coeffs14 :
    coeffs14.carriers frameList = (coeffs14.siteAddrs.take 40).zip frameList := by decide +kernel

/-- P[0 .. 39] of section 3.2, as elements of the HL band. -/
def siteList : List Nat :=
  [126, 183, 155, 158, 143, 154, 98, 186, 128, 101, 170, 104, 172, 140, 103, 173, 99, 174, 113, 132]
    ++ [129, 102, 160, 116, 159, 131, 117, 157, 187, 171, 144, 184, 142, 141, 145, 185, 100, 156, 146, 130]

theorem siteAddrs_scenario (xf : Bool) (y : List F64) : (scenario xf y).siteAddrs.take 40 = siteList := by
  have hr : (scenario xf y).rowCount = 14 := by simp [scenario, withMatrix, State.rowCount]
  have hc : (scenario xf y).colCount = 14 := by simp [scenario, withMatrix, State.colCount]
  have hn : (scenario xf y).nsites = 49 := by simp [State.nsites, hr, hc]
  have hs : (scenario xf y).regs.seed = 1234 := rfl
  have hb : (scenario xf y).ctrl.band = .hl := rfl
  have ha : (scenario xf y).siteAddr = fun i => (7 + i / 7) * 14 + (0 + i % 7) := by
    funext i
    simp [State.siteAddr, hr, hc, hb, bandOrigin]
  rw [State.siteAddrs, State.sitePerm, hn, hs, ha]
  decide +kernel

theorem embedSites_coeffs14 :
    embedSites f12 coeffList.toArray ((coeffs14.siteAddrs.take 40).zip frameList) coeffList.toArray
      = some markedList.toArray := by
  rw [coeffs14, siteAddrs_scenario]
  decide +kernel

theorem runEmbed_coeffs14 : runEmbed coeffs14 = .ok ((coeffs14.setMatrix markedList.toArray).setFrame frameList) := by
  have hcheck : embedCheck coeffs14 true = none := by decide +kernel
  have hq : coeffs14.q = f12 := by decide
  have hmat : coeffs14.matrix = coeffList.toArray := matrix_scenario _ _ (by decide +kernel)
  simp only [runEmbed, hcheck, embedBand, hmat, hq, framed_coeffs14, carriers_coeffs14, embedSites_coeffs14]

/-- Section 3.5: EMBED puts 12.0 at MAT indices 130, 141 and 184. -/
theorem test_embed :
    ∃ t, exec .embed coeffs14 = .next t ∧ t.matrix = markedList.toArray ∧ t.regs.bitlen = 40
      ∧ t.readReg .status = 0x302 := by
  refine ⟨_, by rw [exec_eq_finish, runOf, runEmbed_coeffs14]; rfl, ?_, by decide +kernel, by decide +kernel⟩
  exact State.matrix_setMatrix coeffs14 markedList.toArray (by decide +kernel)

theorem runExtract_marked14 :
    runExtract marked14 = .ok (marked14.setExtracted { len := 1, bits := frameList, bytes := [65] }) := by
  have hcheck : extractCheck marked14 true = none := by decide +kernel
  have hq : marked14.q = f12 := by decide
  have hmat : marked14.matrix = markedList.toArray := matrix_scenario _ _ (by decide +kernel)
  have hreps : marked14.repCount = 1 := by decide
  have hcap : marked14.capbits = 49 := by decide
  have hmax : marked14.params.bmax = 1024 := by decide
  have haddr := siteAddrs_scenario true markedList
  have hsplit : marked14.siteAddrs = marked14.siteAddrs.take 40 ++ marked14.siteAddrs.drop 40 :=
    (List.take_append_drop _ _).symm
  rw [marked14, haddr, ← marked14] at hsplit
  have hhead : votes f12 markedList.toArray 1 32 marked14.siteAddrs = some (frameList.take 32) := by
    rw [hsplit]; decide +kernel
  have hbody : votes f12 markedList.toArray 1 8 (marked14.siteAddrs.drop 32) = some (frameList.drop 32) := by
    rw [hsplit]; decide +kernel
  have hlen : (bitsToU32 (frameList.take 32) 0).toNat = 1 := by decide +kernel
  have hbytes : bitsToBytes (frameList.drop 32) = [65] := by decide +kernel
  simp [runExtract, hcheck, extractBand, hmat, hq, hreps, hcap, hmax, hhead, hlen, hbody, hbytes, frameLen]

/-- Section 3.5, read back: the byte, LEN, BITLEN and PERM[48] = 35 (section 3.2). -/
theorem test_extract :
    ∃ t, exec .extract marked14 = .next t ∧ t.byteAt 0 = 65 ∧ t.regs.len = 1 ∧ t.regs.bitlen = 40
      ∧ t.permAt 48 = 35 := by
  refine ⟨_, by rw [exec_eq_finish, runOf, runExtract_marked14]; rfl, ?_⟩
  decide +kernel

/-! A 2 x 64 matrix of one value, with BAND = LL: its 32 band elements carry the 32 bits of an empty frame. By hand: with
Q = 12, 100.0 has t = 8.33, nearest even integer 8, so bit 0 makes it 96.0 (44_qim.md R283). -/

def f96 : F64 := 0x4058000000000000

/-- Two equal rows of 32 sub-band columns: `c` in LL, +0.0 elsewhere. -/
def bandList (c : F64) : List F64 := List.replicate 32 c ++ List.replicate 96 0

def wide (xf : Bool) (y : List F64) : State :=
  let s := withMatrix 2 64 xf y
  { s with
    regs := { s.regs with qLo := f64Lo f12, qHi := f64Hi f12, seed := 1234 }
    status := { s.status with seedValid := true }
    ctrl := { s.ctrl with band := .ll } }

theorem matrix_wide (xf : Bool) (y : List F64) (h : y.length = 128) : (wide xf y).matrix = y.toArray :=
  State.matrix_setMatrix _ _ (by rw [List.size_toArray, h]; rfl)

theorem matAt_wide (xf : Bool) (y : List F64) (h : y.length = 128) {e : Nat} (he : e < 128) :
    (wide xf y).matAt e = y.toArray.getD e 0 :=
  (State.matAt_setMatrix _ _ _).trans (if_pos (by simpa [h] using he))

theorem tabulate_congr {rows cols : Nat} {f g : Nat → Nat → F64} (h : ∀ r c, r < rows → c < cols → f r c = g r c) :
    tabulate rows cols f = tabulate rows cols g := by
  refine congrArg List.toArray (List.map_congr_left fun e he => ?_)
  have he' : e < rows * cols := by simpa using he
  have hcols : 0 < cols := Nat.pos_of_ne_zero (by rintro rfl; simp at he')
  exact h _ _ (Nat.div_lt_of_lt_mul (by rwa [Nat.mul_comm])) (Nat.mod_lt _ hcols)

theorem elemAt_const {c : F64} {r k : Nat} (hr : r < 2) (hk : k < 64) :
    elemAt 64 (List.replicate 128 c).toArray r k = c := by
  have : r * 64 + k < 128 := by omega
  rw [elemAt, Array.getD_eq_getD_getElem?, List.getElem?_toArray, List.getElem?_replicate, if_pos this]
  rfl

theorem bandList_eq (c : F64) : (bandList c).toArray = tabulate 2 64 fun r k => if r = 0 ∧ k < 32 then c else 0 := by
  have h : ∀ e < 128, (bandList c)[e]? = some (if e / 64 = 0 ∧ e % 64 < 32 then c else 0) := by
    intro e he
    unfold bandList
    by_cases h : e < 32
    · rw [List.getElem?_append_left (by simpa using h), if_pos (by omega), List.getElem?_replicate, if_pos h]
    · rw [List.getElem?_append_right (by rw [List.length_replicate]; omega), if_neg (by omega), List.length_replicate,
        List.getElem?_replicate, if_pos (by omega)]
  refine congrArg List.toArray (List.ext_getElem? fun e => ?_)
  by_cases he : e < 128
  · rw [h e he]
    simp [he]
  · rw [List.getElem?_eq_none (by simp [bandList]; omega), List.getElem?_eq_none (by simp; omega)]

/-- The forward transform of a constant matrix, when halves of its sums are exact. -/
theorem haarFwd_const {c : F64} (h1 : f64Half (f64Add c c) = c) (h2 : f64Half (f64Sub c c) = 0) :
    haarFwdRows 2 64 (List.replicate 128 c).toArray = tabulate 2 64 (fun _ k => if k < 32 then c else 0)
      ∧ haarFwd 2 64 (List.replicate 128 c).toArray = (bandList c).toArray := by
  have hz1 : f64Half (f64Add 0 0) = 0 := by decide +kernel
  have hz2 : f64Half (f64Sub 0 0) = 0 := by decide +kernel
  have e1 : haarFwdRows 2 64 (List.replicate 128 c).toArray = tabulate 2 64 (fun _ k => if k < 32 then c else 0) := by
    refine tabulate_congr fun r k hr hk => ?_
    unfold rowForward
    simp only
    split
    · rw [elemAt_const hr (by omega), elemAt_const hr (by omega)]; exact h1
    · rw [elemAt_const hr (by omega), elemAt_const hr (by omega)]; exact h2
  refine ⟨e1, ?_⟩
  rw [haarFwd, e1, bandList_eq]
  refine tabulate_congr fun r k hr hk => ?_
  unfold colForward
  simp only
  split
  · rw [elemAt_tabulate _ (by omega) hk, elemAt_tabulate _ (by omega) hk]
    split
    · rw [h1, if_pos (by omega)]
    · rw [hz1, if_neg (by omega)]
  · rw [elemAt_tabulate _ (by omega) hk, elemAt_tabulate _ (by omega) hk, if_neg (by omega : ¬ (r = 0 ∧ k < 32))]
    split
    · rw [h2]
    · rw [hz2]

/-- The inverse transform of such coefficients. -/
theorem haarInv_bands {c : F64} (h1 : f64Add c 0 = c) (h2 : f64Sub c 0 = c) :
    haarInvCols 2 64 (bandList c).toArray = tabulate 2 64 (fun _ k => if k < 32 then c else 0)
      ∧ haarInv 2 64 (bandList c).toArray = (List.replicate 128 c).toArray := by
  have hz1 : f64Add 0 0 = 0 := by decide +kernel
  have hz2 : f64Sub 0 0 = 0 := by decide +kernel
  have e1 : haarInvCols 2 64 (bandList c).toArray = tabulate 2 64 (fun _ k => if k < 32 then c else 0) := by
    rw [bandList_eq]
    refine tabulate_congr fun r k hr hk => ?_
    unfold colInverse
    simp only
    rw [elemAt_tabulate _ (by omega) hk, elemAt_tabulate _ (by omega) hk]
    by_cases hk' : k < 32
    · rw [if_pos (by omega : r / 2 = 0 ∧ k < 32), if_neg (by omega : ¬ (2 / 2 + r / 2 = 0 ∧ k < 32)), if_pos hk', h1, h2]
      simp
    · rw [if_neg (by omega : ¬ (r / 2 = 0 ∧ k < 32)), if_neg (by omega : ¬ (2 / 2 + r / 2 = 0 ∧ k < 32)), if_neg hk', hz1, hz2]
      simp
  have e2 : (List.replicate 128 c).toArray = tabulate 2 64 fun _ _ => c := by
    refine congrArg List.toArray (List.ext_getElem? fun e => ?_)
    by_cases he : e < 128 <;> simp [he]
  refine ⟨e1, ?_⟩
  rw [haarInv, e1, e2]
  refine tabulate_congr fun r k hr hk => ?_
  unfold rowInverse
  simp only
  rw [elemAt_tabulate _ hr (by omega), elemAt_tabulate _ hr (by omega), if_pos (by omega : k / 2 < 32),
    if_neg (by omega : ¬ 64 / 2 + k / 2 < 32), h1, h2]
  simp

def constList (c : F64) : List F64 := List.replicate 128 c

theorem haarFwd_100 : haarFwdRows 2 64 (constList f100).toArray = tabulate 2 64 (fun _ k => if k < 32 then f100 else 0)
    ∧ haarFwd 2 64 (constList f100).toArray = (bandList f100).toArray :=
  haarFwd_const (by decide +kernel) (by decide +kernel)

theorem haarFwd_96 : haarFwdRows 2 64 (constList f96).toArray = tabulate 2 64 (fun _ k => if k < 32 then f96 else 0)
    ∧ haarFwd 2 64 (constList f96).toArray = (bandList f96).toArray :=
  haarFwd_const (by decide +kernel) (by decide +kernel)

theorem haarInv_96 : haarInvCols 2 64 (bandList f96).toArray = tabulate 2 64 (fun _ k => if k < 32 then f96 else 0)
    ∧ haarInv 2 64 (bandList f96).toArray = (constList f96).toArray :=
  haarInv_bands (by decide +kernel) (by decide +kernel)

theorem haarFwdOK_100 : haarFwdOK 2 64 (constList f100).toArray = true := by
  rw [haarFwdOK, haarFwd_100.1, haarFwd_100.2]
  decide +kernel

theorem haarFwdOK_96 : haarFwdOK 2 64 (constList f96).toArray = true := by
  rw [haarFwdOK, haarFwd_96.1, haarFwd_96.2]
  decide +kernel

theorem haarInvOK_96 : haarInvOK 2 64 (bandList f96).toArray = true := by
  rw [haarInvOK, haarInv_96.1, haarInv_96.2]
  decide +kernel

theorem framed_wide (xf : Bool) (y : List F64) : (wide xf y).framed = List.replicate 32 0 := by
  have hl : (wide xf y).regs.len = 0 := rfl
  rw [State.framed, State.payloadLen, hl]
  rfl

theorem embedBand_wide (xf : Bool) (y : List F64) :
    embedBand (wide xf y) (bandList f100).toArray (List.replicate 32 0) = some (bandList f96).toArray := by
  have hr : (wide xf y).rowCount = 2 := by simp [wide, withMatrix, State.rowCount]
  have hc : (wide xf y).colCount = 64 := by simp [wide, withMatrix, State.colCount]
  have hn : (wide xf y).nsites = 32 := by simp [State.nsites, hr, hc]
  have hs : (wide xf y).regs.seed = 1234 := rfl
  have hb : (wide xf y).ctrl.band = .ll := rfl
  have ha : (wide xf y).siteAddr = fun i => (0 + i / 32) * 64 + (0 + i % 32) := by
    funext i
    simp [State.siteAddr, hc, hb, bandOrigin]
  have hq : (wide xf y).q = f12 := f64_halves f12
  have hp : (wide xf y).repCount = 1 := rfl
  rw [embedBand, State.carriers, State.siteAddrs, State.sitePerm, hn, hs, ha, hq, hp]
  decide +kernel

def wide100 : State := wide false (constList f100)
def wide96 : State := wide false (constList f96)

theorem matrix_wide100 : wide100.matrix = (constList f100).toArray := matrix_wide _ _ (by decide +kernel)
theorem matrix_wide96 : wide96.matrix = (constList f96).toArray := matrix_wide _ _ (by decide +kernel)

theorem rows_wide (xf : Bool) (y : List F64) : (wide xf y).rowCount = 2 ∧ (wide xf y).colCount = 64 := by
  simp [wide, withMatrix, State.rowCount, State.colCount]

theorem runEmbedf_wide100 :
    runEmbedf wide100 = .ok ((wide100.setMatrix (constList f96).toArray).setFrame (List.replicate 32 0)) := by
  have hcheck : embedCheck wide100 false = none := by decide +kernel
  obtain ⟨hr, hc⟩ : wide100.rowCount = 2 ∧ wide100.colCount = 64 := rows_wide _ _
  have hframe : wide100.framed = List.replicate 32 0 := framed_wide _ _
  have hband : embedBand wide100 (bandList f100).toArray (List.replicate 32 0) = some (bandList f96).toArray :=
    embedBand_wide _ _
  simp only [runEmbedf, hcheck, hr, hc, matrix_wide100, haarFwdOK_100, haarFwd_100.2, hframe, hband, haarInvOK_96,
    haarInv_96.2, Bool.not_true, Bool.false_eq_true, if_false]

/-- EMBEDF of 100.0 everywhere, in LL and with an empty payload, gives 96.0 everywhere. -/
theorem test_embedf :
    ∃ t, exec .embedf wide100 = .next t ∧ t.matrix = (constList f96).toArray ∧ t.regs.bitlen = 32
      ∧ t.readReg .status = 0x202 := by
  refine ⟨_, by rw [exec_eq_finish, runOf, runEmbedf_wide100]; rfl, ?_, by decide +kernel, by decide +kernel⟩
  exact State.matrix_setMatrix wide100 (constList f96).toArray (by decide +kernel)

/-- Section 3.5: with LEN = 3 the frame does not fit: CAPACITY. -/
theorem test_embedf_capacity :
    leaves .embedf { scenario false [] with regs.len := 3 } (fun t => t.readReg .status) = some 0x226 := by decide +kernel

/-- The empty frame of `wide96`. -/
def emptyFrame : Extracted := { len := 0, bits := List.replicate 32 0, bytes := [] }

theorem extractBand_wide96 (xf : Bool) (y : List F64) :
    extractBand (wide xf y) (bandList f96).toArray = .ok emptyFrame := by
  obtain ⟨hr, hc⟩ := rows_wide xf y
  have hn : (wide xf y).nsites = 32 := by simp [State.nsites, hr, hc]
  have hs : (wide xf y).regs.seed = 1234 := rfl
  have hb : (wide xf y).ctrl.band = .ll := rfl
  have ha : (wide xf y).siteAddr = fun i => (0 + i / 32) * 64 + (0 + i % 32) := by
    funext i
    simp [State.siteAddr, hc, hb, bandOrigin]
  have hq : (wide xf y).q = f12 := f64_halves f12
  have hp : (wide xf y).repCount = 1 := rfl
  have hcap : (wide xf y).capbits = 32 := by simp [State.capbits, hn, hp]
  have hmax : (wide xf y).params.bmax = 1024 := rfl
  rw [extractBand, State.siteAddrs, State.sitePerm, hn, hs, ha, hq, hp, hcap, hmax]
  decide +kernel

theorem runExtractf_wide96 : runExtractf wide96 = .ok (wide96.setExtracted emptyFrame) := by
  have hcheck : extractCheck wide96 false = none := by decide +kernel
  obtain ⟨hr, hc⟩ : wide96.rowCount = 2 ∧ wide96.colCount = 64 := rows_wide _ _
  have hband : extractBand wide96 (bandList f96).toArray = .ok emptyFrame := extractBand_wide96 _ _
  simp only [runExtractf, hcheck, hr, hc, matrix_wide96, haarFwdOK_96, haarFwd_96.2, hband, Bool.not_true,
    Bool.false_eq_true, if_false]

/-- EXTRACTF of 96.0 everywhere: t = 8 in LL, so every bit is 0, LEN = 0 and BITLEN = 32. -/
theorem test_extractf :
    ∃ t, exec .extractf wide96 = .next t ∧ t.regs.len = 0 ∧ t.regs.bitlen = 32 ∧ t.mat = wide96.mat
      ∧ t.readReg .status = 0x202 := by
  refine ⟨_, by rw [exec_eq_finish, runOf, runExtractf_wide96]; rfl, ?_⟩
  exact ⟨by decide +kernel, by decide +kernel, rfl, by decide +kernel⟩

/-- Section 3.5: with REPS = 2 the header does not fit: CAPACITY. -/
theorem test_extractf_capacity :
    leaves .extractf { scenario false [] with regs.reps := 2 } (fun t => t.readReg .status) = some 0x226 := by
  decide +kernel

/-! ### Witnesses: for each obligation with hypotheses, a state and operands that meet them all, at the boundaries of its clauses -/

/-- Reset, with a command in flight. -/
def busyWith (w : Word) : State := State.reset.accept w

/-- Reset, with LEN and BMAX as given. -/
def withLen (len : Word) : State := { State.reset with regs := { Regs.reset with len := len } }

theorem witness_WordsDecodeByTheOpcodeMap :
    (0x00000100 : Word).toNat / 256 ≠ 0
      ∧ ((0x000000FF : Word).toNat / 256 = 0 ∧ (0x000000FF : Word) ∉ opcodeRows.map Prod.fst) := by decide

theorem witness_EncodeAndDecodeAgree : decodeBytes [0x01, 0x00, 0x00, 0x00] = .ok .b2bits := by decide

theorem witness_StepRunsTheDecodedCommand :
    (busyWith 0x20).inflight = some 0x20 ∧ decodeWord 0x20 = .ok .fwd ∧ (busyWith 0x20).agenda = []
      ∧ { busyWith 0x20 with agenda := [.engine, .host] }.agenda = [.engine, .host] := by decide

theorem witness_IllegalWordCompletesWithIllegalCmd :
    (busyWith 0x06).inflight = some 0x06 ∧ (0x06 : Word) ∉ opcodeRows.map Prod.fst ∧ (busyWith 0x06).agenda = []
      ∧ { busyWith 0x06 with agenda := [.engine] }.agenda = .engine :: [] := by
  decide

theorem witness_CmdWriteIsAcceptedOrDropped : State.reset.busy = false ∧ (busyWith 0).busy = true := by decide

theorem witness_AcceptedCommandLeavesFlight : { busyWith 0 with agenda := [.hardReset] }.busy = true := by decide

theorem witness_FailedCommandChangesOnlyStatus : clean (busyWith 0x41) := by unfold clean; decide

theorem witness_CommandsLeaveEveryOtherRegister : ∃ t, exec .b2bits (withLen 0) = .next t := exec_next _ _

/-- The access that writes `v` to a register of the reference block. -/
def writeTo (r : Reg) (v : Word) : BusAccess :=
  { addr := State.reset.params.base + r.offset, width := 32, op := .write v }

/-- A STATUS write while QREAD runs. -/
theorem witness_BusyAccessCannotChangeTheOutcome :
    (busyWith 0x31).busy = true ∧ clean (busyWith 0x31)
      ∧ (∀ v, (writeTo .status 0x0E).op = .write v → (writeTo .status 0x0E).addr = (busyWith 0x31).params.base + 0x010 →
        v.getLsbD 31 = false)
      ∧ (∃ t, busAccess (writeTo .status 0x0E) (busyWith 0x31) = .next t) ∧ (∃ u, exec .qread (busyWith 0x31) = .next u)
      ∧ ∃ u, engineTurn (busyWith 0x31) = .next u :=
  ⟨rfl, ⟨rfl, rfl⟩, fun _ _ h => absurd h (by decide), ⟨_, busAccess_reg (busyWith 0x31) .status _⟩, exec_next _ _,
    exec_next .qread _⟩

/-- A CMD write, which is dropped, while an illegal word is in flight. -/
theorem witness_BusyAccessCannotChangeTheOutcome_illegal :
    (busyWith 0x120).busy = true ∧ clean (busyWith 0x120)
      ∧ (∃ t, busAccess (writeTo .cmd 0x20) (busyWith 0x120) = .next t) ∧ ∃ u, engineTurn (busyWith 0x120) = .next u :=
  ⟨rfl, ⟨rfl, rfl⟩, ⟨_, busAccess_reg (busyWith 0x120) .cmd _⟩, _, rfl⟩

/-- An IE write while QREAD runs. -/
theorem witness_BusyAccessCannotChangeTheOutcome_ctrl :
    (∀ v, (writeTo .ctrl 0x100).op = .write v → (writeTo .ctrl 0x100).addr = (busyWith 0x31).params.base + 0x010 →
        v.getLsbD 31 = false)
      ∧ ∃ t, busAccess (writeTo .ctrl 0x100) (busyWith 0x31) = .next t :=
  ⟨fun v h _ => by obtain rfl := BusOp.write.inj h; decide, _, busAccess_reg (busyWith 0x31) .ctrl _⟩

theorem witness_B2bitsExpandsTheBytes :
    (withLen 1025).params.bmax < (withLen 1025).payloadLen ∧ (withLen 1024).payloadLen ≤ (withLen 1024).params.bmax := by
  decide

/-- BITLEN, at the boundaries of section 3.1. -/
def withBitlen (n : Word) : State := { State.reset with regs := { Regs.reset with bitlen := n } }

theorem witness_Bits2bPacksTheBits :
    (withBitlen 8225).params.fmax < (withBitlen 8225).regs.bitlen.toNat
      ∧ (withBitlen 8200).params.bmax < (withBitlen 8200).regs.bitlen.toNat / 8
      ∧ ((withBitlen 8199).regs.bitlen.toNat ≤ (withBitlen 8199).params.fmax
        ∧ (withBitlen 8199).regs.bitlen.toNat / 8 ≤ (withBitlen 8199).params.bmax) := by decide

/-- OFF, at the boundaries of section 3.1. -/
def withOff (n : Word) : State := { State.reset with regs := { Regs.reset with off := n } }

theorem witness_U32bitsWritesThirtyTwoBits :
    (withOff 8193).params.fmax < (withOff 8193).regs.off.toNat + 32
      ∧ (withOff 8192).regs.off.toNat + 32 ≤ (withOff 8192).params.fmax := by decide

theorem witness_Bitsu32ReadsThirtyTwoBits :
    (withOff 0xFFFFFFFF).params.fmax < (withOff 0xFFFFFFFF).regs.off.toNat + 32
      ∧ (withOff 0).regs.off.toNat + 32 ≤ (withOff 0).params.fmax := by decide

theorem witness_PosmodIsTheNonNegativeResidue :
    State.reset.regs.arg1 = 0 ∧ { State.reset with regs.arg1 := 1 }.regs.arg1 ≠ 0 := by decide

theorem witness_BitConversionsRoundTrip : 1 + 32 ≤ (List.replicate 33 (1 : Bit)).length := by decide

theorem witness_PermutationIsABijection : 0 < 1 ∧ 4 < 5 := by decide

/-- Section 3.2 and R234's example: PN = 5 with SEED 1234 gives 1, 4, 2, 0, 3, through the statement's own reading of R231. -/
theorem test_shuffled : (List.range 5).map (shuffled 5 1234 4) = [1, 4, 2, 0, 3] := by decide +kernel

/-- SEED written, PN as given. -/
def withPn (n : Word) : State :=
  { State.reset with regs := { Regs.reset with pn := n }, status := { Status.reset with seedValid := true } }

theorem witness_PermgenWritesThePermutation :
    State.reset.status.seedValid = false
      ∧ ((withPn 16385).status.seedValid = true ∧ (withPn 16385).params.pmax < (withPn 16385).regs.pn.toNat)
      ∧ ((withPn 16384).status.seedValid = true ∧ (withPn 16384).regs.pn.toNat ≤ (withPn 16384).params.pmax) := by
  decide

/-- A 2 x 2 matrix of integers, one of magnitude 2^49. -/
def ints : List F64 := [0x4300000000000000, 0xC008000000000000, f1, 0]

/-- The four elements of a 2 x 2 matrix. -/
theorem elems_withMatrix (xf : Bool) (a b c d : F64) :
    elem (withMatrix 2 2 xf [a, b, c, d]) 0 0 = a ∧ elem (withMatrix 2 2 xf [a, b, c, d]) 0 1 = b
      ∧ elem (withMatrix 2 2 xf [a, b, c, d]) 1 0 = c ∧ elem (withMatrix 2 2 xf [a, b, c, d]) 1 1 = d := by
  have hc : (withMatrix 2 2 xf [a, b, c, d]).colCount = 2 := by simp [withMatrix, State.colCount]
  have h : ∀ e < 4, (withMatrix 2 2 xf [a, b, c, d]).matAt e = [a, b, c, d].toArray.getD e 0 := fun e he =>
    (State.matAt_setMatrix _ _ _).trans (if_pos he)
  simp only [elem, hc]
  exact ⟨h 0 (by omega), h 1 (by omega), h 2 (by omega), h 3 (by omega)⟩

/-- The one block of a 2 x 2 matrix. -/
theorem blocks_withMatrix (xf : Bool) (y : List F64) {i j : Nat} (hi : i < (withMatrix 2 2 xf y).rowCount / 2)
    (hj : j < (withMatrix 2 2 xf y).colCount / 2) : i = 0 ∧ j = 0 := by
  have hr : (withMatrix 2 2 xf y).rowCount = 2 := by simp [withMatrix, State.rowCount]
  have hc : (withMatrix 2 2 xf y).colCount = 2 := by simp [withMatrix, State.colCount]
  omega

theorem forwardFinite_withMatrix {xf : Bool} {a b c d : F64} :
    forwardFinite (withMatrix 2 2 xf [a, b, c, d]) ↔ forwardBlockFinite a b c d := by
  obtain ⟨h1, h2, h3, h4⟩ := elems_withMatrix xf a b c d
  constructor
  · intro h
    have h' := h 0 0 (by simp [withMatrix, State.rowCount]) (by simp [withMatrix, State.colCount])
    rwa [Nat.mul_zero, Nat.zero_add, h1, h2, h3, h4] at h'
  · intro h i j hi hj
    obtain ⟨rfl, rfl⟩ := blocks_withMatrix _ _ hi hj
    rwa [Nat.mul_zero, Nat.zero_add, h1, h2, h3, h4]

theorem inverseFinite_withMatrix {xf : Bool} {a b c d : F64} :
    inverseFinite (withMatrix 2 2 xf [a, b, c, d]) ↔ inverseBlockFinite a b c d := by
  obtain ⟨h1, h2, h3, h4⟩ := elems_withMatrix xf a b c d
  have hr : (withMatrix 2 2 xf [a, b, c, d]).rowCount / 2 = 1 := by simp [withMatrix, State.rowCount]
  have hc : (withMatrix 2 2 xf [a, b, c, d]).colCount / 2 = 1 := by simp [withMatrix, State.colCount]
  constructor
  · intro h
    have h' := h 0 0 (by omega) (by omega)
    rwa [hr, hc, Nat.add_zero, h1, h2, h3, h4] at h'
  · intro h i j hi hj
    obtain ⟨rfl, rfl⟩ := blocks_withMatrix _ _ hi hj
    rwa [hr, hc, Nat.add_zero, h1, h2, h3, h4]

/-- The twelve values of a forward block, as a list. -/
def forwardValues (a b c d : F64) : List F64 :=
  let lo1 := f64Half (f64Add a b)
  let hi1 := f64Half (f64Sub a b)
  let lo2 := f64Half (f64Add c d)
  let hi2 := f64Half (f64Sub c d)
  [a, b, c, d, lo1, hi1, lo2, hi2, f64Half (f64Add lo1 lo2), f64Half (f64Sub lo1 lo2), f64Half (f64Add hi1 hi2),
    f64Half (f64Sub hi1 hi2)]

theorem forwardBlockFinite_iff {a b c d : F64} : forwardBlockFinite a b c d ↔ (forwardValues a b c d).all f64Finite = true :=
  List.all_eq_true.symm

/-- The twelve values of an inverse block, as a list. -/
def inverseValues (ll lh hl hh : F64) : List F64 :=
  let lo1 := f64Add ll hl
  let lo2 := f64Sub ll hl
  let hi1 := f64Add lh hh
  let hi2 := f64Sub lh hh
  [ll, lh, hl, hh, lo1, lo2, hi1, hi2, f64Add lo1 hi1, f64Sub lo1 hi1, f64Add lo2 hi2, f64Sub lo2 hi2]

theorem inverseBlockFinite_iff {a b c d : F64} : inverseBlockFinite a b c d ↔ (inverseValues a b c d).all f64Finite = true :=
  List.all_eq_true.symm

theorem witness_FwdComputesTheFourSubBands :
    (withMatrix 2 2 true [f1, f2, f3, f4]).status.xf = true
      ∧ (State.reset.status.xf = false ∧ State.reset.legalDims = false)
      ∧ ((withMatrix 2 2 false [f1, f2, f3, f4]).status.xf = false
        ∧ (withMatrix 2 2 false [f1, f2, f3, f4]).legalDims = true
        ∧ forwardFinite (withMatrix 2 2 false [f1, f2, f3, f4])) := by
  refine ⟨rfl, by decide +kernel, rfl, by decide +kernel, forwardFinite_withMatrix.2 (forwardBlockFinite_iff.2 ?_)⟩
  decide +kernel

/-- The largest finite value twice: the sum overflows (section 3.3). -/
theorem witness_FwdComputesTheFourSubBands_numeric :
    (withMatrix 2 2 false [fLargest, fLargest, 0, 0]).status.xf = false
      ∧ (withMatrix 2 2 false [fLargest, fLargest, 0, 0]).legalDims = true
      ∧ ¬ forwardFinite (withMatrix 2 2 false [fLargest, fLargest, 0, 0]) := by
  refine ⟨rfl, by decide +kernel, fun h => ?_⟩
  exact absurd (forwardBlockFinite_iff.1 (forwardFinite_withMatrix.1 h)) (by decide +kernel)

theorem witness_InvRebuildsTheSamples :
    State.reset.status.xf = false
      ∧ ({ State.reset with status.xf := true }.status.xf = true ∧ { State.reset with status.xf := true }.legalDims = false)
      ∧ ((withMatrix 2 2 true [f1, f2, f3, f4]).status.xf = true ∧ (withMatrix 2 2 true [f1, f2, f3, f4]).legalDims = true
        ∧ inverseFinite (withMatrix 2 2 true [f1, f2, f3, f4])) := by
  refine ⟨rfl, by decide +kernel, rfl, by decide +kernel, inverseFinite_withMatrix.2 (inverseBlockFinite_iff.2 ?_)⟩
  decide +kernel

theorem witness_InvRebuildsTheSamples_numeric :
    (withMatrix 2 2 true [0x7FF0000000000000, 0, 0, 0]).status.xf = true
      ∧ (withMatrix 2 2 true [0x7FF0000000000000, 0, 0, 0]).legalDims = true
      ∧ ¬ inverseFinite (withMatrix 2 2 true [0x7FF0000000000000, 0, 0, 0]) := by
  refine ⟨rfl, by decide +kernel, fun h => ?_⟩
  exact absurd (inverseBlockFinite_iff.1 (inverseFinite_withMatrix.1 h)) (by decide +kernel)

/-- The integers that `ints` denotes. -/
def intValues : List Int := [2 ^ 49, -3, 1, 0]

theorem witness_IntegerMatrixSurvivesFwdThenInv :
    clean (withMatrix 2 2 false ints) ∧ (withMatrix 2 2 false ints).status.xf = false
      ∧ (withMatrix 2 2 false ints).legalDims = true
      ∧ ∀ e, e < (withMatrix 2 2 false ints).rowCount * (withMatrix 2 2 false ints).colCount →
        f64Finite ((withMatrix 2 2 false ints).matAt e) = true
          ∧ ∃ n : Int, n.natAbs ≤ 2 ^ 49 ∧ f64Int ((withMatrix 2 2 false ints).matAt e) = n * 2 ^ 1074 := by
  refine ⟨⟨rfl, rfl⟩, rfl, by decide +kernel, fun e he => ?_⟩
  have hr : (withMatrix 2 2 false ints).rowCount = 2 := by simp [withMatrix, State.rowCount]
  have hc : (withMatrix 2 2 false ints).colCount = 2 := by simp [withMatrix, State.colCount]
  rw [hr, hc] at he
  have hm : (withMatrix 2 2 false ints).matAt e = ints.toArray.getD e 0 := (State.matAt_setMatrix _ _ _).trans (if_pos he)
  have hall : ∀ e < 4, f64Finite (ints.toArray.getD e 0) = true ∧ (intValues.getD e 0).natAbs ≤ 2 ^ 49
      ∧ f64Int (ints.toArray.getD e 0) = intValues.getD e 0 * 2 ^ 1074 := by decide +kernel
  obtain ⟨h1, h2, h3⟩ := hall e he
  rw [hm]
  exact ⟨h1, _, h2, h3⟩

/-- Half a unit in the last place of 1.0 above it: a tie between 1.0 and the next value. -/
theorem witness_RoundingIsToNearestEven :
    0 < 2 ∧ f64Finite 0x3FF0000000000001 = true
      ∧ f64Finite (f64Round false (2 * (2 ^ 52 * 2 ^ 1022) + 2 ^ 1022) 2) = true := by decide +kernel

/-- The least magnitude that rounds to an infinity, the one below it, and operands of both signs. -/
theorem witness_RoundingIsToNearestEven_limits :
    0 < 1 ∧ f64Finite (f64Round true ((2 ^ 1024 - 2 ^ 970) * 2 ^ 1074) 1) = false
      ∧ f64Finite (f64Round true ((2 ^ 1024 - 2 ^ 970) * 2 ^ 1074 - 1) 1) = true
      ∧ f64Finite fLargest = true ∧ f64Finite 0x8000000000000000 = true ∧ f64Mag fLargest ≠ 0
      ∧ (-(2 ^ 53) : Int).natAbs ≤ 2 ^ 53 := by decide +kernel

theorem witness_QimWriteTakesTheNearestOfItsParity :
    f64Positive f12 = true ∧ qimWrite f12 0 f12 = some f24 ∧ qimWrite f12 1 f12 = some f12 := by decide +kernel

/-- (2^48 - 1) * 12, the last coefficient inside the limits for bit 1 and outside them for bit 0 (section 3.4). -/
def fEdge : F64 := BitVec.ofNat 64 0x4327FFFFFFFFFFE8

theorem witness_QimReadAfterWrite :
    f64Positive f12 = true ∧ qimWrite fEdge 1 f12 = some fEdge ∧ qimWrite fEdge 0 f12 = none := by decide +kernel

theorem witness_QimReadIsRobust :
    f64Positive f12 = true ∧ f64Finite f12 = true ∧ f64Finite (f64Div f12 f12) = true ∧ (1 : Int).natAbs < 2 ^ 48
      ∧ -(2 ^ 1074) ≤ 2 * (f64Int (f64Div f12 f12) - 1 * 2 ^ 1074)
      ∧ 2 * (f64Int (f64Div f12 f12) - 1 * 2 ^ 1074) < 2 ^ 1074 := by decide +kernel

theorem witness_MajorityVoteLaws :
    ([1, 0] : List Bit) ≠ [] ∧ 0 < 1 ∧ ([1, 0, 1] : List Bit).length % 2 = 1
      ∧ 2 * (([1, 0, 1] : List Bit).length - ([1, 0, 1] : List Bit).count 1) < ([1, 0, 1] : List Bit).length + 1
      ∧ ([1, 0] : List Bit).length % 2 = 0 ∧ ([1, 0] : List Bit).length / 2 ≤ ([1, 0] : List Bit).count 1 := by decide

theorem witness_QwriteWritesTheCoefficient :
    State.reset.qLegal = false
      ∧ ((withQ f12 f64NaN).qLegal = true
        ∧ qimWrite (withQ f12 f64NaN).coef ((withQ f12 f64NaN).regs.arg0.extractLsb' 0 1) (withQ f12 f64NaN).q = none)
      ∧ ((withQ f12 f12).qLegal = true
        ∧ qimWrite (withQ f12 f12).coef ((withQ f12 f12).regs.arg0.extractLsb' 0 1) (withQ f12 f12).q = some f24) := by
  decide +kernel

theorem witness_QreadReadsTheParity :
    State.reset.qLegal = false
      ∧ ((withQ 1 f1).qLegal = true ∧ qimRead (withQ 1 f1).coef (withQ 1 f1).q = none)
      ∧ ((withQ f12 fEdge).qLegal = true ∧ f64Finite (withQ f12 fEdge).coef = true
        ∧ f64Finite (f64Div (withQ f12 fEdge).coef (withQ f12 fEdge).q) = true
        ∧ |f64Int (f64Div (withQ f12 fEdge).coef (withQ f12 fEdge).q)| < (2 ^ 48 : Int) * 2 ^ 1074) := by
  refine ⟨by decide +kernel, ⟨by decide +kernel, by decide +kernel⟩, by decide +kernel, by decide +kernel,
    by decide +kernel, ?_⟩
  rw [Int.abs_eq_natAbs]
  decide +kernel

theorem witness_SitesAreDistinctElements :
    (2#2, 7, 0) ∈ [(0#2, 0, 0), (1#2, 0, 7), (2#2, 7, 0), (3#2, 7, 7)]
      ∧ ((scenario false []).readReg .ctrl).extractLsb' 0 2 = 2#2
      ∧ (scenario false []).regs.rows.toNat / 2 = 7 ∧ (scenario false []).regs.cols.toNat / 2 = 7
      ∧ (scenario false []).legalDims = true ∧ 0 < (scenario false []).nsites ∧ 48 < (scenario false []).nsites := by
  decide +kernel

theorem witness_FrameBuildsTheFramedBits :
    (withLen 1025).params.bmax < (withLen 1025).payloadLen ∧ (withLen 1024).payloadLen ≤ (withLen 1024).params.bmax := by
  decide

/-- The scenario of section 3.5 without a SEED write, with a small BMAX, and with another LEN or REPS. -/
def unseeded : State := { scenario true [] with status := { Status.reset with xf := true } }
def smallBmax : State := { scenario false [] with params.bmax := 1, regs.len := 2 }
def longer : State := { scenario true [] with regs.len := 3 }
def repeated : State := { scenario false [] with regs.reps := 2 }

theorem witness_PipelineChecksInOrder :
    (Instr.embed, true, true) ∈ [(Instr.embed, true, true), (.embedf, false, true), (.extract, true, false), (.extractf, false, false)]
      ∧ State.reset.status.xf ≠ true
      ∧ (State.reset.status.xf = false ∧ State.reset.legalDims = false)
      ∧ (unseeded.status.xf = true ∧ unseeded.legalDims = true ∧ unseeded.cfgLegal = false)
      ∧ (longer.status.xf = true ∧ longer.legalDims = true ∧ longer.cfgLegal = true
        ∧ longer.capbits < if true = true then 32 + 8 * longer.payloadLen else 32)
      ∧ (repeated.status.xf = false ∧ repeated.legalDims = true ∧ repeated.cfgLegal = true
        ∧ repeated.capbits < if false = true then 32 + 8 * repeated.payloadLen else 32)
      ∧ (true = true ∧ smallBmax.status.xf = false ∧ smallBmax.legalDims = true ∧ smallBmax.cfgLegal = true
        ∧ 32 + 8 * smallBmax.payloadLen ≤ smallBmax.capbits ∧ smallBmax.params.bmax < smallBmax.payloadLen) := by
  decide +kernel

/-! The scenario over a matrix of one value: what every site reads or takes. -/

def oneValue (c : F64) : State := scenario true (List.replicate 196 c)

theorem matAt_oneValue (c : F64) {e : Nat} (he : e < 196) : (oneValue c).matAt e = c := by
  rw [oneValue, matAt_scenario true _ (List.length_replicate ..) he, Array.getD_eq_getD_getElem?, List.getElem?_toArray,
    List.getElem?_replicate, if_pos he]
  rfl

/-- Framed bit k, repetition 0, is carried by the k-th of the listed sites. -/
theorem site_scenario (xf : Bool) (y : List F64) {k : Nat} (hk : k < 40) : site (scenario xf y) k 0 = siteList.getD k 0 := by
  have hp : (scenario xf y).repCount = 1 := rfl
  have hr : (scenario xf y).rowCount = 14 := by simp [scenario, withMatrix, State.rowCount]
  have hc : (scenario xf y).colCount = 14 := by simp [scenario, withMatrix, State.colCount]
  have hn : k < (scenario xf y).nsites := by rw [State.nsites, hr, hc]; omega
  have h := (scenario xf y).getElem?_siteAddrs hn
  rw [← siteAddrs_scenario xf y, List.getD_eq_getElem?_getD, List.getElem?_take_of_lt hk, h, site, hp, Nat.mul_one, Nat.add_zero]
  rfl

theorem siteList_lt : ∀ k < 40, siteList.getD k 0 < 196 := by decide +kernel

theorem q_scenario (xf : Bool) (y : List F64) : (scenario xf y).q = f12 := f64_halves f12

theorem matAt_site_oneValue (c : F64) {k : Nat} (hk : k < 40) : (oneValue c).matAt (site (oneValue c) k 0) = c := by
  rw [oneValue, site_scenario true _ hk, ← oneValue]
  exact matAt_oneValue c (siteList_lt k hk)

theorem witness_EmbedWritesEverySite :
    embedReady (oneValue f12) true
      ∧ ∀ k r, k < 32 + 8 * (oneValue f12).payloadLen → r < (oneValue f12).repCount →
        (qimWrite ((oneValue f12).matAt (site (oneValue f12) k r)) (framedBit (oneValue f12) k) (oneValue f12).q).isSome
          = true := by
  refine ⟨by unfold embedReady; decide +kernel, fun k r hk hr => ?_⟩
  have hl : (oneValue f12).payloadLen = 1 := by decide +kernel
  have hp : (oneValue f12).repCount = 1 := rfl
  have hq : (oneValue f12).q = f12 := q_scenario _ _
  obtain rfl : r = 0 := by omega
  rw [matAt_site_oneValue f12 (by omega), hq]
  exact (by decide +kernel : ∀ b : Bit, (qimWrite f12 b f12).isSome = true) _

theorem witness_EmbedWritesEverySite_numeric :
    embedReady (oneValue f64NaN) true ∧ 0 < 32 + 8 * (oneValue f64NaN).payloadLen ∧ 0 < (oneValue f64NaN).repCount
      ∧ qimWrite ((oneValue f64NaN).matAt (site (oneValue f64NaN) 0 0)) (framedBit (oneValue f64NaN) 0) (oneValue f64NaN).q
        = none := by
  have hq : (oneValue f64NaN).q = f12 := q_scenario _ _
  refine ⟨by unfold embedReady; decide +kernel, by omega, by decide +kernel, ?_⟩
  rw [matAt_site_oneValue f64NaN (by omega), hq]
  exact (by decide +kernel : ∀ b : Bit, qimWrite f64NaN b f12 = none) _

/-- What the marked sites read. -/
theorem read_marked14 {k : Nat} (hk : k < 40) :
    qimRead (marked14.matAt (site marked14 k 0)) marked14.q = some (frameList.getD k 0) := by
  have hq : marked14.q = f12 := q_scenario _ _
  have h : ∀ k < 40, qimRead (markedList.toArray.getD (siteList.getD k 0) 0) f12 = some (frameList.getD k 0) := by
    decide +kernel
  rw [hq, marked14, site_scenario true _ hk, matAt_scenario true _ (by decide +kernel) (siteList_lt k hk)]
  exact h k hk

theorem witness_ExtractVotesTheFrame :
    extractReady marked14 true
      ∧ 1 = msbFirst 32 (fun k => majority ((List.range marked14.repCount).map fun _ => frameList.getD k 0))
      ∧ 32 + 8 * 1 ≤ marked14.capbits ∧ 1 ≤ marked14.params.bmax
      ∧ ∀ k r, k < 32 + 8 * 1 → r < marked14.repCount →
        qimRead (marked14.matAt (site marked14 k r)) marked14.q = some (frameList.getD k 0) := by
  refine ⟨by unfold extractReady; decide +kernel, by decide +kernel, by decide +kernel, by decide +kernel, fun k r hk hr => ?_⟩
  have hp : marked14.repCount = 1 := rfl
  obtain rfl : r = 0 := by omega
  exact read_marked14 hk

theorem witness_ExtractRefusesABadHeader_numeric :
    extractReady (oneValue f64NaN) true ∧ 31 < 32 ∧ 0 < (oneValue f64NaN).repCount
      ∧ qimRead ((oneValue f64NaN).matAt (site (oneValue f64NaN) 31 0)) (oneValue f64NaN).q = none := by
  have hq : (oneValue f64NaN).q = f12 := q_scenario _ _
  refine ⟨by unfold extractReady; decide +kernel, by omega, by decide +kernel, ?_⟩
  rw [matAt_site_oneValue f64NaN (by omega), hq]
  decide +kernel

/-- Every header bit reads 1. -/
theorem witness_ExtractRefusesABadHeader_mismatch :
    extractReady (oneValue f12) true
      ∧ (∀ k r, k < 32 → r < (oneValue f12).repCount →
        qimRead ((oneValue f12).matAt (site (oneValue f12) k r)) (oneValue f12).q = some 1)
      ∧ (oneValue f12).capbits
        < 32 + 8 * msbFirst 32 (fun _ => majority ((List.range (oneValue f12).repCount).map fun _ => 1)) := by
  have hq : (oneValue f12).q = f12 := q_scenario _ _
  have hp : (oneValue f12).repCount = 1 := rfl
  refine ⟨by unfold extractReady; decide +kernel, fun k r hk hr => ?_, by decide +kernel⟩
  obtain rfl : r = 0 := by omega
  rw [matAt_site_oneValue f12 (by omega), hq]
  decide +kernel

/-- The last payload site of the marked coefficients holds a NaN. -/
def damaged14 : State := scenario true (markedList.set 130 f64NaN)

theorem witness_ExtractRefusesABadHeader_payload :
    extractReady damaged14 true
      ∧ (∀ k r, k < 32 → r < damaged14.repCount →
        qimRead (damaged14.matAt (site damaged14 k r)) damaged14.q = some (frameList.getD k 0))
      ∧ msbFirst 32 (fun k => majority ((List.range damaged14.repCount).map fun _ => frameList.getD k 0)) = 1
      ∧ 32 + 8 * 1 ≤ damaged14.capbits ∧ 1 ≤ damaged14.params.bmax
      ∧ 32 ≤ 39 ∧ 39 < 32 + 8 * 1 ∧ 0 < damaged14.repCount
      ∧ qimRead (damaged14.matAt (site damaged14 39 0)) damaged14.q = none := by
  have hq : damaged14.q = f12 := q_scenario _ _
  have hp : damaged14.repCount = 1 := rfl
  have hlen : (markedList.set 130 f64NaN).length = 196 := by decide +kernel
  have h : ∀ k < 32, qimRead ((markedList.set 130 f64NaN).toArray.getD (siteList.getD k 0) 0) f12
      = some (frameList.getD k 0) := by decide +kernel
  have hbad : qimRead ((markedList.set 130 f64NaN).toArray.getD (siteList.getD 39 0) 0) f12 = none := by decide +kernel
  refine ⟨by unfold extractReady; decide +kernel, fun k r hk hr => ?_, by decide +kernel, by decide +kernel,
    by decide +kernel, by omega, by omega, by decide +kernel, ?_⟩
  · obtain rfl : r = 0 := by omega
    rw [hq, damaged14, site_scenario true _ (by omega), matAt_scenario true _ hlen (siteList_lt k (by omega))]
    exact h k hk
  · rw [hq, damaged14, site_scenario true _ (by omega), matAt_scenario true _ hlen (siteList_lt 39 (by omega))]
    exact hbad

theorem witness_EmbedfTransformsEmbedsAndInverts :
    embedReady wide100 false ∧ haarFwdOK wide100.rowCount wide100.colCount wide100.matrix = true
      ∧ embedBand wide100 (haarFwd wide100.rowCount wide100.colCount wide100.matrix) wide100.framed
        = some (bandList f96).toArray
      ∧ haarInvOK wide100.rowCount wide100.colCount (bandList f96).toArray = true := by
  obtain ⟨hr, hc⟩ : wide100.rowCount = 2 ∧ wide100.colCount = 64 := rows_wide _ _
  have hframe : wide100.framed = List.replicate 32 0 := framed_wide _ _
  rw [hr, hc, matrix_wide100, haarFwd_100.2, hframe]
  exact ⟨by unfold embedReady; decide +kernel, haarFwdOK_100, embedBand_wide _ _, haarInvOK_96⟩

/-- A NaN in the samples: EMBEDF and EXTRACTF cannot transform them. -/
theorem witness_EmbedfTransformsEmbedsAndInverts_numeric :
    embedReady (wide false (constList f64NaN)) false ∧ extractReady (wide false (constList f64NaN)) false
      ∧ haarFwdOK (wide false (constList f64NaN)).rowCount (wide false (constList f64NaN)).colCount
        (wide false (constList f64NaN)).matrix = false := by
  have hf : allFinite (constList f64NaN).toArray = false := by decide +kernel
  refine ⟨by unfold embedReady; decide +kernel, by unfold extractReady; decide +kernel, ?_⟩
  rw [matrix_wide _ _ (by decide +kernel), haarFwdOK, hf, Bool.false_and, Bool.false_and]

/-- Q = 2^-1074: the scaled values overflow, so no site can be written. -/
def tinyQ : State := { wide100 with regs := { wide100.regs with qLo := 1, qHi := 0 } }

theorem witness_EmbedfTransformsEmbedsAndInverts_band :
    embedReady tinyQ false
      ∧ embedBand tinyQ (haarFwd tinyQ.rowCount tinyQ.colCount tinyQ.matrix) tinyQ.framed = none := by
  obtain ⟨hr, hc⟩ : tinyQ.rowCount = 2 ∧ tinyQ.colCount = 64 := rows_wide false (constList f100)
  have hframe : tinyQ.framed = List.replicate 32 0 := framed_wide false (constList f100)
  have hm : tinyQ.matrix = (constList f100).toArray := matrix_wide100
  have hn : tinyQ.nsites = 32 := by simp [State.nsites, hr, hc]
  have hs : tinyQ.regs.seed = 1234 := rfl
  have hb : tinyQ.ctrl.band = .ll := rfl
  have ha : tinyQ.siteAddr = fun i => (0 + i / 32) * 64 + (0 + i % 32) := by
    funext i
    simp [State.siteAddr, hc, hb, bandOrigin]
  have hq : tinyQ.q = 1 := by decide
  have hp : tinyQ.repCount = 1 := rfl
  refine ⟨by unfold embedReady; decide +kernel, ?_⟩
  rw [hr, hc, hm, haarFwd_100.2, hframe, embedBand, State.carriers, State.siteAddrs, State.sitePerm, hn, hs, ha, hq, hp]
  decide +kernel

/-! Blocks of the largest value and three zeros: every coefficient is a quarter of it, which is also Q, so that bit 0 makes the
LL coefficients twice Q, and the inverse transform overflows. -/

def fQuarter : F64 := 0x7FCFFFFFFFFFFFFF
def fHalf : F64 := 0x7FDFFFFFFFFFFFFF

def cornerArray : Array F64 := tabulate 2 64 fun r k => if r = 0 ∧ k % 2 = 0 then fLargest else 0

def corner : State :=
  let s := wide false cornerArray.toList
  { s with regs := { s.regs with qLo := f64Lo fQuarter, qHi := f64Hi fQuarter } }

def raisedList : List F64 := List.replicate 32 fHalf ++ List.replicate 96 fQuarter

theorem haarFwd_corner :
    haarFwdRows 2 64 cornerArray = tabulate 2 64 (fun r _ => if r = 0 then fHalf else 0)
      ∧ haarFwd 2 64 cornerArray = (constList fQuarter).toArray := by
  have h1 : f64Half (f64Add fLargest 0) = fHalf := by decide +kernel
  have h2 : f64Half (f64Sub fLargest 0) = fHalf := by decide +kernel
  have h3 : f64Half (f64Add fHalf 0) = fQuarter := by decide +kernel
  have h4 : f64Half (f64Sub fHalf 0) = fQuarter := by decide +kernel
  have hz1 : f64Half (f64Add 0 0) = 0 := by decide +kernel
  have hz2 : f64Half (f64Sub 0 0) = 0 := by decide +kernel
  have e1 : haarFwdRows 2 64 cornerArray = tabulate 2 64 (fun r _ => if r = 0 then fHalf else 0) := by
    refine tabulate_congr fun r k hr hk => ?_
    unfold rowForward
    simp only
    have hval : ∀ m, m < 32 → elemAt 64 cornerArray r (2 * m) = (if r = 0 then fLargest else 0)
        ∧ elemAt 64 cornerArray r (2 * m + 1) = 0 := fun m hm => by
      rw [cornerArray, elemAt_tabulate _ hr (by omega), elemAt_tabulate _ hr (by omega)]
      refine ⟨?_, by rw [if_neg (by omega)]⟩
      by_cases h : r = 0
      · rw [if_pos ⟨h, by omega⟩, if_pos h]
      · rw [if_neg (fun h' => h h'.1), if_neg h]
    split
    · rw [(hval k (by omega)).1, (hval k (by omega)).2]
      split
      · exact h1
      · exact hz1
    · rw [(hval (k - 64 / 2) (by omega)).1, (hval (k - 64 / 2) (by omega)).2]
      split
      · exact h2
      · exact hz2
  have e2 : (constList fQuarter).toArray = tabulate 2 64 fun _ _ => fQuarter := by
    refine congrArg List.toArray (List.ext_getElem? fun e => ?_)
    by_cases he : e < 128 <;> simp [constList, he]
  refine ⟨e1, ?_⟩
  rw [haarFwd, e1, e2]
  refine tabulate_congr fun r k hr hk => ?_
  unfold colForward
  simp only
  split
  · rw [elemAt_tabulate _ (by omega) hk, elemAt_tabulate _ (by omega) hk, if_pos (by omega), if_neg (by omega), h3]
  · rw [elemAt_tabulate _ (by omega) hk, elemAt_tabulate _ (by omega) hk, if_pos (by omega), if_neg (by omega), h4]

theorem witness_EmbedfTransformsEmbedsAndInverts_inverse :
    embedReady corner false ∧ haarFwdOK corner.rowCount corner.colCount corner.matrix = true
      ∧ embedBand corner (haarFwd corner.rowCount corner.colCount corner.matrix) corner.framed = some raisedList.toArray
      ∧ haarInvOK corner.rowCount corner.colCount raisedList.toArray = false := by
  obtain ⟨hr, hc⟩ : corner.rowCount = 2 ∧ corner.colCount = 64 := rows_wide false cornerArray.toList
  have hframe : corner.framed = List.replicate 32 0 := framed_wide false cornerArray.toList
  have hm : corner.matrix = cornerArray :=
    (matrix_wide false cornerArray.toList (by rw [Array.length_toList, cornerArray, size_tabulate])).trans
      (Array.toArray_toList ..)
  have hn : corner.nsites = 32 := by simp [State.nsites, hr, hc]
  have hs : corner.regs.seed = 1234 := rfl
  have hb : corner.ctrl.band = .ll := rfl
  have ha : corner.siteAddr = fun i => (0 + i / 32) * 64 + (0 + i % 32) := by
    funext i
    simp [State.siteAddr, hc, hb, bandOrigin]
  have hq : corner.q = fQuarter := f64_halves fQuarter
  have hp : corner.repCount = 1 := rfl
  refine ⟨by unfold embedReady; decide +kernel, ?_, ?_, ?_⟩
  · rw [hr, hc, hm, haarFwdOK, haarFwd_corner.1, haarFwd_corner.2]
    decide +kernel
  · rw [hr, hc, hm, haarFwd_corner.2, hframe, embedBand, State.carriers, State.siteAddrs, State.sitePerm, hn, hs, ha, hq, hp]
    decide +kernel
  · rw [hr, hc]
    by_contra hne
    have hall : allFinite (haarInv 2 64 raisedList.toArray) = true :=
      (Bool.and_eq_true_iff.1 ((Bool.not_eq_false _).mp hne)).2
    have hfin := (allFinite_iff _).1 hall 0 (by rw [size_haarInv]; omega)
    have hel := (elemAt_haarInv (rows := 2) (cols := 64) (i := 0) (j := 0) raisedList.toArray rfl rfl (by omega)
      (by omega)).2.2.2.2.1
    rw [elemAt, Nat.mul_zero, Nat.zero_mul] at hel
    rw [hel] at hfin
    exact absurd hfin (by decide +kernel)

/-- 12.0 everywhere: every header bit reads 1, which is implausible. -/
theorem witness_ExtractfTransformsAndExtracts_mismatch :
    extractReady (wide false (constList f12)) false
      ∧ haarFwdOK (wide false (constList f12)).rowCount (wide false (constList f12)).colCount
        (wide false (constList f12)).matrix = true
      ∧ extractBand (wide false (constList f12)) (haarFwd (wide false (constList f12)).rowCount
        (wide false (constList f12)).colCount (wide false (constList f12)).matrix) = .error .decodeMismatch := by
  obtain ⟨hr, hc⟩ := rows_wide false (constList f12)
  have hm : (wide false (constList f12)).matrix = (constList f12).toArray := matrix_wide _ _ (by decide +kernel)
  have hw : haarFwdRows 2 64 (constList f12).toArray = tabulate 2 64 (fun _ k => if k < 32 then f12 else 0)
      ∧ haarFwd 2 64 (constList f12).toArray = (bandList f12).toArray := haarFwd_const (by decide +kernel) (by decide +kernel)
  have hn : (wide false (constList f12)).nsites = 32 := by simp [State.nsites, hr, hc]
  have hs : (wide false (constList f12)).regs.seed = 1234 := rfl
  have hb : (wide false (constList f12)).ctrl.band = .ll := rfl
  have ha : (wide false (constList f12)).siteAddr = fun i => (0 + i / 32) * 64 + (0 + i % 32) := by
    funext i
    simp [State.siteAddr, hc, hb, bandOrigin]
  have hq : (wide false (constList f12)).q = f12 := f64_halves f12
  have hp : (wide false (constList f12)).repCount = 1 := rfl
  have hcap : (wide false (constList f12)).capbits = 32 := by simp [State.capbits, hn, hp]
  have hmax : (wide false (constList f12)).params.bmax = 1024 := rfl
  refine ⟨by unfold extractReady; decide +kernel, ?_, ?_⟩
  · rw [hr, hc, hm, haarFwdOK, hw.1, hw.2]
    decide +kernel
  · rw [hr, hc, hm, hw.2, extractBand, State.siteAddrs, State.sitePerm, hn, hs, ha, hq, hp, hcap, hmax]
    decide +kernel

theorem witness_ExtractfTransformsAndExtracts :
    extractReady wide96 false ∧ haarFwdOK wide96.rowCount wide96.colCount wide96.matrix = true
      ∧ extractBand wide96 (haarFwd wide96.rowCount wide96.colCount wide96.matrix) = .ok emptyFrame := by
  obtain ⟨hr, hc⟩ : wide96.rowCount = 2 ∧ wide96.colCount = 64 := rows_wide _ _
  rw [hr, hc, matrix_wide96, haarFwd_96.2]
  exact ⟨by unfold extractReady; decide +kernel, haarFwdOK_96, extractBand_wide96 _ _⟩

/-- What FWD leaves of a constant matrix. -/
def transformed (s : State) (c : F64) : State := ((s.setMatrix (bandList c).toArray).setXf true).succeed

theorem fwd_wide100 : exec .fwd wide100 = .next (transformed wide100 f100) := by
  have hx : wide100.status.xf = false := rfl
  have hl : wide100.legalDims = true := by decide +kernel
  obtain ⟨hr, hc⟩ : wide100.rowCount = 2 ∧ wide100.colCount = 64 := rows_wide _ _
  rw [exec_eq_finish]
  simp only [runOf, runFwd, hx, hl, hr, hc, matrix_wide100, haarFwdOK_100, haarFwd_100.2, Bool.not_true, Bool.false_eq_true,
    if_false]
  rfl

theorem fwd_wide96 : exec .fwd wide96 = .next (transformed wide96 f96) := by
  have hx : wide96.status.xf = false := rfl
  have hl : wide96.legalDims = true := by decide +kernel
  obtain ⟨hr, hc⟩ : wide96.rowCount = 2 ∧ wide96.colCount = 64 := rows_wide _ _
  rw [exec_eq_finish]
  simp only [runOf, runFwd, hx, hl, hr, hc, matrix_wide96, haarFwdOK_96, haarFwd_96.2, Bool.not_true, Bool.false_eq_true,
    if_false]
  rfl

theorem matrix_transformed100 : (transformed wide100 f100).matrix = (bandList f100).toArray :=
  State.matrix_setMatrix wide100 _ (by decide +kernel)

def embeddedWide : State :=
  (((transformed wide100 f100).setMatrix (bandList f96).toArray).setFrame (List.replicate 32 0)).succeed

theorem embed_transformed100 : exec .embed (transformed wide100 f100) = .next embeddedWide := by
  have hcheck : embedCheck (transformed wide100 f100) true = none := by decide +kernel
  have hframe : (transformed wide100 f100).framed = List.replicate 32 0 := framed_wide false (constList f100)
  have hband : embedBand (transformed wide100 f100) (bandList f100).toArray (List.replicate 32 0)
      = some (bandList f96).toArray := embedBand_wide false (constList f100)
  rw [exec_eq_finish]
  simp only [runOf, runEmbed, hcheck, matrix_transformed100, hframe, hband]
  rfl

theorem inv_embeddedWide : ∃ t, exec .inv embeddedWide = .next t ∧ succeeded t := by
  have hx : embeddedWide.status.xf = true := rfl
  have hl : embeddedWide.legalDims = true := by decide +kernel
  have hr : embeddedWide.rowCount = 2 := (rows_wide false (constList f100)).1
  have hc : embeddedWide.colCount = 64 := (rows_wide false (constList f100)).2
  have hm : embeddedWide.matrix = (bandList f96).toArray :=
    State.matrix_setMatrix (transformed wide100 f100) _ (by decide +kernel)
  have hrun : runOf .inv embeddedWide = .ok ((embeddedWide.setMatrix (constList f96).toArray).setXf false) := by
    simp only [runOf, runInv, hx, hl, hr, hc, hm, haarInvOK_96, haarInv_96.2, Bool.not_true, Bool.false_eq_true, if_false]
  exact ⟨_, by rw [exec_eq_finish, hrun]; rfl, ⟨rfl, rfl, rfl⟩⟩

theorem witness_EmbedfEqualsFwdEmbedInv :
    clean wide100 ∧ wide100.status.xf = false
      ∧ ∃ a b c, exec .fwd wide100 = .next a ∧ succeeded a ∧ exec .embed a = .next b ∧ succeeded b
        ∧ exec .inv b = .next c ∧ succeeded c := by
  obtain ⟨c, hc, hs⟩ := inv_embeddedWide
  exact ⟨⟨rfl, rfl⟩, rfl, _, _, c, fwd_wide100, ⟨rfl, rfl, rfl⟩, embed_transformed100, ⟨rfl, rfl, rfl⟩, hc, hs⟩

theorem witness_ExtractfEqualsFwdThenExtract :
    clean wide96 ∧ wide96.status.xf = false
      ∧ ∃ a b, exec .fwd wide96 = .next a ∧ succeeded a ∧ exec .extract a = .next b := by
  obtain ⟨b, hb⟩ := exec_next .extract (transformed wide96 f96)
  exact ⟨⟨rfl, rfl⟩, rfl, _, b, fwd_wide96, ⟨rfl, rfl, rfl⟩, hb⟩

/-- What a host may leave between the two commands: another LEN and BITLEN, and other bytes and bits. -/
def overwritten (s : State) : State :=
  { s with
    regs := { s.regs with len := 0xFFFFFFFF, bitlen := 7 }
    bytes := s.bytes.writeRange 0 [1, 2, 3]
    bits := s.bits.writeRange 0 [1, 1, 1] }

theorem sameMarking_overwritten (s : State) : sameMarking s (overwritten s) :=
  ⟨rfl, fun _ => rfl, rfl, rfl, rfl, rfl, rfl, rfl, rfl, rfl, rfl⟩

theorem witness_EmbedThenExtractReturnsThePayload :
    clean coeffs14 ∧ ∃ t, exec .embed coeffs14 = .next t ∧ succeeded t ∧ sameMarking t (overwritten t)
      ∧ clean (overwritten t) :=
  ⟨⟨rfl, rfl⟩, _, by rw [exec_eq_finish, runOf, runEmbed_coeffs14]; rfl, ⟨rfl, rfl, rfl⟩, sameMarking_overwritten _, rfl, rfl⟩

theorem witness_EmbedfThenExtractfReturnsThePayload :
    clean wide100 ∧ ∃ t, exec .embedf wide100 = .next t ∧ succeeded t ∧ sameMarking t (overwritten t) ∧ clean (overwritten t)
      ∧ haarFwdOK wide100.rowCount wide100.colCount t.matrix = true
      ∧ ∀ k r, k < 32 + 8 * wide100.payloadLen → r < wide100.repCount →
        let written := f64Div ((haarFwd wide100.rowCount wide100.colCount wide100.matrix).getD (site wide100 k r) 0) wide100.q
        let again := f64Div ((haarFwd wide100.rowCount wide100.colCount t.matrix).getD (site wide100 k r) 0) wide100.q
        f64Finite again = true
          ∧ 2 * |f64Int again - latticeIndex written (framedBit wide100 k) * 2 ^ 1074| < 2 ^ 1074 := by
  obtain ⟨hr, hc⟩ : wide100.rowCount = 2 ∧ wide100.colCount = 64 := rows_wide _ _
  have hm : ((wide100.setMatrix (constList f96).toArray).setFrame (List.replicate 32 0)).succeed.matrix
      = (constList f96).toArray := State.matrix_setMatrix wide100 _ (by decide +kernel)
  refine ⟨⟨rfl, rfl⟩, _, by rw [exec_eq_finish, runOf, runEmbedf_wide100]; rfl, ⟨rfl, rfl, rfl⟩,
    sameMarking_overwritten _, ⟨rfl, rfl⟩, ?_, fun k r hk hr' => ?_⟩
  · rw [hm, hr, hc]; exact haarFwdOK_96
  · have hl : wide100.regs.len = 0 := rfl
    have hp : wide100.repCount = 1 := rfl
    have hk' : k < 32 := by rw [State.payloadLen, hl] at hk; simpa using hk
    obtain rfl : r = 0 := by omega
    have hq : wide100.q = f12 := f64_halves f12
    have hbit : framedBit wide100 k = 0 := by rw [framedBit, if_pos hk', hl]; simp
    have hn : wide100.nsites = 32 := by simp [State.nsites, hr, hc]
    have hs : wide100.regs.seed = 1234 := rfl
    have hb : wide100.ctrl.band = .ll := rfl
    have hsite : site wide100 k 0 < 32 := by
      have hv : ∀ k < 32, (makePermutation 32 1234).getD k 0 < 32 := by decide +kernel
      have h := hv k hk'
      simp only [site, State.siteAddr, State.sitePerm, hp, hn, hs, hb, hc, bandOrigin, Nat.mul_one, Nat.add_zero]
      omega
    rw [hm, hr, hc, matrix_wide100, haarFwd_100.2, haarFwd_96.2, hq, hbit]
    have h100 : ∀ e < 32, (bandList f100).toArray.getD e 0 = f100 := by decide +kernel
    have h96 : ∀ e < 32, (bandList f96).toArray.getD e 0 = f96 := by decide +kernel
    rw [h100 _ hsite, h96 _ hsite]
    have hzero : f64Int (f64Div f96 f12) - latticeIndex (f64Div f100 f12) 0 * 2 ^ 1074 = 0 := by decide +kernel
    refine ⟨by decide +kernel, ?_⟩
    simp only [hzero, abs_zero, Int.mul_zero]
    exact Int.pow_pos (by omega)

theorem witness_DerivedRegistersReadTheirFormulas :
    { State.reset with regs.reps := 0 }.regs.reps = 0 ∧ 1 ≤ State.reset.regs.reps.toNat := by decide

theorem witness_OperandWriteReadsBack :
    State.reset.busy = false ∧ Reg.rows ∈ operandRegs ∧ Reg.seed ∈ operandRegs ∧ Reg.coefHi ∈ operandRegs
      ∧ ∀ v, (0x020, { State.reset with regs.cols := v.extractLsb' 0 16, status.xf := false }) ∈ storedAt State.reset v := by
  refine ⟨by decide, by decide, by decide, by decide, fun v => ?_⟩
  exact .tail _ (.head _)

theorem witness_ReadOnlyWritesAreIgnored :
    Reg.id ∈ readOnlyRegs ∧ Reg.capbits ∈ readOnlyRegs ∧ State.reset.params.wf ∧ 16383 < State.reset.params.pmax := by
  decide

/-- The last word of each window, and a BMAX that is no multiple of 4. -/
theorem witness_WindowWriteStoresItsElements :
    State.reset.busy = false ∧ State.reset.params.wf ∧ 4 * 255 < State.reset.params.bmax
      ∧ (3 < 4 ∧ 4 * 255 + 3 < State.reset.params.bmax) ∧ 8223 < State.reset.params.fmax
      ∧ 65535 < State.reset.params.rmax * State.reset.params.cmax
      ∧ Params.wf { Params.reference with bmax := 5 } ∧ 4 * 1 < { Params.reference with bmax := 5 }.bmax := by decide

theorem witness_WindowReadAnswersItsElements :
    State.reset.busy = false ∧ (0x030, 1) ∈ registerValues State.reset ∧ (0x05C, 0) ∈ registerValues State.reset
      ∧ State.reset.params.wf ∧ 4 * 255 < State.reset.params.bmax ∧ 3 < 4
      ∧ 8223 < State.reset.params.fmax ∧ 16383 < State.reset.params.pmax
      ∧ 65535 < State.reset.params.rmax * State.reset.params.cmax := by decide

/-- The largest offset, and the last byte of the register block's last word: a bus error each. -/
theorem witness_BusErrorsAreExactlyTheBadAccesses :
    State.reset.params.wf ∧ 0x7FFFFFF < 2 ^ 27
      ∧ (∃ f, busAccess { addr := State.reset.params.base + 0x5F, width := 32, op := .read } State.reset = .fault f)
      ∧ ∃ f, busAccess { addr := State.reset.params.base + 0x60, width := 32, op := .read } State.reset = .fault f :=
  ⟨by decide, by decide, ⟨_, rfl⟩, _, rfl⟩

theorem witness_ReadsHaveNoSideEffect :
    (∃ t, busAccess { addr := 0x058, width := 32, op := .read } (busyWith 0) = .next t)
      ∧ (∃ t, busAccess { addr := 0x058, width := 32, op := .read } State.reset = .next t) ∧ State.reset.busy = false :=
  ⟨⟨_, busAccess_reg (busyWith 0) .nsites .read⟩, ⟨_, busAccess_reg State.reset .nsites .read⟩, rfl⟩

/-- A block at 2^27: the last address below it and the first above it. -/
def elsewhere : State := { State.reset with params := { Params.reference with base := 2 ^ 27 } }

theorem witness_AccessElsewhereLeavesTheBlockAlone :
    2 ^ 27 - 1 < elsewhere.params.base ∧ elsewhere.params.base + 2 ^ 27 ≤ 2 ^ 28 := by decide

theorem witness_StatusReadsItsFieldsAndClearsOnes :
    (0x04 : Word).getLsbD 2 = true ∧ (0x0A : Word).getLsbD 2 = false := by decide

theorem witness_CtrlWriteSetsBandAndIe :
    (0x7FFFFFFF : Word).getLsbD 31 = false ∧ (busyWith 0).busy = true ∧ State.reset.busy = false := by decide

theorem witness_IrqFollowsIeAndDone :
    (∃ t, exec .posmod State.reset = .next t)
      ∧ (State.reset.busy = false ∧ ∃ t, write32 State.reset 0x018 0x20 = .next t)
      ∧ ((0x02 : Word).getLsbD 1 = true ∧ ∃ t, write32 State.reset 0x014 0x02 = .next t)
      ∧ ((0x100 : Word).getLsbD 31 = false ∧ ∃ t, write32 (busyWith 0) 0x010 0x100 = .next t)
      ∧ ((0x80000100 : Word).getLsbD 31 = true ∧ ∃ t, write32 (busyWith 0) 0x010 0x80000100 = .next t)
      ∧ ∃ t, step { busyWith 0 with agenda := [.hardReset] } = .next t :=
  ⟨exec_next _ _, ⟨rfl, _, busAccess_reg State.reset .cmd _⟩, ⟨by decide, _, busAccess_reg State.reset .status _⟩,
    ⟨by decide, _, busAccess_reg (busyWith 0) .ctrl _⟩, ⟨by decide, _, busAccess_reg (busyWith 0) .ctrl _⟩, _, rfl⟩

/-- A host that is about to run `rdm e`, on an idle block. -/
def readingElement (e : Nat) : State := State.reset.load [.rdw .mat (2 * e), .rdw .mat (2 * e + 1)]

/-- A host program of one statement, its host next to act. -/
def hosting (st : HostStmt) : State := { State.reset.load [st] with agenda := [.host] }

theorem witness_HostUsesTheValuesRead :
    hostNext (hosting (.beq .status 1 1 0)) []
      ∧ hostNext { hosting (.beq .status 1 1 0) with agenda := [.host, .engine, .hardReset] } [.engine, .hardReset]
      ∧ hostNext (State.reset.load [.goto 3]) []
      ∧ (hosting (.beq .status 1 1 0)).host.prog[(hosting (.beq .status 1 1 0)).host.pc]? = some (.beq .status 1 1 0)
      ∧ (hosting (.bne .capbits 0xFF 0 7)).host.prog[(hosting (.bne .capbits 0xFF 0 7)).host.pc]?
        = some (.bne .capbits 0xFF 0 7)
      ∧ (hosting (.goto 3)).host.prog[(hosting (.goto 3)).host.pc]? = some (.goto 3) :=
  ⟨.inl rfl, .inl rfl, .inr ⟨rfl, rfl, rfl⟩, rfl, rfl, rfl⟩

/-- An rd, an rdw of the last word of a window, and an rdm of the first and of the last element, with a command running and
without. -/
theorem witness_HostUsesTheValuesRead_values :
    State.reset.params.wf ∧ (hosting (.rd .id)).host.prog[(hosting (.rd .id)).host.pc]? = some (.rd .id)
      ∧ Region.words .mat State.reset.params = 131072
      ∧ (hosting (.rdw .mat 131071)).host.prog[(hosting (.rdw .mat 131071)).host.pc]? = some (.rdw .mat 131071)
      ∧ 65535 < State.reset.params.rmax * State.reset.params.cmax
      ∧ hostNext (readingElement 0) [] ∧ hostNext { readingElement 65535 with agenda := [] } []
      ∧ hostNext { (readingElement 0).accept 0 with agenda := [.host, .host, .engine] } [.host, .engine]
      ∧ hostNext { (readingElement 0).accept 0 with agenda := [.host, .engine] } [.engine]
      ∧ (∀ e ∈ [0, 65535],
        (HostLine.rdm e).expand (fun _ => none) (readingElement e).host.pc = some [.rdw .mat (2 * e), .rdw .mat (2 * e + 1)]
          ∧ (readingElement e).host.prog[(readingElement e).host.pc]? = some (.rdw .mat (2 * e))
          ∧ (readingElement e).host.prog[(readingElement e).host.pc + 1]? = some (.rdw .mat (2 * e + 1))) := by
  refine ⟨by decide, rfl, by decide, rfl, by decide, .inr ⟨rfl, rfl, rfl⟩, .inr ⟨rfl, rfl, rfl⟩, .inl rfl, .inl rfl, ?_⟩
  intro e _
  exact ⟨rfl, rfl, rfl⟩

theorem witness_OperandWritesWhileBusyAreDropped :
    (busyWith 0).busy = true ∧ (busyWith 0).params.wf ∧ Reg.rows ∈ operandRegs ∧ Reg.coefHi ∈ operandRegs
      ∧ (0x0010000 ≤ 0x0010000 ∧ 0x0010000 % 4 = 0 ∧ implemented (busyWith 0).params 0x0010000)
      ∧ (0x0010000 ≤ 0x107FFFC ∧ 0x107FFFC % 4 = 0 ∧ implemented (busyWith 0).params 0x107FFFC) := by
  unfold implemented
  decide

theorem witness_BusyReadsAreExactOrDraws :
    (busyWith 0).busy = true ∧ (busyWith 0).params.wf ∧ Reg.id ∈ exactRegs ∧ Reg.cmd ∈ exactRegs
      ∧ (0x01C ≤ 0x01C ∧ 0x01C % 4 = 0 ∧ implemented (busyWith 0).params 0x01C)
      ∧ (0x01C ≤ 0x107FFFC ∧ 0x107FFFC % 4 = 0 ∧ implemented (busyWith 0).params 0x107FFFC) := by
  unfold implemented
  decide

theorem witness_HardResetResetsEverything :
    { busyWith 0x43 with agenda := [.hardReset, .host] }.agenda = .hardReset :: [.host] := rfl

/-- A soft reset that aborts EMBED, one that aborts an illegal word, and one of an idle block. -/
theorem witness_SoftResetRedrawsOnlyTheAbortedRanges :
    (0x80000000 : Word).getLsbD 31 = true ∧ (busyWith 0x41).inflight = some 0x41 ∧ decodeWord 0x41 = .ok .embed
      ∧ decodeWord 0x120 = .error .reservedBits ∧ State.reset.inflight = none := by decide

theorem witness_FirstCommandAfterReset :
    Instr.frame ∈ [Instr.nop, .b2bits, .bits2b, .u32bits, .bitsu32, .frame]
      ∧ Instr.qread ∈ [Instr.posmod, .permgen, .qwrite, .qread] ∧ Instr.extractf ∈ [Instr.fwd, .embedf, .extractf]
      ∧ Instr.extract ∈ [Instr.inv, .embed, .extract] := by decide

/-- Reset, and a state of a run that has written memory and aborted a command. -/
theorem witness_EveryStepKeepsTheInvariant :
    State.reset.Inv ∧ (∃ t, step State.reset = .next t)
      ∧ (({ State.reset with bits := State.reset.bits.write 5 1 }.accept 0x44).softReset).Inv :=
  ⟨by decide, ⟨_, rfl⟩, by decide +kernel⟩

/-! ### The bus and the host program -/

/-- 20_memory.md R104: lane i of a BYTE word in bits 8i+7:8i, and a lane at or past BMAX reads 0. -/
theorem test_byte_window :
    (answered (busAccess { addr := 0x0010004, width := 32, op := .read }
      { State.reset with
        params := { Params.reference with bmax := 5 }
        bytes := State.reset.bytes.writeRange 0 [72, 101, 108, 108, 111] })).map State.reply
      = some (some (.data 0x0000006F)) := by decide +kernel

/-- 95_test_vectors.md section 2.1: `wrb 0, 72 101 108 108` writes 0x6C6C6548; `wait` reads STATUS until BUSY is 0. -/
theorem test_assemble :
    assemble [.label "top", .wrb 0 72 101 108 108, .run .b2bits, .beq .status 0x4 0x4 "top"]
      = some [.wrw .byte 0 0x6C6C6548, .wr .cmd 0x01, .beq .status 0x1 0x1 2, .beq .status 0x4 0x4 0] := by decide +kernel

/-- 95_test_vectors.md section 4.6, program P6, from its try of REPS = 3 on. -/
def adaptive : List HostLine :=
  [.wr .reps 3, .rd .capbits, .run .embedf, .beq .status 0xF4 0x24 "small", .goto "fail", .label "small", .wr .reps 1,
    .rd .capbits, .run .embedf, .bne .status 0x4 0x0 "fail", .wr .len 0, .wrb 0 0 0 0 0, .run .extractf,
    .bne .status 0x4 0x0 "fail", .rd .len, .rdw .byte 0, .goto "end", .label "fail", .wr .status 0x4, .label "end",
    .rd .status]

/-- Section 4.6: the accesses of P6 and the path it takes, from the values that the listing there gives. -/
theorem test_listing :
    listing adaptive 30 [0x10, 0x226, 0x31, 0x202, 0x202, 0x1, 0x41, 0x202]
      = some ([.write 0x30 3, .read 0x5C 0x10, .write 0x18 0x43, .wait, .read 0x14 0x226, .went (some "small")]
        ++ [.write 0x30 1, .read 0x5C 0x31, .write 0x18 0x43, .wait, .read 0x14 0x202, .went none]
        ++ [.write 0x34 0, .write 0x10000 0, .write 0x18 0x44, .wait, .read 0x14 0x202, .went none]
        ++ [.read 0x34 1, .read 0x10000 0x41, .went (some "end"), .read 0x14 0x202]) := by decide +kernel

/-- Section 4.2: MAT elements and `wr64` list the low half first. -/
theorem test_listing_pairs :
    listing [.wrm 1 0x4000000000000000, .rdm 0, .wr64 .q 0x4028000000000000] 3 [0, 0x40040000]
      = some [.write 0x1000008 0, .write 0x100000C 0x40000000, .read 0x1000000 0, .read 0x1000004 0x40040000,
        .double 0x4004000000000000, .write 0x24 0, .write 0x28 0x40280000] := by decide +kernel

/-- 95_test_vectors.md section 4.2: after the first FWD, `rdm 0` reads 0x00000000 and then 0x40040000, so 2.5, which is +1.25 * 2^1. -/
theorem test_rdm_value :
    (HostLine.rdm 0).value [some 0x40040000, some 0x00000000] = some (.double 0x4004000000000000) := by decide +kernel

/-- The second step of an `rdm 0` completes the pair that the host keeps. -/
theorem test_rdm_second_read :
    (answered (step
      { readingElement 0 with
        mat := State.reset.mat.writeRange 0 [0x00000000, 0x40040000]
        host.pc := 1
        host.reads := [some 0x00000000] })).map (fun t => (HostLine.rdm 0).value t.host.reads)
      = some (some (.double 0x4004000000000000)) := by decide +kernel

end Sys2Proof.Tests
end

/-! ### binary64 rounding to nearest, ties to even (00_scope.md R11) -/

namespace Sys2Proof.Machine

/-- What rounding half to even gives, over the product of the denominator and the result. -/
theorem roundHalfEven_within_half (num : Nat) {den : Nat} (h : 0 < den) :
    2 * num ≤ 2 * (den * roundHalfEven num den) + den ∧ 2 * (den * roundHalfEven num den) ≤ 2 * num + den
      ∧ (2 * num = 2 * (den * roundHalfEven num den) + den ∨ 2 * (den * roundHalfEven num den) = 2 * num + den →
        roundHalfEven num den % 2 = 0) := by
  have hspec := roundHalfEven_spec num h
  rwa [Nat.mul_add, Nat.mul_one, Nat.mul_left_comm] at hspec

/-- No integer is nearer to num / den than the one roundHalfEven gives, and another one as near leaves it even. -/
theorem roundHalfEven_nearest (num j : Nat) {den : Nat} (h : 0 < den) :
    |(num : Int) - den * roundHalfEven num den| ≤ |(num : Int) - den * j|
      ∧ (|(num : Int) - den * roundHalfEven num den| = |(num : Int) - den * j| → j ≠ roundHalfEven num den →
        roundHalfEven num den % 2 = 0) := by
  obtain ⟨hup, hlow, htie⟩ := roundHalfEven_within_half num h
  generalize roundHalfEven num den = r at *
  by_cases hj : j = r
  · subst hj
    exact ⟨le_rfl, fun _ hne => absurd rfl hne⟩
  have hapart : den * r + den ≤ den * j ∨ den * j + den ≤ den * r := by
    obtain hlt | hlt := Nat.lt_or_gt_of_ne hj
    · exact .inr (Nat.mul_le_mul_left den hlt)
    · exact .inl (Nat.mul_le_mul_left den hlt)
  simp only [← Nat.cast_mul, Int.abs_eq_natAbs]
  generalize den * r = x at *
  generalize den * j = y at *
  exact ⟨by omega, fun heq _ => htie (by omega)⟩

/-- An even n is reached from half below it on: the tie under n goes up. -/
theorem le_roundHalfEven_iff (num : Nat) {den n : Nat} (h : 0 < den) (hn : n % 2 = 0) :
    n ≤ roundHalfEven num den ↔ 2 * (den * n) ≤ 2 * num + den := by
  obtain ⟨hup, hlow, htie⟩ := roundHalfEven_within_half num h
  generalize roundHalfEven num den = r at *
  obtain hle | rfl | hlt : n ≤ r ∨ n = r + 1 ∨ r + 2 ≤ n := by omega
  · have := Nat.mul_le_mul_left den hle
    exact ⟨fun _ => by omega, fun _ => hle⟩
  · rw [Nat.mul_succ]
    exact ⟨fun hle => by omega, fun hle => absurd (htie (by omega)) (by omega)⟩
  · have := Nat.mul_le_mul_left den hlt
    rw [Nat.mul_add] at this
    exact ⟨fun hle => by omega, fun hle => by omega⟩

/-- A binary64 magnitude is a multiple of 2^k, or below the least number whose last place is 2^k. -/
theorem f64Mag_multiple_or_small (y : F64) (k : Nat) :
    (∃ j, f64Mag y = j * 2 ^ k) ∨ (k ≠ 0 ∧ f64Mag y < 2 ^ 52 * 2 ^ k) := by
  obtain ⟨m, e, hm, hy⟩ : ∃ m e, m < 2 ^ 53 ∧ f64Mag y = m * 2 ^ e := by
    have := f64Frac_lt y
    unfold f64Mag
    split
    · exact ⟨f64Frac y, 0, by omega, by simp⟩
    · exact ⟨_, _, by omega, rfl⟩
  obtain hek | hke := Nat.lt_or_ge e k
  · refine .inr ⟨by omega, ?_⟩
    calc f64Mag y = m * 2 ^ e := hy
      _ < 2 ^ 53 * 2 ^ e := Nat.mul_lt_mul_of_pos_right hm (by positivity)
      _ = 2 ^ 52 * 2 ^ (e + 1) := by ring
      _ ≤ 2 ^ 52 * 2 ^ k := Nat.mul_le_mul_left _ (Nat.pow_le_pow_right (by omega) hek)
  · exact .inl ⟨m * 2 ^ (e - k), by rw [hy, Nat.mul_assoc, ← pow_add, Nat.sub_add_cancel hke]⟩

/-- The fraction field and the significand of a finite result have the same parity. -/
theorem f64Frac_round_mod_two (neg : Bool) (num den : Nat) (h : f64Finite (f64Round neg num den) = true) :
    f64Frac (f64Round neg num den) % 2 = f64Sig num den % 2 := by
  rw [f64Finite_round] at h
  have hbits : f64RoundBits num den = f64Shift (num / den) * 2 ^ 52 + f64Sig num den := Nat.min_eq_left h.le
  rw [f64Frac_round, hbits]
  omega

/-- No multiple of the last place kept is nearer than the significand's, and another one as near leaves it even. -/
theorem f64Sig_nearest (num j : Nat) {den : Nat} (hden : 0 < den) :
    |(num : Int) - den * (f64Sig num den * 2 ^ f64Shift (num / den) : Nat)|
        ≤ |(num : Int) - den * (j * 2 ^ f64Shift (num / den) : Nat)|
      ∧ (|(num : Int) - den * (f64Sig num den * 2 ^ f64Shift (num / den) : Nat)|
          = |(num : Int) - den * (j * 2 ^ f64Shift (num / den) : Nat)| → j ≠ f64Sig num den → f64Sig num den % 2 = 0) := by
  have hnear := roundHalfEven_nearest num j (den := den * 2 ^ f64Shift (num / den)) (by positivity)
  have hscale : ∀ i : Nat, (den : Int) * (i * 2 ^ f64Shift (num / den) : Nat)
      = (den * 2 ^ f64Shift (num / den) : Nat) * i := fun i => by push_cast; ring
  rw [hscale, hscale]
  exact hnear

/-- R11: a finite result is a nearest binary64 magnitude, with an even significand when another one is as near. -/
theorem f64Round_nearest (neg : Bool) (num : Nat) {den : Nat} (y : F64) (hden : 0 < den)
    (h : f64Finite (f64Round neg num den) = true) :
    |(num : Int) - den * f64Mag (f64Round neg num den)| ≤ |(num : Int) - den * f64Mag y|
      ∧ (|(num : Int) - den * f64Mag (f64Round neg num den)| = |(num : Int) - den * f64Mag y| →
        f64Mag y ≠ f64Mag (f64Round neg num den) → f64Frac (f64Round neg num den) % 2 = 0) := by
  rw [f64Frac_round_mod_two _ _ _ h, f64Mag_round _ _ _ h]
  obtain ⟨j, hj⟩ | ⟨hk, hsmall⟩ := f64Mag_multiple_or_small y (f64Shift (num / den))
  · obtain ⟨hle, htie⟩ := f64Sig_nearest num j hden
    rw [hj]
    exact ⟨hle, fun heq hne => htie heq fun hjs => hne (by rw [hjs])⟩
  · -- the multiple 2^52 of the last place lies between y and the number, so the result is strictly nearer than y
    have hlt := calc |(num : Int) - den * (f64Sig num den * 2 ^ f64Shift (num / den) : Nat)|
        _ ≤ |(num : Int) - den * (2 ^ 52 * 2 ^ f64Shift (num / den) : Nat)| := (f64Sig_nearest num (2 ^ 52) hden).1
        _ < |(num : Int) - den * f64Mag y| := by
          have hnum := f64Shift_small hk
          rw [Nat.mul_assoc, Nat.mul_comm _ (2 ^ 52)] at hnum
          have hy := Nat.mul_lt_mul_of_pos_left hsmall hden
          zify at hnum hy
          push_cast
          rw [abs_of_nonneg (by linarith), abs_of_nonneg (by linarith)]
          linarith
    exact ⟨hlt.le, fun heq => absurd heq hlt.ne⟩

/-- The overflow threshold in units of 2^-1074, as half last places of the largest finite magnitude. -/
theorem f64_threshold : (2 ^ 1024 - 2 ^ 970) * 2 ^ 1074 = (2 ^ 54 - 1) * 2 ^ 2044 := by
  rw [show 1024 = 54 + 970 by rfl, pow_add, ← Nat.sub_one_mul, Nat.mul_assoc, ← pow_add]

/-- R11: the result is an infinity exactly from the largest finite magnitude plus half of its last place on. -/
theorem f64Finite_round_eq_false_iff (neg : Bool) (num : Nat) {den : Nat} (hden : 0 < den) :
    f64Finite (f64Round neg num den) = false ↔ (2 ^ 1024 - 2 ^ 970) * 2 ^ 1074 * den ≤ num := by
  rw [← Bool.not_eq_true, f64Finite_round, Nat.not_lt, f64_threshold, f64InfBits]
  obtain ⟨hsig, hsig'⟩ := f64Sig_bounds num den
  obtain hk | hk | hk : f64Shift (num / den) ≤ 2044 ∨ f64Shift (num / den) = 2045 ∨ 2046 ≤ f64Shift (num / den) := by omega
  · refine iff_of_false (by omega) (Nat.not_le.2 ?_)
    rw [← Nat.div_lt_iff_lt_mul hden]
    have hlt := (Nat.div_lt_iff_lt_mul (by positivity)).1 (f64Shift_spec (num / den)).1
    exact hlt.trans_le (Nat.mul_le_mul (by omega) (pow_le_pow_right₀ (by omega) hk))
  · have htop : 2 ^ 53 ≤ f64Sig num den ↔ (2 ^ 54 - 1) * 2 ^ 2044 * den ≤ num := by
      unfold f64Sig
      rw [hk, le_roundHalfEven_iff num (by positivity) (by omega), pow_succ 2 2044]
      generalize 2 ^ 2044 = p
      rw [Nat.mul_assoc (2 ^ 54 - 1), Nat.mul_comm p den, ← Nat.mul_assoc den p 2]
      generalize den * p = d
      omega
    rw [← htop, hk]
    omega
  · refine iff_of_true (by have := hsig' (by omega); omega) ?_
    calc (2 ^ 54 - 1) * 2 ^ 2044 * den ≤ 2 ^ 54 * 2 ^ 2044 * den := by gcongr; omega
      _ = den * 2 ^ 2046 * 2 ^ 52 := by rw [Nat.mul_assoc den, ← pow_add, ← pow_add, Nat.mul_comm]
      _ ≤ den * 2 ^ f64Shift (num / den) * 2 ^ 52 := by gcongr; omega
      _ ≤ num := f64Shift_small (by omega)

/-- R11: a result that is not finite is the infinity of its sign. -/
theorem f64Round_of_not_finite (neg : Bool) (num den : Nat) (h : f64Finite (f64Round neg num den) = false) :
    f64Round neg num den = if neg then 0xFFF0000000000000 else 0x7FF0000000000000 := by
  rw [← Bool.not_eq_true, f64Finite_round, Nat.not_lt] at h
  have hbits : f64RoundBits num den = f64InfBits := Nat.min_eq_right h
  rw [f64Round, hbits]
  cases neg <;> rfl

/-- R11: a sum of finite values is the rounding of the exact sum. -/
theorem f64Add_isRoundedSum {a b : F64} (ha : f64Finite a = true) (hb : f64Finite b = true) :
    Claims.isRoundedSum (f64Add a b) (f64Int a) (f64Int b) (f64Neg a = true ∧ f64Neg b = true) := by
  refine ⟨_, by rw [f64Add, if_pos (by rw [ha, hb]; rfl)], ?_⟩
  by_cases hz : f64Int a + f64Int b = 0 <;> simp [hz]

/-- R11: a difference of finite values is the rounding of the exact difference. -/
theorem f64Sub_isRoundedSum {a b : F64} (ha : f64Finite a = true) (hb : f64Finite b = true) :
    Claims.isRoundedSum (f64Sub a b) (f64Int a) (-f64Int b) (f64Neg a = true ∧ f64Neg b = false) := by
  have h := f64Add_isRoundedSum ha (b := f64Negate b) (by rwa [f64Finite_negate])
  simpa only [f64Sub, f64Int_negate, (f64Negate_fields b).1, Bool.not_eq_true'] using h

/-- R11: x - x is +0. -/
theorem f64Sub_self {a : F64} (ha : f64Finite a = true) : f64Sub a a = 0 := by
  rw [f64Sub, f64Add, if_pos (by rw [f64Finite_negate, ha]; rfl), f64Int_negate, (f64Negate_fields a).1]
  simp only [add_neg_cancel, if_true, Bool.and_not_self]
  rfl

/-- Settles O23: the nearest value and its tie by `f64Round_nearest`, the overflow by `f64Finite_round_eq_false_iff`, and each
operation from its definition on finite operands. -/
theorem roundingIsToNearestEven : Obligations.RoundingIsToNearestEven := by
  refine ⟨fun neg num den y hden _ h => f64Round_nearest neg num y hden h, fun neg num den hden => ?_, fun a b ha hb => ?_,
    fun k hk => f64OfInt_exact hk⟩
  · exact ⟨f64Neg_round .., f64Finite_round_eq_false_iff neg num hden, f64Round_of_not_finite neg num den⟩
  · have hab : (f64Finite a && f64Finite b) = true := by rw [ha, hb]; rfl
    refine ⟨f64Add_isRoundedSum ha hb, f64Sub_isRoundedSum ha hb, f64Sub_self ha, f64Sub_self ha, if_pos ha, if_pos hab,
      fun hb0 => if_pos ?_⟩
    rw [hab, Bool.true_and, bne_iff_ne]
    exact hb0

end Sys2Proof.Machine

/-! ### Every step keeps the invariant -/

namespace Sys2Proof.Machine

/-! #### Memories -/

/-- What the invariant asks of one memory: the canonical form, no element at or past `size`, and every draw taken before
`count`. -/
def Memory.sound {w : Nat} (m : Memory w) (size count : Nat) : Prop := m.wf ∧ m.within size ∧ m.drawnBefore count

theorem Memory.sound_undefined (w size : Nat) {id count : Nat} (h : id < count) :
    (Memory.undefined w id).sound size count :=
  ⟨wf_undefined w id, within_undefined w id size, h, by simp [undefined]⟩

section
variable {w : Nat} {m : Memory w} {size count : Nat}

theorem Memory.sound.writeRange (h : m.sound size count) {lo : Nat} {vs : List (BitVec w)} (hin : lo + vs.length ≤ size) :
    (m.writeRange lo vs).sound size count := by
  obtain ⟨hwf, hwithin, hdrawn⟩ := h
  exact ⟨m.wf_writeRange lo vs hwf, m.within_writeSlots lo size _ hwithin (by rwa [List.length_map]),
    m.drawnBefore_writeRange lo count vs hdrawn⟩

theorem Memory.sound.mono (h : m.sound size count) {count' : Nat} (hle : count ≤ count') : m.sound size count' := by
  obtain ⟨hwf, hwithin, hdrawn⟩ := h
  exact ⟨hwf, hwithin, m.drawnBefore_mono hle hdrawn⟩

theorem Memory.sound.scramble (h : m.sound size count) {lo n id : Nat} (hin : lo + n ≤ size) (hid : id < count) :
    (m.scramble lo n id).sound size count := by
  obtain ⟨hwf, hwithin, hdrawn⟩ := h
  exact ⟨m.wf_scramble lo n id hwf, m.within_writeSlots lo size _ hwithin (by rwa [List.length_replicate]),
    m.drawnBefore_scramble lo n id count hdrawn hid⟩

end

/-- Every memory of the block is sound. -/
structure State.MemoriesSound (s : State) : Prop where
  mat : s.mat.sound (2 * (s.params.rmax * s.params.cmax)) s.drawCount
  bytes : s.bytes.sound s.params.bmax s.drawCount
  bits : s.bits.sound s.params.fmax s.drawCount
  perm : s.perm.sound s.params.pmax s.drawCount

/-- The invariant, memory by memory. -/
theorem State.inv_iff (s : State) : s.Inv ↔ s.MemoriesSound ∧ s.statusConsistent ∧ s.xfLegal := by
  constructor
  · rintro ⟨⟨m1, y1, b1, p1⟩, ⟨m2, y2, b2, p2⟩, ⟨m3, y3, b3, p3⟩, hst, hxf⟩
    exact ⟨⟨⟨m1, m2, m3⟩, ⟨y1, y2, y3⟩, ⟨b1, b2, b3⟩, ⟨p1, p2, p3⟩⟩, hst, hxf⟩
  · rintro ⟨⟨⟨m1, m2, m3⟩, ⟨y1, y2, y3⟩, ⟨b1, b2, b3⟩, ⟨p1, p2, p3⟩⟩, hst, hxf⟩
    exact ⟨⟨m1, y1, b1, p1⟩, ⟨m2, y2, b2, p2⟩, ⟨m3, y3, b3, p3⟩, hst, hxf⟩

/-! #### The sizes of what commands and accesses write -/

/-- A matrix of legal dimensions fits MAT. -/
theorem State.matSize_le_of_legalDims {s : State} (h : s.legalDims = true) : s.matSize ≤ s.params.rmax * s.params.cmax := by
  obtain ⟨-, hr, hc⟩ := s.legalDims_iff.1 h
  exact Nat.mul_le_mul hr hc

/-- The sites of a matrix of legal dimensions fit PERM. -/
theorem State.nsites_le_of_legalDims {s : State} (h : s.legalDims = true) : s.nsites ≤ s.params.pmax := by
  obtain ⟨-, hr, hc⟩ := s.legalDims_iff.1 h
  exact Nat.mul_le_mul (Nat.div_le_div_right hr) (Nat.div_le_div_right hc)

/-- A frame of a payload that fits BYTE fits BIT. -/
theorem frameLen_le_fmax {p : Params} {n : Nat} (h : n ≤ p.bmax) : frameLen n ≤ p.fmax := by
  simp only [frameLen, Params.fmax]
  omega

/-- Embedding keeps the size of the matrix. -/
theorem size_embedSites {q : F64} {x : Array F64} {l : List (Nat × Bit)} {y z : Array F64}
    (h : embedSites q x l y = some z) : z.size = y.size := by
  induction l generalizing y with
  | nil => exact congrArg Array.size (Option.some.inj h).symm
  | cons c l ih =>
    simp only [embedSites] at h
    split at h
    · cases h
    · exact (ih h).trans (Array.size_setIfInBounds ..)

/-- What an extraction returns: a payload that fits BYTE, with as many bits and bytes as its length says. -/
theorem extractBand_sizes {s : State} {x : Array F64} {r : Extracted} (h : extractBand s x = .ok r) :
    r.len ≤ s.params.bmax ∧ r.bits.length = frameLen r.len ∧ r.bytes.length = r.len := by
  unfold extractBand at h
  split at h
  case h_1 => cases h
  case h_2 header hheader =>
    obtain ⟨hlen, -⟩ := votes_eq_some.1 hheader
    simp only at h
    split at h
    case isTrue => cases h
    case isFalse hplausible =>
      split at h
      case h_1 => cases h
      case h_2 body hbody =>
        obtain ⟨hbodylen, -⟩ := votes_eq_some.1 hbody
        obtain rfl := Except.ok.inj h
        simp only [List.length_append, length_bitsToBytes, frameLen]
        omega

/-- Every element of the ranges exists. -/
def AbortRanges.within (r : AbortRanges) (p : Params) : Prop :=
  (r.mat.1 + r.mat.2 ≤ p.rmax * p.cmax ∧ r.byte.1 + r.byte.2 ≤ p.bmax)
    ∧ r.bit.1 + r.bit.2 ≤ p.fmax ∧ r.perm.1 + r.perm.2 ≤ p.pmax

theorem AbortRanges.none_within (p : Params) : AbortRanges.none.within p := by simp [within, AbortRanges.none]

/-- An abort makes draws only of elements that exist. -/
theorem abortRanges_within (s : State) (i : Instr) : (abortRanges s i).within s.params := by
  have hnone := AbortRanges.none_within s.params
  cases i <;> simp only [abortRanges]
  case nop | bitsu32 | posmod | qwrite | qread => exact hnone
  case b2bits | bits2b | permgen | frame =>
    simp only [AbortRanges.within, AbortRanges.none, frameLen, Params.fmax]
    omega
  case u32bits =>
    split
    case isTrue hoff => simpa [AbortRanges.within, AbortRanges.none] using hoff
    case isFalse => exact hnone
  case fwd | inv | embed | extract | embedf | extractf =>
    split
    case isTrue hdims =>
      have hmat := s.matSize_le_of_legalDims hdims
      have hperm := s.nsites_le_of_legalDims hdims
      simp only [AbortRanges.within, AbortRanges.none]
      omega
    case isFalse => exact hnone

theorem State.inflightRanges_within (s : State) : s.inflightRanges.within s.params := by
  unfold State.inflightRanges
  split
  · exact AbortRanges.none_within _
  · split
    · exact abortRanges_within ..
    · exact AbortRanges.none_within _

/-! #### Resets -/

/-- A machine with reset registers and sound memories meets the invariant. -/
theorem State.inv_of_reset {s : State} (hmem : s.MemoriesSound) (hst : s.status = Status.reset) (hidle : s.busy = false) :
    s.Inv := by
  refine s.inv_iff.2 ⟨hmem, ?_, ?_⟩
  · simp only [State.statusConsistent, hst, hidle]
    exact ⟨rfl, nofun⟩
  · rw [State.xfLegal, hst]
    nofun

/-- Settles O59: the memories after reset are the draws 0 to 3, and the count stands at 4. -/
theorem resetMeetsTheInvariant : Obligations.ResetMeetsTheInvariant := by
  refine State.inv_of_reset ⟨?_, ?_, ?_, ?_⟩ rfl rfl <;> exact Memory.sound_undefined _ _ (by decide)

/-- A hard reset leaves a state that meets the invariant, from any state. -/
theorem State.hardReset_inv (s : State) : s.hardReset.Inv := by
  refine inv_of_reset ⟨?_, ?_, ?_, ?_⟩ rfl rfl <;>
    exact Memory.sound_undefined _ _ (by simp only [State.hardReset]; omega)

theorem State.MemoriesSound.scramble {s : State} (h : s.MemoriesSound) {r : AbortRanges} (hr : r.within s.params) :
    (s.scramble r).MemoriesSound := by
  have hcount : ∀ k < 4, s.drawCount + k < s.drawCount + 4 := fun k hk => by omega
  have hle : s.drawCount ≤ s.drawCount + 4 := Nat.le_add_right ..
  obtain ⟨⟨hmat, hbyte⟩, hbit, hperm⟩ := hr
  exact ⟨(h.mat.mono hle).scramble (by omega) (hcount 0 (by decide)), (h.bytes.mono hle).scramble hbyte (hcount 1 (by decide)),
    (h.bits.mono hle).scramble hbit (hcount 2 (by decide)), (h.perm.mono hle).scramble hperm (hcount 3 (by decide))⟩

theorem State.Inv.softReset {s : State} (h : s.Inv) : s.softReset.Inv := by
  have hmem := (s.inv_iff.1 h).1.scramble s.inflightRanges_within
  exact inv_of_reset { hmem with } rfl rfl

/-! #### Commands -/

section
variable {s : State}

theorem State.Inv.setBits (h : s.Inv) {o : Nat} {b : List Bit} (hin : o + b.length ≤ s.params.fmax) : (s.setBits o b).Inv := by
  obtain ⟨hmem, hst, hxf⟩ := s.inv_iff.1 h
  exact (inv_iff _).2 ⟨{ hmem with bits := hmem.bits.writeRange hin }, hst, hxf⟩

theorem State.Inv.setBytes (h : s.Inv) {bs : List Byte} (hin : bs.length ≤ s.params.bmax) : (s.setBytes bs).Inv := by
  obtain ⟨hmem, hst, hxf⟩ := s.inv_iff.1 h
  exact (inv_iff _).2 ⟨{ hmem with bytes := hmem.bytes.writeRange (by omega) }, hst, hxf⟩

theorem State.Inv.setPerm (h : s.Inv) {p : Array Nat} (hin : p.size ≤ s.params.pmax) : (s.setPerm p).Inv := by
  obtain ⟨hmem, hst, hxf⟩ := s.inv_iff.1 h
  exact (inv_iff _).2 ⟨{ hmem with perm := hmem.perm.writeRange (by simpa using hin) }, hst, hxf⟩

theorem State.Inv.setMatrix (h : s.Inv) {y : Array F64} (hin : y.size ≤ s.params.rmax * s.params.cmax) :
    (s.setMatrix y).Inv := by
  obtain ⟨hmem, hst, hxf⟩ := s.inv_iff.1 h
  refine (inv_iff _).2 ⟨{ hmem with mat := hmem.mat.writeRange ?_ }, hst, hxf⟩
  rw [length_halves, Array.length_toList]
  omega

theorem State.Inv.setXf (h : s.Inv) {x : Bool} (hx : x = true → s.legalDims = true) : (s.setXf x).Inv := by
  obtain ⟨hmem, hst, -⟩ := s.inv_iff.1 h
  exact (inv_iff _).2 ⟨{ hmem with }, hst, hx⟩

theorem State.Inv.setFrame (h : s.Inv) (hdims : s.legalDims = true) {fb : List Bit} (hfb : fb.length ≤ s.params.fmax) :
    (s.setFrame fb).Inv :=
  (h.setPerm (by simpa using nsites_le_of_legalDims hdims)).setBits (by simpa using hfb)

theorem State.Inv.setExtracted (h : s.Inv) (hdims : s.legalDims = true) {r : Extracted} (hlen : r.len ≤ s.params.bmax)
    (hbits : r.bits.length = frameLen r.len) (hbytes : r.bytes.length = r.len) : (s.setExtracted r).Inv :=
  (h.setFrame hdims (hbits ▸ frameLen_le_fmax hlen)).setBytes (hbytes ▸ hlen)

/-- A completion with success keeps the invariant: the block is idle, and ERR and ERRCODE are as they were. -/
theorem State.Inv.succeed (h : s.Inv) : s.succeed.Inv := by
  obtain ⟨hmem, ⟨herr, -⟩, hxf⟩ := s.inv_iff.1 h
  exact (inv_iff _).2 ⟨{ hmem with }, ⟨herr, nofun⟩, hxf⟩

theorem State.Inv.fail (h : s.Inv) (c : ErrCode) : (s.fail c).Inv := by
  obtain ⟨hmem, -, hxf⟩ := s.inv_iff.1 h
  exact (inv_iff _).2 ⟨{ hmem with }, ⟨rfl, nofun⟩, hxf⟩

theorem State.Inv.accept (h : s.Inv) (w : Word) : (s.accept w).Inv := by
  obtain ⟨hmem, -, hxf⟩ := s.inv_iff.1 h
  exact (inv_iff _).2 ⟨{ hmem with }, ⟨rfl, fun _ => ⟨rfl, rfl⟩⟩, hxf⟩

end

/-! #### What a command that succeeds commits -/

/-- A check that a command passes on its way to a result. -/
theorem guard_eq_ok {c : Prop} [Decidable c] {e : ErrCode} {r : Except ErrCode State} {t : State} :
    (if c then .error e else r) = .ok t ↔ ¬ c ∧ r = .ok t := by
  split <;> simp [*]

/-- A check that passes, in a list of checks. -/
theorem check_eq_none {c : Prop} [Decidable c] {e : ErrCode} {r : Option ErrCode} :
    (if c then some e else r) = none ↔ ¬ c ∧ r = none := by
  split <;> simp [*]

/-- The checks of EMBED and EMBEDF, all passed (45_frame_mux.md R317, R319). -/
theorem embedCheck_eq_none {s : State} {xf : Bool} : embedCheck s xf = none ↔ Claims.embedReady s xf := by
  simp only [embedCheck, check_eq_none, Claims.embedReady, bne_iff_ne, ne_eq, Decidable.not_not, Bool.not_eq_true',
    Bool.not_eq_false, Nat.not_lt, and_true]
  rfl

/-- The checks of EXTRACT and EXTRACTF, all passed (45_frame_mux.md R318, R320). -/
theorem extractCheck_eq_none {s : State} {xf : Bool} : extractCheck s xf = none ↔ Claims.extractReady s xf := by
  simp only [extractCheck, check_eq_none, Claims.extractReady, bne_iff_ne, ne_eq, Decidable.not_not, Bool.not_eq_true',
    Bool.not_eq_false, Nat.not_lt, and_true]

section
variable {s t : State}

theorem runB2bits_eq_ok : runB2bits s = .ok t ↔ s.payloadLen ≤ s.params.bmax
    ∧ (s.setBits 0 (bytesToBits (s.payload s.payloadLen))).setBitlen (8 * s.payloadLen) = t := by
  simp only [runB2bits, guard_eq_ok, Except.ok.injEq, Nat.not_lt]

theorem runBits2b_eq_ok : runBits2b s = .ok t ↔ s.regs.bitlen.toNat ≤ s.params.fmax
    ∧ s.regs.bitlen.toNat / 8 ≤ s.params.bmax
    ∧ (s.setBytes (bitsToBytes (s.bitSlice 0 s.regs.bitlen.toNat))).setLen (s.regs.bitlen.toNat / 8) = t := by
  simp only [runBits2b, guard_eq_ok, Except.ok.injEq, Nat.not_lt]

theorem runU32bits_eq_ok : runU32bits s = .ok t ↔ s.regs.off.toNat + 32 ≤ s.params.fmax
    ∧ s.setBits s.regs.off.toNat (u32ToBits s.regs.arg0) = t := by
  simp only [runU32bits, guard_eq_ok, Except.ok.injEq, Nat.not_lt]

theorem runBitsu32_eq_ok : runBitsu32 s = .ok t ↔ s.regs.off.toNat + 32 ≤ s.params.fmax
    ∧ s.setResult (bitsToU32 (s.bitSlice s.regs.off.toNat 32) 0) = t := by
  simp only [runBitsu32, guard_eq_ok, Except.ok.injEq, Nat.not_lt]

theorem runPosmod_eq_ok : runPosmod s = .ok t ↔ s.regs.arg1.toNat ≠ 0
    ∧ s.setResult (BitVec.ofNat 32 (posMod s.regs.arg0.toInt s.regs.arg1.toNat)) = t := by
  simp only [runPosmod, guard_eq_ok, Except.ok.injEq, ne_eq]

theorem runPermgen_eq_ok : runPermgen s = .ok t ↔ s.status.seedValid = true ∧ s.regs.pn.toNat ≤ s.params.pmax
    ∧ s.setPerm (makePermutation s.regs.pn.toNat s.regs.seed) = t := by
  simp only [runPermgen, guard_eq_ok, Except.ok.injEq, Nat.not_lt, Bool.not_eq_true', Bool.not_eq_false]

theorem runFwd_eq_ok : runFwd s = .ok t ↔ s.status.xf = false ∧ s.legalDims = true
    ∧ haarFwdOK s.rowCount s.colCount s.matrix = true
    ∧ (s.setMatrix (haarFwd s.rowCount s.colCount s.matrix)).setXf true = t := by
  simp only [runFwd, guard_eq_ok, Except.ok.injEq, Bool.not_eq_true', Bool.not_eq_false, Bool.not_eq_true]

theorem runInv_eq_ok : runInv s = .ok t ↔ s.status.xf = true ∧ s.legalDims = true
    ∧ haarInvOK s.rowCount s.colCount s.matrix = true
    ∧ (s.setMatrix (haarInv s.rowCount s.colCount s.matrix)).setXf false = t := by
  simp only [runInv, guard_eq_ok, Except.ok.injEq, Bool.not_eq_true', Bool.not_eq_false]

theorem runQwrite_eq_ok : runQwrite s = .ok t ↔ s.qLegal = true
    ∧ ∃ c, qimWrite s.coef (s.regs.arg0.extractLsb' 0 1) s.q = some c ∧ s.setCoef c = t := by
  simp only [runQwrite, guard_eq_ok, Bool.not_eq_true', Bool.not_eq_false]
  cases qimWrite s.coef (s.regs.arg0.extractLsb' 0 1) s.q <;> simp

theorem runQread_eq_ok : runQread s = .ok t ↔ s.qLegal = true
    ∧ ∃ b, qimRead s.coef s.q = some b ∧ s.setResult (b.setWidth 32) = t := by
  simp only [runQread, guard_eq_ok, Bool.not_eq_true', Bool.not_eq_false]
  cases qimRead s.coef s.q <;> simp

theorem runFrame_eq_ok : runFrame s = .ok t ↔ s.payloadLen ≤ s.params.bmax
    ∧ (s.setBits 0 s.framed).setBitlen (frameLen s.payloadLen) = t := by
  simp only [runFrame, guard_eq_ok, Except.ok.injEq, Nat.not_lt]

theorem runEmbed_eq_ok : runEmbed s = .ok t ↔ Claims.embedReady s true
    ∧ ∃ y, embedBand s s.matrix s.framed = some y ∧ (s.setMatrix y).setFrame s.framed = t := by
  rw [runEmbed, ← embedCheck_eq_none]
  cases embedCheck s true <;> cases embedBand s s.matrix s.framed <;> simp

theorem runEmbedf_eq_ok : runEmbedf s = .ok t ↔ Claims.embedReady s false
    ∧ haarFwdOK s.rowCount s.colCount s.matrix = true
    ∧ ∃ y, embedBand s (haarFwd s.rowCount s.colCount s.matrix) s.framed = some y
      ∧ haarInvOK s.rowCount s.colCount y = true
      ∧ (s.setMatrix (haarInv s.rowCount s.colCount y)).setFrame s.framed = t := by
  rw [runEmbedf, ← embedCheck_eq_none]
  cases embedCheck s false <;> cases embedBand s (haarFwd s.rowCount s.colCount s.matrix) s.framed <;> simp [guard_eq_ok]

theorem runExtract_eq_ok : runExtract s = .ok t ↔ Claims.extractReady s true
    ∧ ∃ r, extractBand s s.matrix = .ok r ∧ s.setExtracted r = t := by
  rw [runExtract, ← extractCheck_eq_none]
  cases extractCheck s true <;> cases extractBand s s.matrix <;> simp

theorem runExtractf_eq_ok : runExtractf s = .ok t ↔ Claims.extractReady s false
    ∧ haarFwdOK s.rowCount s.colCount s.matrix = true
    ∧ ∃ r, extractBand s (haarFwd s.rowCount s.colCount s.matrix) = .ok r ∧ s.setExtracted r = t := by
  rw [runExtractf, ← extractCheck_eq_none]
  cases extractCheck s false <;> cases extractBand s (haarFwd s.rowCount s.colCount s.matrix) <;> simp [guard_eq_ok]

end

/-- What a command commits keeps the invariant and the parameters. -/
theorem runOf_keeps_inv {i : Instr} {s t : State} (h : s.Inv) (hrun : runOf i s = .ok t) : t.Inv ∧ t.params = s.params := by
  cases i with
  | nop =>
    obtain rfl := Except.ok.inj hrun
    exact ⟨h, rfl⟩
  | b2bits =>
    obtain ⟨hlen, rfl⟩ := runB2bits_eq_ok.1 hrun
    refine ⟨h.setBits ?_, rfl⟩
    simp only [length_bytesToBits, State.length_payload, Params.fmax]
    omega
  | bits2b =>
    obtain ⟨-, hlen, rfl⟩ := runBits2b_eq_ok.1 hrun
    exact ⟨h.setBytes (by simpa using hlen), rfl⟩
  | u32bits =>
    obtain ⟨hoff, rfl⟩ := runU32bits_eq_ok.1 hrun
    exact ⟨h.setBits (by simpa using hoff), rfl⟩
  | bitsu32 =>
    obtain ⟨-, rfl⟩ := runBitsu32_eq_ok.1 hrun
    exact ⟨h, rfl⟩
  | posmod =>
    obtain ⟨-, rfl⟩ := runPosmod_eq_ok.1 hrun
    exact ⟨h, rfl⟩
  | permgen =>
    obtain ⟨-, hn, rfl⟩ := runPermgen_eq_ok.1 hrun
    exact ⟨h.setPerm (by simpa using hn), rfl⟩
  | fwd =>
    obtain ⟨-, hdims, -, rfl⟩ := runFwd_eq_ok.1 hrun
    exact ⟨(h.setMatrix ((size_haarFwd ..).trans_le (s.matSize_le_of_legalDims hdims))).setXf fun _ => hdims, rfl⟩
  | inv =>
    obtain ⟨-, hdims, -, rfl⟩ := runInv_eq_ok.1 hrun
    exact ⟨(h.setMatrix ((size_haarInv ..).trans_le (s.matSize_le_of_legalDims hdims))).setXf nofun, rfl⟩
  | qwrite =>
    obtain ⟨-, c, -, rfl⟩ := runQwrite_eq_ok.1 hrun
    exact ⟨h, rfl⟩
  | qread =>
    obtain ⟨-, b, -, rfl⟩ := runQread_eq_ok.1 hrun
    exact ⟨h, rfl⟩
  | frame =>
    obtain ⟨hlen, rfl⟩ := runFrame_eq_ok.1 hrun
    exact ⟨h.setBits (by simpa using frameLen_le_fmax hlen), rfl⟩
  | embed =>
    obtain ⟨⟨-, hdims, -, -, hlen⟩, y, hy, rfl⟩ := runEmbed_eq_ok.1 hrun
    have hsize : y.size = s.matSize := (size_embedSites hy).trans s.size_matrix
    exact ⟨(h.setMatrix (hsize ▸ s.matSize_le_of_legalDims hdims)).setFrame hdims (by simpa using frameLen_le_fmax hlen), rfl⟩
  | embedf =>
    obtain ⟨⟨-, hdims, -, -, hlen⟩, -, y, -, -, rfl⟩ := runEmbedf_eq_ok.1 hrun
    exact ⟨(h.setMatrix ((size_haarInv ..).trans_le (s.matSize_le_of_legalDims hdims))).setFrame hdims
      (by simpa using frameLen_le_fmax hlen), rfl⟩
  | extract =>
    obtain ⟨⟨-, hdims, -, -⟩, r, hr, rfl⟩ := runExtract_eq_ok.1 hrun
    obtain ⟨hlen, hbits, hbytes⟩ := extractBand_sizes hr
    exact ⟨h.setExtracted hdims hlen hbits hbytes, rfl⟩
  | extractf =>
    obtain ⟨⟨-, hdims, -, -⟩, -, r, hr, rfl⟩ := runExtractf_eq_ok.1 hrun
    obtain ⟨hlen, hbits, hbytes⟩ := extractBand_sizes hr
    exact ⟨h.setExtracted hdims hlen hbits hbytes, rfl⟩

/-- An engine turn keeps the invariant and the parameters. -/
theorem engineTurn_keeps_inv {s t : State} (h : s.Inv) (hturn : engineTurn s = .next t) : t.Inv ∧ t.params = s.params := by
  obtain ⟨-, rfl⟩ | ⟨w, i, -, -, hexec⟩ | ⟨w, e, -, -, rfl⟩ := engineTurn_cases hturn
  · exact ⟨h, rfl⟩
  · rw [exec_eq_finish] at hexec
    obtain ⟨u, hu, rfl⟩ | ⟨c, -, rfl⟩ := finish_cases hexec
    · obtain ⟨hinv, hparams⟩ := runOf_keeps_inv h hu
      exact ⟨hinv.succeed, hparams⟩
    · exact ⟨h.fail c, rfl⟩
  · exact ⟨h.fail _, rfl⟩

/-! #### Accesses -/

section
variable {s : State}

/-- A draw that is taken leaves the memories sound. -/
theorem State.MemoriesSound.mono (h : s.MemoriesSound) {count : Nat} (hle : s.drawCount ≤ count) :
    State.MemoriesSound { s with drawCount := count } :=
  ⟨h.mat.mono hle, h.bytes.mono hle, h.bits.mono hle, h.perm.mono hle⟩

theorem State.Inv.serveRead (h : s.Inv) (tgt : Target) : (s.serveRead tgt).2.Inv := by
  obtain hs | ⟨-, hs⟩ := s.serveRead_state tgt <;> rw [hs]
  · exact h
  · obtain ⟨hmem, hst, hxf⟩ := s.inv_iff.1 h
    exact (inv_iff _).2 ⟨hmem.mono (Nat.le_succ _), hst, hxf⟩

/-- An operand write keeps the invariant: ROWS and COLS clear XF, and nothing else in it depends on the registers. -/
theorem State.Inv.storeReg (h : s.Inv) (r : Reg) (v : Word) : (s.storeReg r v).Inv := by
  obtain ⟨hmem, hst, hxf⟩ := s.inv_iff.1 h
  cases r
  case rows | cols => exact (inv_iff _).2 ⟨{ hmem with }, hst, nofun⟩
  all_goals exact (inv_iff _).2 ⟨{ hmem with }, hst, hxf⟩

/-- Clearing STATUS bits keeps ERR and ERRCODE consistent, and bits that are 0 stay 0. -/
theorem State.Inv.writeOneToClear (h : s.Inv) (v : Word) : State.Inv { s with status := s.status.writeOneToClear v } := by
  obtain ⟨hmem, ⟨herr, hbusy⟩, hxf⟩ := s.inv_iff.1 h
  refine (inv_iff _).2 ⟨{ hmem with }, ⟨?_, fun hb => ?_⟩, hxf⟩
  · simp only [Status.writeOneToClear, herr]
    cases v.getLsbD 2 <;> simp
  · obtain ⟨hdone, herr0⟩ := hbusy hb
    simp [Status.writeOneToClear, hdone, herr0]

theorem State.Inv.writeCtrl (h : s.Inv) (v : Word) : (s.writeCtrl v).Inv := by
  unfold State.writeCtrl
  split
  · exact h.softReset
  · split <;> exact h

theorem State.Inv.writeCmd (h : s.Inv) (w : Word) : (s.writeCmd w).Inv := by
  unfold State.writeCmd
  split
  · exact h
  · exact h.accept w

theorem State.Inv.writeReg (h : s.Inv) (r : Reg) (v : Word) : (s.writeReg r v).Inv := by
  unfold State.writeReg
  split
  · exact h.writeCtrl v
  · exact h.writeOneToClear v
  · exact h.writeCmd v
  · split
    · exact h
    · exact h.storeReg _ v

/-- A write of an implemented window word stays inside its memory. -/
theorem State.Inv.storeWord (h : s.Inv) {g : Region} {w : Nat} (hw : w < g.words s.params) (v : Word) :
    (s.storeWord g w v).Inv := by
  obtain ⟨hmem, hst, hxf⟩ := s.inv_iff.1 h
  cases g with
  | byte =>
    refine (inv_iff _).2 ⟨{ hmem with bytes := hmem.bytes.writeRange ?_ }, hst, hxf⟩
    simp only [byteLanes, List.length_map, List.length_range]
    simp only [Region.words] at hw
    omega
  | bit => exact (inv_iff _).2 ⟨{ hmem with bits := hmem.bits.writeRange hw }, hst, hxf⟩
  | perm => exact h
  | mat => exact (inv_iff _).2 ⟨{ hmem with mat := hmem.mat.writeRange hw }, hst, hxf⟩

theorem State.Inv.writeTarget (h : s.Inv) {off : Nat} {tgt : Target} (ht : targetAt s.params off = some tgt) (v : Word) :
    (s.writeTarget tgt v).Inv := by
  obtain ⟨r, rfl, -⟩ | ⟨g, w, rfl, -, -, -, hw⟩ := targetAt_cases ht
  · exact h.writeReg r v
  · simp only [State.writeTarget]
    split
    · exact h
    · exact h.storeWord hw v

end

/-- An access keeps the invariant and the parameters. -/
theorem busAccess_keeps_inv {s t : State} {a : BusAccess} (h : s.Inv) (hacc : busAccess a s = .next t) :
    t.Inv ∧ t.params = s.params := by
  obtain ⟨-, rfl⟩ | ⟨off, tgt, -, -, -, -, ht, rfl⟩ := busAccess_cases hacc
  · exact ⟨h, rfl⟩
  · refine ⟨?_, s.serve_params tgt a.op⟩
    cases a.op with
    | read => exact h.serveRead tgt
    | write v => exact h.writeTarget ht v

/-- Settles O60, agent by agent: the engine by what each command commits, an access by its target, and a hard reset from any
state; the agenda and the host are no part of the invariant. -/
theorem everyStepKeepsTheInvariant : Obligations.EveryStepKeepsTheInvariant := by
  intro s t hs hstep
  exact step_induction (P := fun u => u.Inv ∧ u.params = s.params) hstep ⟨hs, rfl⟩
    (agenda := id) (host := id)
    (engine := fun ⟨hu, hp⟩ hv => (engineTurn_keeps_inv hu hv).imp_right (·.trans hp))
    (bus := fun ⟨hu, hp⟩ hv => (busAccess_keeps_inv hu hv).imp_right (·.trans hp))
    (reset := fun ⟨_, hp⟩ => ⟨State.hardReset_inv _, hp⟩)

end Sys2Proof.Machine

/-! ### What accesses to registers and windows answer (10_state.md R31 to R49; 20_memory.md R104, R105) -/

namespace Sys2Proof.Machine

open Sys2Proof.Claims

/-! #### The register map -/

theorem Reg.mem_all (r : Reg) : r ∈ Reg.all := by cases r <;> decide

theorem mem_registerMap {off : Nat} {r : Reg} : (off, r) ∈ registerMap ↔ r.offset = off := by
  have hmap : registerMap = Reg.all.map fun r => (r.offset, r) := rfl
  simp [hmap, Reg.mem_all]

theorem registerValues_eq (s : State) : registerValues s = Reg.all.map fun r => (r.offset, s.readReg r) := rfl

theorem storedAt_eq (s : State) (v : Word) : storedAt s v = operandRegs.map fun r => (r.offset, s.storeReg r v) := rfl

/-! #### Operand writes -/

/-- A write to a register, in any state. -/
theorem write32_reg (s : State) (r : Reg) (v : Word) :
    write32 s r.offset v = .next { s.writeReg r v with reply := some .written } := busAccess_reg s r (.write v)

/-- An idle write to an operand register stores it. -/
theorem State.writeReg_operand {s : State} (hidle : s.busy = false) {r : Reg} (hr : r ∈ operandRegs) (v : Word) :
    s.writeReg r v = s.storeReg r v := by
  cases r
  case ctrl | status | cmd => exact absurd hr (by decide)
  all_goals simp only [State.writeReg, hidle, Bool.false_eq_true, if_false]

/-- The low half-word of a word, as ROWS and COLS hold and read it (10_state.md R37, R38). -/
theorem setWidth_low16 (v : Word) : (v.extractLsb' 0 16).setWidth 32 = v &&& 0xFFFF := by
  have hmask := Nat.and_two_pow_sub_one_eq_mod v.toNat 16
  have hsmall : v.toNat % 65536 % 4294967296 = v.toNat % 65536 := by omega
  exact BitVec.eq_of_toNat_eq (by simpa [hsmall] using hmask.symm)

/-- An operand register reads back what was stored. -/
theorem State.readReg_storeReg_same (s : State) {r : Reg} (hr : r ∈ operandRegs) (v : Word) :
    (s.storeReg r v).readReg r = if r = .rows ∨ r = .cols then v &&& 0xFFFF else v := by
  cases r
  case rows | cols => exact setWidth_low16 v
  case id | cfgRmax | cfgCmax | cfgBmax | ctrl | status | cmd | result | nsites | capbits => exact absurd hr (by decide)
  all_goals rfl

/-- A store to one register leaves what every other one reads, those apart that are computed from it: each pair of different
registers is two fields, or a field and a constant. -/
theorem State.readReg_storeReg_other (s : State) {r r' : Reg} (v : Word) (hne : r' ≠ r) (hstatus : r' ≠ .status)
    (hnsites : r' ≠ .nsites) (hcapbits : r' ≠ .capbits) : (s.storeReg r v).readReg r' = s.readReg r' := by
  cases r' <;> cases r <;> trivial

/-- What a store changes: the data registers, XF when it is to ROWS or COLS, and SEED_VALID when it is to SEED. -/
theorem State.storeReg_frame (s : State) (r : Reg) (v : Word) :
    s.storeReg r v = { s with
      regs := (s.storeReg r v).regs
      status := { s.status with
        xf := if r = .rows ∨ r = .cols then false else s.status.xf
        seedValid := if r = .seed then true else s.status.seedValid } } := by
  cases r <;> rfl

/-- Settles O43: an idle write to an operand register is `storeReg`, whose table `storedAt` is. -/
theorem operandWriteReadsBack : Obligations.OperandWriteReadsBack := by
  refine ⟨fun off r => mem_registerMap, fun s v hidle => ?_⟩
  have hwrite : ∀ {r : Reg}, r ∈ operandRegs →
      write32 s r.offset v = .next { s.storeReg r v with reply := some .written } := fun hr => by
    rw [write32_reg, State.writeReg_operand hidle hr]
  refine ⟨fun off t hmem => ?_, fun r hr => ⟨_, hwrite hr, ?_, fun r' => ?_, ?_⟩⟩
  · rw [storedAt_eq, List.mem_map] at hmem
    obtain ⟨r, hr, hrt⟩ := hmem
    obtain ⟨rfl, rfl⟩ := Prod.mk.inj hrt
    exact hwrite hr
  · exact s.readReg_storeReg_same hr v
  · exact s.readReg_storeReg_other v
  · exact congrArg (fun t : State => { t with reply := some .written }) (s.storeReg_frame r v)

/-! #### Idle reads -/

section
variable {s : State} (hidle : s.busy = false)
include hidle

/-- An idle read of an implemented target is exact and changes nothing in the block. -/
theorem State.serve_read_idle (tgt : Target) : s.serve tgt .read = (.data (s.readTarget tgt), s) := by
  simp [State.serve, State.serveRead, hidle, -State.busy_eq]

theorem read32_reg (r : Reg) : read32 s r.offset = .next { s with reply := some (.data (s.readReg r)) } := by
  rw [read32, busAccess_reg, State.serve_read_idle hidle]
  rfl

theorem read32_word (hp : s.params.wf) {g : Region} {w : Nat} (hw : w < g.words s.params) :
    read32 s (g.start + 4 * w) = .next { s with reply := some (.data (s.readWord g w)) } := by
  rw [read32, busAccess_word s g w .read hp hw, State.serve_read_idle hidle]
  rfl

end

/-- The lanes of a word put together from four bytes. -/
theorem extract_lane (lane : Nat → Byte) {i : Nat} (h : i < 4) :
    (lane 3 ++ lane 2 ++ lane 1 ++ lane 0).extractLsb' (8 * i) 8 = lane i := by
  obtain rfl | rfl | rfl | rfl : i = 0 ∨ i = 1 ∨ i = 2 ∨ i = 3 := by omega
  · exact BitVec.extractLsb'_append_eq_right
  · rw [BitVec.extractLsb'_append_eq_of_le (by decide)]
    exact BitVec.extractLsb'_append_eq_right
  · iterate 2 rw [BitVec.extractLsb'_append_eq_of_le (by decide)]
    exact BitVec.extractLsb'_append_eq_right
  · iterate 3 rw [BitVec.extractLsb'_append_eq_of_le (by decide)]
    exact BitVec.extractLsb'_eq_self

/-- Lane `i` of a BYTE window word. -/
theorem State.extract_readWord_byte (s : State) (w : Nat) {i : Nat} (h : i < 4) :
    (s.readWord .byte w).extractLsb' (8 * i) 8 = if 4 * w + i < s.params.bmax then s.byteAt (4 * w + i) else 0 :=
  extract_lane (fun i => s.byteLane (4 * w + i)) h

/-- The two words of a MAT element (20_memory.md R111). -/
theorem State.readWord_mat (s : State) (e : Nat) :
    s.readWord .mat (2 * e) = (s.matAt e).extractLsb' 0 32 ∧ s.readWord .mat (2 * e + 1) = (s.matAt e).extractLsb' 32 32 :=
  ⟨BitVec.extractLsb'_append_eq_right.symm, BitVec.extractLsb'_append_eq_left.symm⟩

/-- Settles O46: an idle read answers the exact value of its target, and each window word's elements stand where R104 puts
them. -/
theorem windowReadAnswersItsElements : Obligations.WindowReadAnswersItsElements := by
  refine ⟨fun s => ⟨rfl, rfl, rfl, rfl, rfl⟩, fun s hidle => ⟨fun off v hmem => ?_, read32_reg hidle, fun hp => ?_⟩⟩
  · rw [registerValues_eq, List.mem_map] at hmem
    obtain ⟨r, -, hrv⟩ := hmem
    obtain ⟨rfl, rfl⟩ := Prod.mk.inj hrv
    exact read32_reg hidle r
  · have hword : ∀ {g : Region} {w : Nat}, w < g.words s.params →
        read32 s (g.start + 4 * w) = .next { s with reply := some (.data (s.readWord g w)) } := read32_word hidle hp
    refine ⟨fun w hw => ⟨_, hword (g := .byte) (by simp only [Region.words]; omega), fun i => s.extract_readWord_byte w⟩,
      fun w hw => hword (g := .bit) hw, fun w hw => hword (g := .perm) hw, fun e he => ?_⟩
    obtain ⟨hlo, hhi⟩ := s.readWord_mat e
    rw [← hlo, ← hhi]
    exact ⟨hword (g := .mat) (by simp only [Region.words]; omega), hword (g := .mat) (by simp only [Region.words]; omega)⟩

/-! #### STATUS and CTRL -/

/-- The fields of a word laid out as STATUS is (10_state.md R35). -/
theorem status_layout (rest : BitVec 22) (seedValid xf : Bool) (errcode : BitVec 4) (cmdlost err done busy : Bool) :
    let w := rest ++ BitVec.ofBool seedValid ++ BitVec.ofBool xf ++ errcode ++ BitVec.ofBool cmdlost ++ BitVec.ofBool err
      ++ BitVec.ofBool done ++ BitVec.ofBool busy
    w.getLsbD 0 = busy ∧ w.getLsbD 1 = done ∧ w.getLsbD 2 = err ∧ w.getLsbD 3 = cmdlost ∧ w.extractLsb' 4 4 = errcode
      ∧ w.getLsbD 8 = xf ∧ w.getLsbD 9 = seedValid ∧ w.extractLsb' 10 22 = rest := by
  intro w
  have herrcode : w.extractLsb' 4 4 = errcode := by
    iterate 4 rw [BitVec.extractLsb'_append_eq_of_le (by decide)]
    exact BitVec.extractLsb'_append_eq_right
  have hrest : w.extractLsb' 10 22 = rest := by
    iterate 7 rw [BitVec.extractLsb'_append_eq_of_le (by decide)]
    exact BitVec.extractLsb'_eq_self
  simp only [herrcode, hrest, w, BitVec.getLsbD_append]
  simp

/-- Settles O50: the STATUS word by its layout, and a STATUS write bit by bit, ERRCODE going with ERR. -/
theorem statusReadsItsFieldsAndClearsOnes : Obligations.StatusReadsItsFieldsAndClearsOnes := by
  refine ⟨rfl, fun s v => ⟨?_, _, write32_reg s .status v, rfl, ?_⟩⟩
  · rintro w rfl
    exact status_layout ..
  · simp only [State.writeReg, Status.writeOneToClear]
    cases v.getLsbD 2 <;> simp

/-- The bits of a word laid out as CTRL is (10_state.md R34). -/
theorem ctrl_layout (ie : Bool) (band : BitVec 2) (i : Nat) :
    (0#23 ++ BitVec.ofBool ie ++ 0#6 ++ band).getLsbD i = if i < 2 then band.getLsbD i else decide (i = 8) && ie := by
  rw [BitVec.getLsbD_append, BitVec.getLsbD_append, BitVec.getLsbD_append]
  obtain h | h | rfl | h : i < 2 ∨ (2 ≤ i ∧ i < 8) ∨ i = 8 ∨ 8 < i := by omega
  · rw [if_pos h, if_pos h]
  · rw [if_neg (by omega), if_pos (by omega), if_neg (by omega)]
    simp [show i ≠ 8 by omega]
  · simp
  · rw [if_neg (by omega), if_neg (by omega), if_neg (by omega), if_neg (by omega)]
    simp [show i ≠ 8 by omega]

/-- CTRL reads bits 8 and 1:0 of the word written to it, and 0 elsewhere (10_state.md R34). -/
theorem Ctrl.word_ofWrite (v : Word) : (Ctrl.ofWrite v).word = v &&& 0x103 := by
  have hcode : ∀ c, (Band.ofCode c).code = c := by decide
  have hmask : ∀ i < 32, (0x103 : Word).getLsbD i = decide (i < 2 ∨ i = 8) := by decide
  refine BitVec.eq_of_getLsbD_eq fun i hi => (ctrl_layout _ _ i).trans ?_
  rw [BitVec.getLsbD_and, hmask i hi, Ctrl.ofWrite, hcode, BitVec.getLsbD_extractLsb']
  by_cases h2 : i < 2
  · simp [h2]
  · by_cases h8 : i = 8 <;> simp [h2, h8]

/-- Settles O51: a CTRL write without SRST, busy and idle apart. -/
theorem ctrlWriteSetsBandAndIe : Obligations.CtrlWriteSetsBandAndIe := by
  intro s v hsrst
  refine ⟨_, write32_reg s .ctrl v, ?_⟩
  simp only [State.writeReg, State.writeCtrl, srstBit, hsrst, Bool.false_eq_true, if_false]
  split
  case isTrue hbusy => exact ⟨rfl, rfl, fun _ => rfl, fun hidle => absurd (hbusy.symm.trans hidle) (by decide)⟩
  case isFalse hidle => exact ⟨rfl, rfl, fun hbusy => absurd hbusy hidle, fun _ => Ctrl.word_ofWrite v⟩

end Sys2Proof.Machine

/-! ### What the bus refuses, ignores and stores (20_memory.md R100 to R114) -/

namespace Sys2Proof.Machine

open Sys2Proof.Claims

/-! #### Outside the region, and bus errors -/

/-- An address outside the block's region has no offset in it (20_memory.md R100). -/
theorem offsetOf_outside {p : Params} {addr : Nat} (h : addr < p.base ∨ p.base + 2 ^ 27 ≤ addr) :
    offsetOf p addr = none := by
  unfold offsetOf regionSize
  exact if_neg (by omega)

/-- Settles O49: an address that has no offset in the region selects nothing. -/
theorem accessElsewhereLeavesTheBlockAlone : Obligations.AccessElsewhereLeavesTheBlockAlone := by
  intro s a h
  simp only [busAccess, offsetOf_outside h]

/-- Something is selected at an aligned offset exactly where R102 implements a register or a window word: each window's
words stand at its start and every 4 bytes on. -/
theorem exists_targetAt_iff_implemented {p : Params} (hp : p.wf) {off : Nat} (h4 : off % 4 = 0) :
    (∃ tgt, targetAt p off = some tgt) ↔ implemented p off := by
  constructor
  · rintro ⟨tgt, ht⟩
    obtain ⟨r, rfl, rfl⟩ | ⟨g, w, rfl, hstart, -, rfl, hw⟩ := targetAt_cases ht
    · exact .inl r.offset_le.1
    · cases g <;> simp only [Region.start, Region.words] at hstart hw <;> unfold implemented <;> omega
  · have hword : ∀ g : Region, g.start ≤ off ∧ off < g.start + 4 * g.words p → ∃ tgt, targetAt p off = some tgt := by
      rintro g ⟨hstart, hend⟩
      have hoff : off = g.start + 4 * ((off - g.start) / 4) := by
        have : g.start % 4 = 0 := by cases g <;> rfl
        omega
      rw [hoff]
      exact ⟨_, targetAt_word p g _ hp (by omega)⟩
    rintro (hreg | hbyte | hbit | hperm | hmat)
    · obtain ⟨r, hr⟩ := Reg.ofOffset_low hreg h4
      exact ⟨.reg r, by simp only [targetAt, hr]⟩
    · exact hword .byte hbyte
    · exact hword .bit hbit
    · exact hword .perm hperm
    · exact hword .mat hmat

/-- An access in the region faults exactly when it does not decode, with data 0 (20_memory.md R109). -/
theorem busAccess_eq_fault_iff {s : State} {off width : Nat} {op : BusOp} (hoff : off < 2 ^ 27) {f : Fault} :
    busAccess { addr := s.params.base + off, width := width, op := op } s = .fault f
      ↔ ∃ cause, decodeAccess s.params width off = .error cause ∧ f = .busError cause 0 := by
  have hin : offsetOf s.params (s.params.base + off) = some off := by
    unfold offsetOf regionSize
    rw [if_pos (by omega), Nat.add_sub_cancel_left]
  simp only [busAccess, hin]
  cases decodeAccess s.params width off with
  | error cause => simp [eq_comm]
  | ok tgt => simp

/-- An access does not decode exactly when its width, its alignment or the map forbids it (20_memory.md R106 to R108). -/
theorem decodeAccess_error_iff {p : Params} (hp : p.wf) {width off : Nat} :
    (∃ cause, decodeAccess p width off = .error cause) ↔ width ≠ 32 ∨ off % 4 ≠ 0 ∨ ¬ implemented p off := by
  have hok : (∃ tgt, decodeAccess p width off = .ok tgt) ↔ width = 32 ∧ off % 4 = 0 ∧ implemented p off := by
    simp only [decodeAccess_eq_ok, exists_and_left]
    exact and_congr_right' (and_congr_right (exists_targetAt_iff_implemented hp))
  rw [← not_and_or, ← not_and_or, ← hok]
  cases decodeAccess p width off <;> simp

/-- Settles O47: a bus error is an access of the region that does not decode. -/
theorem busErrorsAreExactlyTheBadAccesses : Obligations.BusErrorsAreExactlyTheBadAccesses := by
  intro s off width op hp hoff answer
  refine ⟨?_, fun cause data h => ?_, busAccess_not_refused _ s⟩
  · rw [← decodeAccess_error_iff hp]
    simp [answer, busAccess_eq_fault_iff hoff]
  · obtain ⟨cause', -, hf⟩ := (busAccess_eq_fault_iff hoff).1 h
    exact (Fault.busError.inj hf).2

/-! #### Reads -/

/-- Settles O48: the access reached nothing, or it served a read, which moves at most the draw counter. -/
theorem readsHaveNoSideEffect : Obligations.ReadsHaveNoSideEffect := by
  intro s t addr width h
  obtain ⟨-, rfl⟩ | ⟨off, tgt, -, -, -, -, -, rfl⟩ := busAccess_cases h
  · exact ⟨rfl, fun _ => rfl⟩
  · obtain hs | ⟨hbusy, hs⟩ := s.serveRead_state tgt
    · simp [State.serve, hs]
    · simp [State.serve, hs, hbusy, -State.busy_eq]

/-! #### Writes that are ignored -/

/-- A write to a read-only register changes nothing, in any state (20_memory.md R110). -/
theorem State.writeReg_readOnly (s : State) {r : Reg} (hr : r ∈ readOnlyRegs) (v : Word) : s.writeReg r v = s := by
  cases r
  case id | cfgRmax | cfgCmax | cfgBmax | result | nsites | capbits => exact ite_self s
  all_goals exact absurd hr (by decide)

/-- A write to the PERM window changes nothing, in any state (20_memory.md R104, R110). -/
theorem State.writeTarget_perm (s : State) (w : Nat) (v : Word) : s.writeTarget (.word .perm w) v = s := ite_self s

/-- A write to an implemented window word, in any state. -/
theorem write32_word {s : State} (hp : s.params.wf) {g : Region} {w : Nat} (hw : w < g.words s.params) (v : Word) :
    write32 s (g.start + 4 * w) v = .next { s.writeTarget (.word g w) v with reply := some .written } :=
  busAccess_word s g w (.write v) hp hw

/-- Settles O44: the write is answered, and its target keeps everything. -/
theorem readOnlyWritesAreIgnored : Obligations.ReadOnlyWritesAreIgnored := by
  refine fun s v => ⟨fun r hr => ?_, fun k hp hk => ?_⟩
  · rw [write32_reg, s.writeReg_readOnly hr]
  · exact (write32_word (g := .perm) hp hk v).trans (by rw [s.writeTarget_perm])

/-! #### What an idle window write stores -/

/-- An idle write to an implemented window word stores it. -/
theorem write32_word_idle {s : State} (hidle : s.busy = false) (hp : s.params.wf) {g : Region} {w : Nat}
    (hw : w < g.words s.params) (v : Word) :
    write32 s (g.start + 4 * w) v = .next { s.storeWord g w v with reply := some .written } := by
  rw [write32_word hp hw, State.writeTarget, hidle]
  rfl

/-- What a byte reads as after a BYTE window write: the lanes below BMAX are written (20_memory.md R104). -/
theorem State.byteAt_storeWord (s : State) (w : Nat) (v : Word) (k : Nat) :
    (s.storeWord .byte w v).byteAt k
      = if 4 * w ≤ k ∧ k < 4 * w + 4 ∧ k < s.params.bmax then v.extractLsb' (8 * (k - 4 * w)) 8 else s.byteAt k := by
  have hlen : (byteLanes s.params w v).length = min 4 (s.params.bmax - 4 * w) := by simp [byteLanes]
  simp only [State.byteAt, State.storeWord, Memory.read_writeRange, hlen]
  split
  case isTrue h =>
    rw [if_pos (by omega)]
    have hlane : k - 4 * w < min 4 (s.params.bmax - 4 * w) := by omega
    simp [byteLanes, List.getD_eq_getElem?_getD, hlane]
  case isFalse h => rw [if_neg (by omega)]

/-- A BIT window write leaves every other bit alone (20_memory.md R104). -/
theorem State.bitAt_storeWord_other (s : State) {w k : Nat} (v : Word) (h : k ≠ w) :
    (s.storeWord .bit w v).bitAt k = s.bitAt k := s.bits.read_write_other _ h

/-- A MAT window write leaves the elements of other words alone. -/
theorem State.matAt_storeWord_other (s : State) {w e : Nat} (v : Word) (h : e ≠ w / 2) :
    (s.storeWord .mat w v).matAt e = s.matAt e := by
  have hlo : 2 * e ≠ w := by omega
  have hhi : 2 * e + 1 ≠ w := by omega
  simp only [State.matAt, State.storeWord, s.mat.read_write_other v hlo, s.mat.read_write_other v hhi]

/-- The even word of a MAT element is its low half (20_memory.md R111). -/
theorem State.matAt_storeWord_low (s : State) (e : Nat) (v : Word) :
    (s.storeWord .mat (2 * e) v).matAt e = (s.matAt e).extractLsb' 32 32 ++ v := by
  have hhi : 2 * e + 1 ≠ 2 * e := by omega
  rw [← (s.readWord_mat e).2]
  simp only [State.matAt, State.storeWord, State.readWord, Memory.read_write_same, s.mat.read_write_other v hhi]

/-- The odd word of a MAT element is its high half (20_memory.md R111). -/
theorem State.matAt_storeWord_high (s : State) (e : Nat) (v : Word) :
    (s.storeWord .mat (2 * e + 1) v).matAt e = v ++ (s.matAt e).extractLsb' 0 32 := by
  have hlo : 2 * e ≠ 2 * e + 1 := by omega
  rw [← (s.readWord_mat e).1]
  simp only [State.matAt, State.storeWord, State.readWord, Memory.read_write_same, s.mat.read_write_other v hlo]

/-- Settles O45: the write is a store of its word, and each store is read back element by element. -/
theorem windowWriteStoresItsElements : Obligations.WindowWriteStoresItsElements := by
  intro s v hidle hp
  have hword : ∀ {g : Region} {w : Nat}, w < g.words s.params →
      write32 s (g.start + 4 * w) v = .next { s.storeWord g w v with reply := some .written } :=
    fun hw => write32_word_idle hidle hp hw v
  refine ⟨fun w hw => ⟨_, hword (g := .byte) (by simp only [Region.words]; omega), rfl, fun i hi hb => ?_, fun k hk => ?_⟩,
    fun w hw => ⟨_, hword (g := .bit) hw, rfl, s.bits.read_write_same w _, fun k => s.bitAt_storeWord_other v⟩,
    fun e he => ⟨⟨_, hword (g := .mat) (by simp only [Region.words]; omega), rfl, s.matAt_storeWord_low e v,
        fun e' hne => s.matAt_storeWord_other v (by omega)⟩,
      ⟨_, hword (g := .mat) (by simp only [Region.words]; omega), rfl, s.matAt_storeWord_high e v,
        fun e' hne => s.matAt_storeWord_other v (by omega)⟩⟩⟩
  · exact (s.byteAt_storeWord w v (4 * w + i)).trans (by rw [if_pos (by omega), Nat.add_sub_cancel_left])
  · exact (s.byteAt_storeWord w v k).trans (if_neg (by omega))

end Sys2Proof.Machine

/-! ### The encoding of the commands (30_encoding.md R140 to R146) -/

namespace Sys2Proof

open Sys2Proof.Claims

/-! #### Opcodes and words -/

/-- The opcode map, read from the opcode and from the command (30_encoding.md R143). -/
theorem decodeOpcode_eq_ok {opc : BitVec 8} {i : Instr} : decodeOpcode opc = .ok i ↔ opc = opcode i := by
  constructor
  · intro h
    unfold decodeOpcode at h
    split at h
    case h_17 => cases h
    all_goals
      obtain rfl := Except.ok.inj h
      exact BitVec.eq_of_toNat_eq ‹_›
  · rintro rfl
    cases i <;> rfl

/-- An opcode can be refused for one reason only (30_encoding.md R144). -/
theorem decodeOpcode_eq_error {opc : BitVec 8} {e : DecodeError} (h : decodeOpcode opc = .error e) :
    e = .unassignedOpcode := by
  unfold decodeOpcode at h
  split at h
  case h_17 => exact (Except.error.inj h).symm
  all_goals cases h

/-- RSV as a number: what is left of the word above its low byte (30_encoding.md R141). -/
theorem rsvField_eq_zero {w : Word} : rsvField w = 0 ↔ w.toNat / 256 = 0 := by
  have hw := w.isLt
  simp only [rsvField, BitVec.toNat_eq, BitVec.extractLsb'_toNat, Nat.shiftRight_eq_div_pow, BitVec.ofNat_eq_ofNat,
    BitVec.toNat_ofNat]
  omega

/-- The word of a command is `zext_32(OPC)`: its two fields determine it (30_encoding.md R141, R143). -/
theorem eq_encode_iff {w : Word} {i : Instr} : w = encode i ↔ rsvField w = 0 ∧ opcField w = opcode i := by
  have hw := w.isLt
  have hopc := (opcode i).isLt
  rw [rsvField_eq_zero]
  simp only [encode, opcField, BitVec.toNat_eq, BitVec.extractLsb'_toNat, BitVec.toNat_setWidth, Nat.shiftRight_zero]
  omega

/-- A word decodes to a command exactly when it is the command's own word (30_encoding.md R144). -/
theorem decodeWord_eq_ok {w : Word} {i : Instr} : decodeWord w = .ok i ↔ w = encode i := by
  rw [eq_encode_iff, ← decodeOpcode_eq_ok, decodeWord]
  split
  case isTrue hrsv => exact ⟨nofun, fun h => absurd h.1 hrsv⟩
  case isFalse hrsv => exact (and_iff_right (not_not.1 hrsv)).symm

@[simp] theorem decodeWord_encode (i : Instr) : decodeWord (encode i) = .ok i := decodeWord_eq_ok.2 rfl

/-- The rows of the opcode map are the commands' words (30_encoding.md R143). -/
theorem mem_opcodeRows {w : Word} {i : Instr} : (w, i) ∈ opcodeRows ↔ w = encode i := by
  constructor
  · have hrows : ∀ row ∈ opcodeRows, row.1 = encode row.2 := by decide
    exact hrows (w, i)
  · rintro rfl
    cases i <;> decide

/-- Settles O1: the words that decode are the rows, RSV refuses the others that have it set, and OPC the rest. -/
theorem wordsDecodeByTheOpcodeMap : Obligations.WordsDecodeByTheOpcodeMap := by
  refine fun w => ⟨fun i => decodeWord_eq_ok.trans mem_opcodeRows.symm, fun hrsv => ?_, fun hrsv hrow => ?_⟩
  · exact if_pos (mt rsvField_eq_zero.1 hrsv)
  · cases h : decodeWord w with
    | ok i => exact absurd (List.mem_map_of_mem (mem_opcodeRows.2 (decodeWord_eq_ok.1 h))) hrow
    | error e =>
      rw [decodeWord, if_neg (not_not_intro (rsvField_eq_zero.2 hrsv))] at h
      rw [decodeOpcode_eq_error h]

/-- Settles O3: the six words are those of their commands. -/
theorem sampleWordsDecode : Obligations.SampleWordsDecode :=
  ⟨decodeWord_encode .posmod, decodeWord_encode .permgen, decodeWord_encode .inv, decodeWord_encode .qwrite,
    decodeWord_encode .extractf, decodeWord_encode .nop⟩

/-! #### Bytes -/

/-- Four bytes are a word exactly when they are the word's own bytes (20_memory.md R111). -/
theorem wordOfBytes_eq_some {bs : List Byte} {w : Word} : wordOfBytes bs = some w ↔ bs = bytesOfWord w := by
  constructor
  · intro h
    unfold wordOfBytes at h
    split at h
    case h_1 b0 b1 b2 b3 =>
      obtain rfl := Option.some.inj h
      have hlane : ∀ k < 4, (b3 ++ b2 ++ b1 ++ b0).extractLsb' (8 * k) 8 = [b0, b1, b2, b3].getD k 0 :=
        fun _ => Machine.extract_lane fun k => [b0, b1, b2, b3].getD k 0
      simp only [bytesOfWord, List.cons.injEq, and_true]
      exact ⟨(hlane 0 (by decide)).symm, (hlane 1 (by decide)).symm, (hlane 2 (by decide)).symm, (hlane 3 (by decide)).symm⟩
    case h_2 => cases h
  · rintro rfl
    rw [bytesOfWord, wordOfBytes, BitVec.extractLsb'_append_extractLsb'_eq_extractLsb' (rfl : 24 = 16 + 8),
      BitVec.extractLsb'_append_extractLsb'_eq_extractLsb' (rfl : 16 = 8 + 8),
      BitVec.extractLsb'_append_extractLsb'_eq_extractLsb' (rfl : 8 = 0 + 8)]
    exact congrArg some BitVec.extractLsb'_eq_self

/-- Bytes decode to a command exactly when they are the four bytes of its word (30_encoding.md R140). -/
theorem decodeBytes_eq_ok {bs : List Byte} {i : Instr} : decodeBytes bs = .ok i ↔ bs = bytesOfWord (encode i) := by
  rw [← wordOfBytes_eq_some, decodeBytes]
  cases wordOfBytes bs with
  | none => exact ⟨nofun, nofun⟩
  | some w => exact decodeWord_eq_ok.trans Option.some_inj.symm

/-- A word is its own 32-bit table word. -/
theorem tableWord_toNat (w : Word) : tableWord 32 w.toNat = w := by
  rw [tableWord, Nat.mod_eq_of_lt w.isLt, BitVec.ofNat_toNat, BitVec.setWidth_eq]

/-- Settles O2: bytes that decode are the bytes of the command's word, and its table word is laid out as those. -/
theorem encodeAndDecodeAgree : Obligations.EncodeAndDecodeAgree := by
  have hbytes : ∀ i, decodeBytes (bytesOfWord (encode i)) = .ok i := fun i => decodeBytes_eq_ok.2 rfl
  refine ⟨fun i => ⟨hbytes i, ?_⟩, fun bs i => decodeBytes_eq_ok.1⟩
  rw [decodeTableWord, tableWord_toNat, hbytes]
  rfl

end Sys2Proof

/-! ### What no command writes (30_encoding.md R147) -/

namespace Sys2Proof.Machine

/-- The state `s` with everything that a command may change taken from `t`: BITLEN, LEN, RESULT, COEF, its STATUS bits, the
command in flight and the four memories (30_encoding.md R147). -/
def State.withResultsOf (s t : State) : State :=
  { s with
    regs.bitlen := t.regs.bitlen
    regs.len := t.regs.len
    regs.result := t.regs.result
    regs.coefLo := t.regs.coefLo
    regs.coefHi := t.regs.coefHi
    status := { s.status with
      done := t.status.done
      err := t.status.err
      errcode := t.status.errcode
      xf := t.status.xf }
    inflight := t.inflight
    mat := t.mat
    bytes := t.bytes
    bits := t.bits
    perm := t.perm }

/-- What a command commits is a number of the writes of Machine/Ops.lean, and each of them changes results only. -/
theorem runOf_eq_withResultsOf {i : Instr} {s t : State} (h : runOf i s = .ok t) : t = s.withResultsOf t := by
  cases i with
  | nop =>
    obtain rfl := Except.ok.inj h
    rfl
  | b2bits =>
    obtain ⟨-, rfl⟩ := runB2bits_eq_ok.1 h
    rfl
  | bits2b =>
    obtain ⟨-, -, rfl⟩ := runBits2b_eq_ok.1 h
    rfl
  | u32bits =>
    obtain ⟨-, rfl⟩ := runU32bits_eq_ok.1 h
    rfl
  | bitsu32 =>
    obtain ⟨-, rfl⟩ := runBitsu32_eq_ok.1 h
    rfl
  | posmod =>
    obtain ⟨-, rfl⟩ := runPosmod_eq_ok.1 h
    rfl
  | permgen =>
    obtain ⟨-, -, rfl⟩ := runPermgen_eq_ok.1 h
    rfl
  | fwd =>
    obtain ⟨-, -, -, rfl⟩ := runFwd_eq_ok.1 h
    rfl
  | inv =>
    obtain ⟨-, -, -, rfl⟩ := runInv_eq_ok.1 h
    rfl
  | qwrite =>
    obtain ⟨-, c, -, rfl⟩ := runQwrite_eq_ok.1 h
    rfl
  | qread =>
    obtain ⟨-, b, -, rfl⟩ := runQread_eq_ok.1 h
    rfl
  | frame =>
    obtain ⟨-, rfl⟩ := runFrame_eq_ok.1 h
    rfl
  | embed =>
    obtain ⟨-, y, -, rfl⟩ := runEmbed_eq_ok.1 h
    rfl
  | extract =>
    obtain ⟨-, r, -, rfl⟩ := runExtract_eq_ok.1 h
    rfl
  | embedf =>
    obtain ⟨-, -, y, -, -, rfl⟩ := runEmbedf_eq_ok.1 h
    rfl
  | extractf =>
    obtain ⟨-, -, r, -, rfl⟩ := runExtractf_eq_ok.1 h
    rfl

/-- Settles O9: a completion with success changes STATUS bits that are results on top of what the command commits, and one with
an error changes nothing else. -/
theorem commandsLeaveEveryOtherRegister : Obligations.CommandsLeaveEveryOtherRegister := by
  intro i s t hexec
  rw [exec_eq_finish] at hexec
  obtain ⟨u, hrun, rfl⟩ | ⟨c, -, rfl⟩ := finish_cases hexec
  · exact congrArg State.succeed (runOf_eq_withResultsOf hrun)
  · rfl

end Sys2Proof.Machine

/-! ### What the host reads (30_encoding.md R150, R151) -/

namespace Sys2Proof.Machine

open Sys2Proof.Claims

/-! #### Statements that read -/

/-- At the host's turn a step is the statement at its place (60_exceptions.md R354; log entry 4). -/
theorem step_hostStatement {s : State} {rest : List Turn} {st : HostStmt} (hnext : hostNext s rest)
    (hst : s.host.prog[s.host.pc]? = some st) : step s = hostStatement st { s with agenda := rest } := by
  have hturn : hostTurn { s with agenda := rest } = hostStatement st { s with agenda := rest } := by
    simp only [hostTurn, hst]
  obtain hagenda | ⟨hagenda, hidle, rfl⟩ := hnext
  · rw [← hturn, step, hagenda]
    rfl
  · have hself : { s with agenda := [] } = s := by rw [← hagenda]
    rw [← hturn, hself, step, hagenda]
    simp only [State.defaultTurn, hidle]
    rfl

/-- A statement whose access is a read keeps the value read, and continues where its own control flow says. -/
theorem step_read {s t : State} {rest : List Turn} {st : HostStmt} {off : Nat} {x : Word} (hnext : hostNext s rest)
    (hst : s.host.prog[s.host.pc]? = some st) (hacc : st.access s.params = some (accessAt s.params off .read))
    (hoff : off < 2 ^ 27) (hread : read32 { s with agenda := rest } off = .next t) (hx : t.reply = some (.data x)) :
    step s = .next { t with
      host.pc := st.nextPc s.host.pc (some (.data x))
      host.reads := some x :: s.host.reads } := by
  have hbus : busAccess (accessAt s.params off .read) { s with agenda := rest } = .next t := hread
  rw [step_hostStatement hnext hst]
  simp only [hostStatement, hacc, hbus, hx, accessAt_read_answer s.params hoff]
  rfl

/-- A register answers every read (20_memory.md R105). -/
theorem read32_reg_answers (s : State) (r : Reg) :
    ∃ t x, read32 s r.offset = .next t ∧ t.reply = some (.data x) :=
  ⟨_, _, busAccess_reg s r .read, rfl⟩

/-- An implemented window word answers every read, and exactly when no command runs; at most the draw counter moves
(20_memory.md R104, R114; 70_reset_and_hazards.md R405). -/
theorem read32_word_answers {s : State} (hp : s.params.wf) {g : Region} {w : Nat} (hw : w < g.words s.params) :
    ∃ n x, read32 s (g.wordOffset w) = .next { s with reply := some (.data x), drawCount := n }
      ∧ (s.busy = false → x = s.readWord g w) := by
  obtain ⟨t, x, hread, hx⟩ : ∃ t x, read32 s (g.wordOffset w) = .next t ∧ t.reply = some (.data x) :=
    ⟨_, _, busAccess_word s g w .read hp hw, rfl⟩
  obtain ⟨hframe, -⟩ := readsHaveNoSideEffect _ _ _ _ hread
  rw [hx] at hframe
  refine ⟨t.drawCount, x, hread.trans (congrArg _ hframe), fun hidle => ?_⟩
  obtain rfl := Host.Outcome.next.inj (hread.symm.trans (read32_word hidle hp hw))
  exact (BusReply.data.inj (Option.some.inj hx)).symm

theorem Reg.offset_lt (r : Reg) : r.offset < 2 ^ 27 := by
  have := r.offset_le
  omega

/-- The implemented words lie in the block's region (20_memory.md R100, R102). -/
theorem Region.wordOffset_lt {p : Params} (hp : p.wf) {g : Region} {w : Nat} (hw : w < g.words p) :
    g.wordOffset w < 2 ^ 27 := by
  have hfit := g.words_fit p hp
  cases g <;> simp only [Region.wordOffset, Region.start, Region.aperture] at * <;> omega

/-! #### The two reads of an element -/

/-- Serving a read does not depend on the host, which stands outside the block. -/
theorem State.serveRead_host (s : State) (tgt : Target) (h : HostAgent) :
    State.serveRead { s with host := h } tgt = ((s.serveRead tgt).1, { (s.serveRead tgt).2 with host := h }) := by
  have hbusy : State.busy { s with host := h } = s.busy := rfl
  cases hdraw : s.busy && !tgt.exactWhileBusy <;> simp only [State.serveRead, hbusy, hdraw] <;> rfl

/-- A read answers the same whatever the host is, and leaves it alone. -/
theorem read32_host {s t : State} {off : Nat} (h : HostAgent) (hread : read32 s off = .next t) :
    read32 { s with host := h } off = .next { t with host := h } := by
  obtain ⟨hout, rfl⟩ | ⟨off', tgt, hoff, hlt, -, h4, ht, rfl⟩ := busAccess_cases hread
  · exact accessElsewhereLeavesTheBlockAlone _ _ hout
  · obtain rfl := Nat.add_left_cancel hoff
    refine (busAccess_served { s with host := h } off .read hlt h4 ht).trans ?_
    simp only [State.serve, State.serveRead_host]

/-- The two reads of an `rdm` (30_encoding.md R151): the second is answered after the first, whatever is in flight, and when
nothing is, they answer the two halves of the element. -/
theorem step_rdm {s : State} {rest last : List Turn} {e : Nat} (hp : s.params.wf)
    (he : e < s.params.rmax * s.params.cmax) (hnext : hostNext s rest) (hlast : hostNext { s with agenda := rest } last)
    (hfirst : s.host.prog[s.host.pc]? = some (.rdw .mat (2 * e)))
    (hsecond : s.host.prog[s.host.pc + 1]? = some (.rdw .mat (2 * e + 1))) :
    ∃ t u x y, read32 { s with agenda := rest } (0x1000000 + 8 * e) = .next t ∧ t.reply = some (.data x)
      ∧ read32 { t with agenda := last } (0x1000004 + 8 * e) = .next u ∧ u.reply = some (.data y)
      ∧ (∃ m, step s = .next m
        ∧ step m = .next { u with host.pc := s.host.pc + 2, host.reads := some y :: some x :: s.host.reads })
      ∧ (s.busy = false → y ++ x = s.matAt e) := by
  have hlo : 2 * e < Region.mat.words s.params := by simp only [Region.words]; omega
  have hhi : 2 * e + 1 < Region.mat.words s.params := by simp only [Region.words]; omega
  have hofflo : 0x1000000 + 8 * e = Region.mat.wordOffset (2 * e) := by simp only [Region.wordOffset, Region.start]; omega
  have hoffhi : 0x1000004 + 8 * e = Region.mat.wordOffset (2 * e + 1) := by
    simp only [Region.wordOffset, Region.start]; omega
  rw [hofflo, hoffhi]
  obtain ⟨n, x, hx, hxidle⟩ := read32_word_answers (s := { s with agenda := rest }) hp hlo
  obtain ⟨k, y, hy, hyidle⟩ := read32_word_answers
    (s := { s with agenda := last, reply := some (.data x), drawCount := n }) hp hhi
  refine ⟨_, _, x, y, hx, rfl, hy, rfl,
    ⟨_, step_read hnext hfirst rfl (Region.wordOffset_lt hp hlo) hx rfl, ?_⟩, fun hidle => ?_⟩
  · have hstep := step_read (s := { s with
        agenda := rest
        reply := some (.data x)
        drawCount := n
        host.pc := s.host.pc + 1
        host.reads := some x :: s.host.reads }) hlast hsecond rfl (Region.wordOffset_lt hp hhi) (read32_host _ hy) rfl
    exact hstep
  · rw [hxidle hidle, hyidle hidle]
    rfl

/-- Settles O53: each statement is a step that reads, and an `rdm` is two of them. -/
theorem hostUsesTheValuesRead : Obligations.HostUsesTheValuesRead := by
  intro s rest r mask v target hnext
  obtain ⟨t, x, hread, hx⟩ := read32_reg_answers { s with agenda := rest } r
  have hstep : ∀ {st : HostStmt}, s.host.prog[s.host.pc]? = some st →
      st.access s.params = some (accessAt s.params r.offset .read) →
      step s = .next { t with
        host.pc := st.nextPc s.host.pc (some (.data x))
        host.reads := some x :: s.host.reads } := fun hst hacc => step_read hnext hst hacc r.offset_lt hread hx
  refine ⟨fun hst => ⟨t, x, hread, hx, hstep hst rfl⟩, fun hst => ⟨t, x, hread, hx, ?_⟩,
    fun hst => step_hostStatement hnext hst, fun hst => ⟨t, x, hread, hx, hstep hst rfl, rfl⟩,
    fun g w hp hw hst => ?_, fun find last e first second hp he hlast hexpand hfirst hsecond => ?_⟩
  · rw [ite_not]
    exact hstep hst rfl
  · obtain ⟨n, x, hread, -⟩ := read32_word_answers (s := { s with agenda := rest }) hp hw
    exact ⟨_, x, hread, rfl, step_read hnext hst rfl (Region.wordOffset_lt hp hw) hread rfl, rfl⟩
  · obtain ⟨rfl, rfl⟩ : HostStmt.rdw .mat (2 * e) = first ∧ .rdw .mat (2 * e + 1) = second := by
      simpa [HostLine.expand] using hexpand
    obtain ⟨t, u, x, y, ht, hx, hu, hy, hsteps, hvalue⟩ := step_rdm hp he hnext hlast hfirst hsecond
    exact ⟨t, u, x, y, ht, hx, hu, hy, hsteps, rfl, hvalue⟩

end Sys2Proof.Machine

/-! ### The command protocol (40_command_protocol.md; 60_exceptions.md R354) -/

namespace Sys2Proof.Machine

open Sys2Proof.Claims

/-! #### What an engine turn completes -/

/-- At its turn the engine acts on the rest of the agenda (60_exceptions.md R354). -/
theorem step_engine {s : State} {rest : List Turn} (hagenda : s.agenda = .engine :: rest) :
    step s = engineTurn { s with agenda := rest } := by
  rw [step, hagenda]
  rfl

/-- With an empty agenda and a word in flight the engine acts (log entry 4). -/
theorem step_engine_default {s : State} (hagenda : s.agenda = []) (hbusy : s.busy = true) : step s = engineTurn s := by
  rw [step, hagenda]
  exact congrArg (turn · s) (if_pos hbusy)

/-- A word that is a command completes as exec says (40_command_protocol.md R172, R173). -/
theorem engineTurn_command {s : State} {w : Word} {i : Instr} (hw : s.inflight = some w) (hi : decodeWord w = .ok i) :
    engineTurn s = exec i s := by
  simp only [engineTurn, hw, hi]

/-- A word that is no command completes with ILLEGAL_CMD (40_command_protocol.md R178). -/
theorem engineTurn_illegal {s : State} {w : Word} {e : DecodeError} (hw : s.inflight = some w)
    (he : decodeWord w = .error e) : engineTurn s = failedWith s .illegalCmd := by
  simp only [engineTurn, hw, he]
  rfl

/-- A word outside the opcode map does not decode (30_encoding.md R143, R144). -/
theorem decodeWord_error_of_notMem {w : Word} (hw : w ∉ opcodeRows.map Prod.fst) : ∃ e, decodeWord w = .error e := by
  obtain ⟨-, hreserved, hunassigned⟩ := wordsDecodeByTheOpcodeMap w
  by_cases hrsv : w.toNat / 256 = 0
  · exact ⟨_, hunassigned hrsv hw⟩
  · exact ⟨_, hreserved hrsv⟩

/-- Settles O4: the engine acts in both cases, and completes the command that the word decodes to. -/
theorem stepRunsTheDecodedCommand : Obligations.StepRunsTheDecodedCommand := by
  refine fun s w i hw hi => ⟨fun rest hagenda => ?_, fun hagenda => ?_⟩
  · exact (step_engine hagenda).trans (engineTurn_command hw hi)
  · exact (step_engine_default hagenda (by simp [hw])).trans (engineTurn_command hw hi)

/-- Settles O5: the engine acts in both cases, and the word does not decode. -/
theorem illegalWordCompletesWithIllegalCmd : Obligations.IllegalWordCompletesWithIllegalCmd := by
  intro s w hw hrow
  obtain ⟨e, he⟩ := decodeWord_error_of_notMem hrow
  refine ⟨fun hagenda => ?_, fun rest hagenda => ?_⟩
  · exact (step_engine_default hagenda (by simp [hw])).trans (engineTurn_illegal hw he)
  · exact (step_engine hagenda).trans (engineTurn_illegal hw he)

/-- Settles O6: an access to CMD is `writeCmd`, which accepts or drops the word as BUSY says. -/
theorem cmdWriteIsAcceptedOrDropped : Obligations.CmdWriteIsAcceptedOrDropped := by
  refine fun s w => ⟨fun hidle => ?_, fun hbusy => ?_⟩
  · have haccept : s.writeReg .cmd w = s.accept w := if_neg (Bool.not_eq_true _ ▸ hidle)
    exact ⟨_, (write32_reg s .cmd w).trans (by rw [haccept]; rfl), rfl, rfl, Bool.and_false _⟩
  · have hdrop : s.writeReg .cmd w = { s with status.cmdlost := true } := if_pos hbusy
    exact (write32_reg s .cmd w).trans (by rw [hdrop])

/-- Settles O11: NOP commits the state it finds. -/
theorem nopCompletesWithNoEffect : Obligations.NopCompletesWithNoEffect :=
  fun s => ⟨s.succeed, rfl, rfl, fun hclean => ⟨rfl, hclean⟩⟩

/-! #### How long a command stays in flight -/

/-- The engine leaves no command in flight (40_command_protocol.md R172, R173, R178). -/
theorem engineTurn_completes {s : State} (hbusy : s.busy = true) : ∃ t, engineTurn s = .next t ∧ t.inflight = none := by
  obtain ⟨w, hw⟩ := Option.isSome_iff_exists.1 hbusy
  cases hd : decodeWord w with
  | ok i =>
    rw [engineTurn_command hw hd, exec_eq_finish]
    cases runOf i s <;> exact ⟨_, rfl, rfl⟩
  | error e => exact ⟨_, engineTurn_illegal hw hd, rfl⟩

/-- No command and no illegal word touches the agenda. -/
theorem engineTurn_agenda {s t : State} (h : engineTurn s = .next t) : t.agenda = s.agenda := by
  obtain ⟨-, rfl⟩ | ⟨w, i, -, -, hexec⟩ | ⟨w, e, -, -, rfl⟩ := engineTurn_cases h
  · rfl
  · rw [commandsLeaveEveryOtherRegister i s t hexec]
  · rfl

/-- No write touches the agenda. -/
theorem State.writeTarget_agenda (s : State) (tgt : Target) (v : Word) : (s.writeTarget tgt v).agenda = s.agenda := by
  cases tgt with
  | word g w =>
    have hstore : (s.storeWord g w v).agenda = s.agenda := by cases g <;> rfl
    rw [State.writeTarget, apply_ite State.agenda, hstore, ite_self]
  | reg r =>
    have hstore : (s.storeReg r v).agenda = s.agenda := by rw [s.storeReg_frame]
    cases r
    case status => rfl
    case ctrl =>
      simp only [State.writeTarget, State.writeReg, State.writeCtrl]
      split
      · rfl
      · split <;> rfl
    case cmd =>
      simp only [State.writeTarget, State.writeReg, State.writeCmd]
      split <;> rfl
    all_goals simp only [State.writeTarget, State.writeReg, apply_ite State.agenda, hstore, ite_self]

/-- No access touches the agenda. -/
theorem busAccess_agenda {s t : State} {a : BusAccess} (h : busAccess a s = .next t) : t.agenda = s.agenda := by
  obtain ⟨-, rfl⟩ | ⟨off, tgt, -, -, -, -, -, rfl⟩ := busAccess_cases h
  · rfl
  · cases a.op with
    | write v => exact s.writeTarget_agenda tgt v
    | read => obtain hs | ⟨-, hs⟩ := s.serveRead_state tgt <;> simp only [State.serve, hs]

/-- A turn leaves the rest of the agenda to the others. -/
theorem turn_agenda {who : Turn} {s t : State} (h : turn who s = .next t) : t.agenda = s.agenda := by
  cases who with
  | engine => exact engineTurn_agenda h
  | bus a => exact busAccess_agenda h
  | hardReset =>
    obtain rfl := Host.Outcome.next.inj h
    rfl
  | host =>
    obtain rfl | ⟨pc, rfl⟩ | ⟨a, u, pc, hu, rfl⟩ := hostTurn_cases h
    · rfl
    · rfl
    · exact (busAccess_agenda hu :)

/-- The engine always has a next state. -/
theorem engineTurn_next (s : State) : ∃ t, engineTurn s = .next t := by
  cases hw : s.inflight with
  | none => exact ⟨s, by simp only [engineTurn, hw]⟩
  | some w => exact (engineTurn_completes (by simp [hw])).imp fun t h => h.1

/-- No host turn is refused: its access is not. -/
theorem hostTurn_not_refused (s : State) (r : Refusal) : hostTurn s ≠ .refused r := by
  unfold hostTurn
  split
  · exact nofun
  · unfold hostStatement
    split
    · exact nofun
    · split
      case h_1 => exact nofun
      case h_2 => exact nofun
      case h_3 hr => exact absurd hr (busAccess_not_refused _ _ _)

/-- No turn is refused. -/
theorem turn_not_refused (who : Turn) (s : State) (r : Refusal) : turn who s ≠ .refused r := by
  cases who with
  | engine =>
    obtain ⟨t, ht⟩ := engineTurn_next s
    exact ht.trans_ne nofun
  | bus a => exact busAccess_not_refused a s r
  | hardReset => exact nofun
  | host => exact hostTurn_not_refused s r

/-- After `n` steps no command is in flight, unless a fault has stopped the machine. -/
def State.LeavesFlightIn (s : State) (n : Nat) : Prop :=
  (∃ t, Sys2Proof.core.run n s = .next t ∧ t.inflight = none) ∨ ∃ f, Sys2Proof.core.run n s = .fault f

/-- A step that comes before counts as one more. -/
theorem State.LeavesFlightIn.of_step {s t : State} {n : Nat} (hstep : step s = .next t) (h : t.LeavesFlightIn n) :
    s.LeavesFlightIn (n + 1) := by
  rwa [LeavesFlightIn, core_run_next hstep]

/-- A turn faults, or ends the command, or leaves it to a shorter agenda; with no turn left the engine completes it. -/
theorem leavesFlight_within_agenda (agenda : List Turn) {s : State} (hagenda : s.agenda = agenda) (hbusy : s.busy = true) :
    ∃ n, n ≤ agenda.length + 1 ∧ s.LeavesFlightIn n := by
  induction agenda generalizing s with
  | nil =>
    obtain ⟨t, ht, hidle⟩ := engineTurn_completes hbusy
    exact ⟨1, le_rfl, .of_step ((step_engine_default hagenda hbusy).trans ht) (.inl ⟨t, rfl, hidle⟩)⟩
  | cons who rest ih =>
    have hstep : step s = turn who { s with agenda := rest } := by rw [step, hagenda]
    cases hturn : turn who { s with agenda := rest } with
    | refused r => exact absurd hturn (turn_not_refused who _ r)
    | fault f => exact ⟨1, by simp, .inr ⟨f, core_run_fault (hstep.trans hturn) 0⟩⟩
    | next t =>
      cases hflight : t.inflight with
      | none => exact ⟨1, by simp, .of_step (hstep.trans hturn) (.inl ⟨t, rfl, hflight⟩)⟩
      | some w =>
        obtain ⟨n, hn, hleaves⟩ := ih (turn_agenda hturn) (by simp [hflight])
        exact ⟨n + 1, Nat.succ_le_succ hn, hleaves.of_step (hstep.trans hturn)⟩

/-- Settles O7, by induction on the agenda. -/
theorem acceptedCommandLeavesFlight : Obligations.AcceptedCommandLeavesFlight :=
  fun _ hbusy => leavesFlight_within_agenda _ rfl hbusy

/-! #### What commands neither read nor write -/

/-- The state `s` with everything that no command reads or writes taken from `t`: IE, the STATUS bits of the protocol, the word in
flight, and the model's own fields. -/
def State.withProtocolOf (s t : State) : State :=
  { s with
    ctrl.ie := t.ctrl.ie
    status := { s.status with
      done := t.status.done
      err := t.status.err
      errcode := t.status.errcode
      cmdlost := t.status.cmdlost }
    inflight := t.inflight
    drawCount := t.drawCount
    agenda := t.agenda
    host := t.host
    reply := t.reply }

/-! What commands read is the same from a state with another protocol part. -/

section
variable (s t : State)

@[simp] theorem State.withProtocolOf_regs : (s.withProtocolOf t).regs = s.regs := rfl
@[simp] theorem State.withProtocolOf_q : (s.withProtocolOf t).q = s.q := rfl
@[simp] theorem State.withProtocolOf_coef : (s.withProtocolOf t).coef = s.coef := rfl
@[simp] theorem State.withProtocolOf_rowCount : (s.withProtocolOf t).rowCount = s.rowCount := rfl
@[simp] theorem State.withProtocolOf_colCount : (s.withProtocolOf t).colCount = s.colCount := rfl
@[simp] theorem State.withProtocolOf_matrix : (s.withProtocolOf t).matrix = s.matrix := rfl
@[simp] theorem State.withProtocolOf_framed : (s.withProtocolOf t).framed = s.framed := rfl
@[simp] theorem embedCheck_withProtocolOf (xf : Bool) : embedCheck (s.withProtocolOf t) xf = embedCheck s xf := rfl
@[simp] theorem extractCheck_withProtocolOf (xf : Bool) : extractCheck (s.withProtocolOf t) xf = extractCheck s xf := rfl
@[simp] theorem embedBand_withProtocolOf (x : Array F64) (fb : List Bit) :
    embedBand (s.withProtocolOf t) x fb = embedBand s x fb := rfl
@[simp] theorem extractBand_withProtocolOf (x : Array F64) : extractBand (s.withProtocolOf t) x = extractBand s x := rfl

end

/-- A check gives the same error, or goes on to what is mapped. -/
theorem guard_map {f : State → State} {c : Prop} [Decidable c] {e : ErrCode} {r r' : Except ErrCode State}
    (h : r' = r.map f) : (if c then .error e else r') = (if c then .error e else r : Except ErrCode State).map f := by
  subst h
  split <;> rfl

/-- A command computes the same from a state with another protocol part, and carries that part along. -/
theorem runOf_withProtocolOf (i : Instr) (s t : State) :
    runOf i (s.withProtocolOf t) = (runOf i s).map (·.withProtocolOf t) := by
  cases i with
  | nop => rfl
  | b2bits => exact guard_map rfl
  | bits2b => exact guard_map (guard_map rfl)
  | u32bits => exact guard_map rfl
  | bitsu32 => exact guard_map rfl
  | posmod => exact guard_map rfl
  | permgen => exact guard_map (guard_map rfl)
  | fwd => exact guard_map (guard_map (guard_map rfl))
  | inv => exact guard_map (guard_map (guard_map rfl))
  | qwrite =>
    refine guard_map ?_
    simp only [State.withProtocolOf_coef, State.withProtocolOf_regs, State.withProtocolOf_q]
    cases qimWrite s.coef (s.regs.arg0.extractLsb' 0 1) s.q <;> rfl
  | qread =>
    refine guard_map ?_
    simp only [State.withProtocolOf_coef, State.withProtocolOf_q]
    cases qimRead s.coef s.q <;> rfl
  | frame => exact guard_map rfl
  | embed =>
    simp only [runOf, runEmbed, embedCheck_withProtocolOf, embedBand_withProtocolOf, State.withProtocolOf_matrix,
      State.withProtocolOf_framed]
    cases embedCheck s true with
    | some c => rfl
    | none => cases embedBand s s.matrix s.framed <;> rfl
  | extract =>
    simp only [runOf, runExtract, extractCheck_withProtocolOf, extractBand_withProtocolOf, State.withProtocolOf_matrix]
    cases extractCheck s true with
    | some c => rfl
    | none => cases extractBand s s.matrix <;> rfl
  | embedf =>
    simp only [runOf, runEmbedf, embedCheck_withProtocolOf, embedBand_withProtocolOf, State.withProtocolOf_matrix,
      State.withProtocolOf_framed, State.withProtocolOf_rowCount, State.withProtocolOf_colCount]
    cases embedCheck s false with
    | some c => rfl
    | none =>
      cases embedBand s (haarFwd s.rowCount s.colCount s.matrix) s.framed with
      | none => exact guard_map rfl
      | some y => exact guard_map (guard_map rfl)
  | extractf =>
    simp only [runOf, runExtractf, extractCheck_withProtocolOf, extractBand_withProtocolOf, State.withProtocolOf_matrix,
      State.withProtocolOf_rowCount, State.withProtocolOf_colCount]
    cases extractCheck s false with
    | some c => rfl
    | none => cases extractBand s (haarFwd s.rowCount s.colCount s.matrix) <;> exact guard_map rfl

/-- What a command commits leaves the protocol part alone: with its own protocol part the state computes itself. -/
theorem runOf_keeps_protocol {i : Instr} {s v : State} (h : runOf i s = .ok v) : v = v.withProtocolOf s := by
  have hself : runOf i s = (runOf i s).map (·.withProtocolOf s) := runOf_withProtocolOf i s s
  rw [h] at hself
  exact Except.ok.inj hself

/-! #### Which errors a command raises -/

/-- Every error that `r` can be is one of `codes`. -/
def ErrorsIn {α : Type} (codes : List ErrCode) (r : Except ErrCode α) : Prop := ∀ c, r = .error c → c ∈ codes

section
variable {α : Type} {codes : List ErrCode}

theorem ErrorsIn.ok {a : α} : ErrorsIn codes (.ok a) := nofun

theorem ErrorsIn.error {c : ErrCode} (hc : c ∈ codes) : ErrorsIn codes (.error c : Except ErrCode α) := by
  rintro _ ⟨⟩
  exact hc

/-- A check adds its own code. -/
theorem ErrorsIn.guard {p : Prop} [Decidable p] {e : ErrCode} {r : Except ErrCode α} (he : e ∈ codes)
    (hr : ErrorsIn codes r) : ErrorsIn codes (if p then .error e else r) := by
  split
  · exact .error he
  · exact hr

end

/-- A check in a list of checks adds its own code. -/
theorem check_codes {codes : List ErrCode} {p : Prop} [Decidable p] {e c : ErrCode} {r : Option ErrCode} (he : e ∈ codes)
    (hr : r = some c → c ∈ codes) (h : (if p then some e else r) = some c) : c ∈ codes := by
  split at h
  · exact Option.some.inj h ▸ he
  · exact hr h

/-- The checks of EMBED and EMBEDF raise codes of their row (45_frame_mux.md R317, R319). -/
theorem embedCheck_codes {s : State} {xf : Bool} {c : ErrCode} : embedCheck s xf = some c → c ∈ failsWith .embed :=
  check_codes (by decide) (check_codes (by decide) (check_codes (by decide) (check_codes (by decide)
    (check_codes (by decide) nofun))))

/-- The checks of EXTRACT and EXTRACTF raise codes of their row (45_frame_mux.md R318, R320). -/
theorem extractCheck_codes {s : State} {xf : Bool} {c : ErrCode} : extractCheck s xf = some c → c ∈ failsWith .extract :=
  check_codes (by decide) (check_codes (by decide) (check_codes (by decide) (check_codes (by decide) nofun)))

/-- Reading a frame fails on a coefficient or on the header (45_frame_mux.md R315). -/
theorem extractBand_errors (s : State) (x : Array F64) : ErrorsIn (failsWith .extract) (extractBand s x) := by
  unfold extractBand
  cases votes s.q x s.repCount 32 s.siteAddrs with
  | none => exact .error (by decide)
  | some header =>
    refine .guard (by decide) ?_
    split
    · exact .error (by decide)
    · exact .ok

/-- A command raises only the errors of its row (30_encoding.md R147). -/
theorem runOf_errors (i : Instr) (s : State) : ErrorsIn (failsWith i) (runOf i s) := by
  cases i with
  | nop => exact .ok
  | b2bits => exact .guard (by decide) .ok
  | bits2b => exact .guard (by decide) (.guard (by decide) .ok)
  | u32bits => exact .guard (by decide) .ok
  | bitsu32 => exact .guard (by decide) .ok
  | posmod => exact .guard (by decide) .ok
  | permgen => exact .guard (by decide) (.guard (by decide) .ok)
  | fwd => exact .guard (by decide) (.guard (by decide) (.guard (by decide) .ok))
  | inv => exact .guard (by decide) (.guard (by decide) (.guard (by decide) .ok))
  | qwrite =>
    refine .guard (by decide) ?_
    cases qimWrite s.coef (s.regs.arg0.extractLsb' 0 1) s.q with
    | none => exact .error (by decide)
    | some c => exact .ok
  | qread =>
    refine .guard (by decide) ?_
    cases qimRead s.coef s.q with
    | none => exact .error (by decide)
    | some b => exact .ok
  | frame => exact .guard (by decide) .ok
  | embed =>
    simp only [runOf, runEmbed]
    cases hcheck : embedCheck s true with
    | some c => exact .error (embedCheck_codes hcheck)
    | none =>
      cases embedBand s s.matrix s.framed with
      | none => exact .error (by decide)
      | some y => exact .ok
  | extract =>
    simp only [runOf, runExtract]
    cases hcheck : extractCheck s true with
    | some c => exact .error (extractCheck_codes hcheck)
    | none =>
      cases hband : extractBand s s.matrix with
      | error c => exact .error (extractBand_errors s _ c hband)
      | ok r => exact .ok
  | embedf =>
    simp only [runOf, runEmbedf]
    cases hcheck : embedCheck s false with
    | some c => exact .error (embedCheck_codes hcheck)
    | none =>
      refine .guard (by decide) ?_
      cases embedBand s (haarFwd s.rowCount s.colCount s.matrix) s.framed with
      | none => exact .error (by decide)
      | some y => exact .guard (by decide) .ok
  | extractf =>
    simp only [runOf, runExtractf]
    cases hcheck : extractCheck s false with
    | some c => exact .error (extractCheck_codes hcheck)
    | none =>
      refine .guard (by decide) ?_
      cases hband : extractBand s (haarFwd s.rowCount s.colCount s.matrix) with
      | error c => exact .error (extractBand_errors s _ c hband)
      | ok r => exact .ok

/-- Settles O8: an error is one of the row's and discards everything; a success keeps ERR and ERRCODE, which were clear. -/
theorem failedCommandChangesOnlyStatus : Obligations.FailedCommandChangesOnlyStatus := by
  rintro i s ⟨herr, hcode⟩
  rw [exec_eq_finish]
  cases hrun : runOf i s with
  | error c => exact ⟨s.fail c, rfl, rfl, rfl, .inr ⟨c, runOf_errors i s c hrun, rfl⟩⟩
  | ok v =>
    refine ⟨v.succeed, rfl, rfl, rfl, .inl ?_⟩
    rw [runOf_keeps_protocol hrun]
    exact ⟨herr, hcode⟩

/-! #### What an access does to a busy block -/

/-- The state `s` with what an access to a busy block can change taken from `t`: what a completion keeps of it, and DONE, which
a completion sets. -/
def State.accessedAs (s t : State) : State := { keepingAccess s t with status.done := t.status.done }

/-- While a command runs and no error is recorded, a write that is no soft reset changes IE, DONE and CMDLOST at most
(40_command_protocol.md R174; 70_reset_and_hazards.md R403, R404, R406). -/
theorem State.writeTarget_accessedAs {s : State} (hbusy : s.busy = true) (hclean : clean s) {tgt : Target} {v : Word}
    (hsrst : tgt = .reg .ctrl → srstBit v = false) : s.writeTarget tgt v = s.accessedAs (s.writeTarget tgt v) := by
  by_cases hctrl : tgt = .reg .ctrl
  · subst hctrl
    have hwrite : s.writeTarget (.reg .ctrl) v = { s with ctrl.ie := (Ctrl.ofWrite v).ie } := by
      simp only [State.writeTarget, State.writeReg, State.writeCtrl, hsrst rfl, hbusy, Bool.false_eq_true, if_false, if_true]
    rw [hwrite]
    rfl
  by_cases hstatus : tgt = .reg .status
  · subst hstatus
    obtain ⟨herr, hcode⟩ := hclean
    have hkeepErr : (s.status.writeOneToClear v).err = s.status.err := by simp [Status.writeOneToClear, herr]
    have hkeepCode : (s.status.writeOneToClear v).errcode = s.status.errcode := by simp [Status.writeOneToClear, hcode]
    simp only [State.accessedAs, keepingAccess, ← hkeepErr, ← hkeepCode]
    rfl
  by_cases hcmd : tgt = .reg .cmd
  · subst hcmd
    have hwrite : s.writeTarget (.reg .cmd) v = { s with status.cmdlost := true } := if_pos hbusy
    rw [hwrite]
    rfl
  · rw [State.writeTarget_busy hbusy v hctrl hstatus hcmd]
    rfl

/-- An access to a busy block that is no soft reset changes nothing but what `accessedAs` takes. -/
theorem busAccess_accessedAs {s t : State} {a : BusAccess} (hbusy : s.busy = true) (hclean : clean s)
    (hsrst : ∀ v, a.op = .write v → a.addr = s.params.base + 0x010 → srstBit v = false) (h : busAccess a s = .next t) :
    t = s.accessedAs t := by
  obtain ⟨-, rfl⟩ | ⟨off, tgt, haddr, -, -, -, ht, rfl⟩ := busAccess_cases h
  · rfl
  · cases hop : a.op with
    | read => obtain hs | ⟨-, hs⟩ := s.serveRead_state tgt <;> simp only [State.serve, hs] <;> rfl
    | write v =>
      have hctrl : tgt = .reg .ctrl → srstBit v = false := by
        rintro rfl
        obtain ⟨r, hr, rfl⟩ | ⟨g, w, hg, -⟩ := targetAt_cases ht
        · obtain rfl := Target.reg.inj hr
          exact hsrst v hop haddr
        · cases hg
      exact congrArg (fun u : State => { u with reply := some .written }) (State.writeTarget_accessedAs hbusy hclean hctrl)

/-- A command completes after an access as before it, but for what the access changed. -/
theorem exec_accessedAs {i : Instr} {s u : State} (h : exec i s = .next u) (t : State) :
    exec i (s.accessedAs t) = .next (keepingAccess u (s.accessedAs t)) := by
  have hrun : runOf i (s.accessedAs t) = (runOf i s).map (·.withProtocolOf (s.accessedAs t)) :=
    runOf_withProtocolOf i s (s.accessedAs t)
  rw [exec_eq_finish] at h ⊢
  obtain ⟨v, hv, rfl⟩ | ⟨c, hc, rfl⟩ := finish_cases h
  · rw [hrun, hv, runOf_keeps_protocol hv]
    rfl
  · rw [hrun, hc]
    rfl

/-- The engine completes a word, legal or illegal, after an access as before it, but for what the access changed. -/
theorem engineTurn_accessedAs {s u : State} (hbusy : s.busy = true) (h : engineTurn s = .next u) (t : State) :
    engineTurn (s.accessedAs t) = .next (keepingAccess u (s.accessedAs t)) := by
  obtain ⟨hidle, -⟩ | ⟨w, i, hw, hd, hexec⟩ | ⟨w, e, hw, hd, rfl⟩ := engineTurn_cases h
  · simp [hidle] at hbusy
  · exact (engineTurn_command (s := s.accessedAs t) hw hd).trans (exec_accessedAs hexec t)
  · exact engineTurn_illegal (s := s.accessedAs t) hw hd

/-- Settles O10: no completion depends on what the access can have changed. -/
theorem busyAccessCannotChangeTheOutcome : Obligations.BusyAccessCannotChangeTheOutcome := by
  intro s t a hbusy hclean hsrst h
  have ht : s.accessedAs t = t := (busAccess_accessedAs hbusy hclean hsrst h).symm
  rw [← ht]
  exact ⟨rfl, hclean, fun u hu => engineTurn_accessedAs hbusy hu t, fun i u hu => exec_accessedAs hu t⟩

end Sys2Proof.Machine

/-! ### The bit and byte converter (41_bitbyte.md R200 to R214) -/

namespace Sys2Proof.Machine

open Sys2Proof.Claims

/-! #### The laws of the conversions -/

/-- Bits packed into bytes are the bytes' bits, as far as they fill bytes (41_bitbyte.md R200, R201). -/
theorem bytesToBits_takeBytes {n : Nat} {b : List Bit} (h : 8 * n ≤ b.length) :
    bytesToBits (takeBytes n b) = b.take (8 * n) := by
  induction n generalizing b with
  | zero => rfl
  | succ n ih =>
    have hfirst : (b.take 8).length = 8 := by rw [List.length_take]; omega
    have hrest : 8 * n ≤ (b.drop 8).length := by rw [List.length_drop]; omega
    rw [takeBytes, bytesToBits_cons, byteToBits_ofNat_bitsToNat _ hfirst, ih hrest, ← List.take_add, Nat.mul_succ,
      Nat.add_comm]

/-- The bits of bytes give the bytes back (41_bitbyte.md R200, R201). -/
theorem takeBytes_bytesToBits (bs : List Byte) : takeBytes bs.length (bytesToBits bs) = bs := by
  induction bs with
  | nil => rfl
  | cons x bs ih =>
    rw [List.length_cons, bytesToBits_cons, takeBytes, List.take_left' (length_byteToBits x),
      List.drop_left' (length_byteToBits x), bitsToNat_byteToBits, ih]

/-- The word of 32 bits has those bits (41_bitbyte.md R202, R203). -/
theorem u32ToBits_ofNat_bitsToNat {b : List Bit} (h : b.length = 32) : u32ToBits (BitVec.ofNat 32 (bitsToNat b)) = b := by
  apply List.ext_getElem?
  intro i
  by_cases hi : i < 32
  · rw [getElem?_u32ToBits _ hi, extract_ofNat_bitsToNat b h hi]
    simp [List.getD_eq_getElem?_getD, h, hi]
  · simp [hi, h]

/-- Settles O17: (a) to (d) by the laws above; (d) needs the slice to be 32 bits long. -/
theorem bitConversionsRoundTrip : Obligations.BitConversionsRoundTrip := by
  refine ⟨fun bs => ?_, fun x => ?_, fun b => ?_, fun b off hoff => ?_⟩
  · rw [bitsToBytes, length_bytesToBits, Nat.mul_div_cancel_left _ (by decide), takeBytes_bytesToBits]
  · rw [bitsToU32, List.drop_zero, List.take_of_length_le (length_u32ToBits x).le, bitsToNat_u32ToBits]
  · exact bytesToBits_takeBytes (Nat.mul_div_le ..)
  · exact u32ToBits_ofNat_bitsToNat (by rw [List.length_take, List.length_drop]; omega)

/-! #### What commands read of BYTE and BIT -/

theorem State.getElem?_payload (s : State) {n k : Nat} (h : k < n) : (s.payload n)[k]? = some (s.byteAt k) := by
  simp [State.payload, Memory.readRange, State.byteAt, h]

/-- The number that a slice of BIT denotes (41_bitbyte.md R201, R203). -/
theorem State.bitsToNat_bitSlice (s : State) (o n : Nat) :
    bitsToNat (s.bitSlice o n) = msbFirst n fun i => s.bitAt (o + i) := by
  rw [bitsToNat_eq_sum, State.length_bitSlice]
  exact Finset.sum_congr rfl fun i hi => by rw [s.getD_bitSlice (Finset.mem_range.1 hi)]

/-- A part of a slice of BIT is a slice of BIT. -/
theorem State.take_drop_bitSlice (s : State) (o : Nat) {n k m : Nat} (h : k + m ≤ n) :
    ((s.bitSlice o n).drop k).take m = s.bitSlice (o + k) m := by
  refine List.ext_getElem (by simp; omega) fun i _ _ => ?_
  simp [State.bitSlice, Memory.readRange, Nat.add_assoc]

/-! #### What each command answers -/

/-- A command that computes a result commits it. -/
theorem exec_of_ok {i : Instr} {s t : State} (h : runOf i s = .ok t) : exec i s = .next t.succeed := by
  rw [exec_eq_finish, h, finish_ok]

/-- A command that finds an error changes nothing but STATUS. -/
theorem exec_of_error {i : Instr} {s : State} {c : ErrCode} (h : runOf i s = .error c) : exec i s = failedWith s c := by
  rw [exec_eq_finish, h]
  rfl

/-- Settles O12: byte `k` of the payload gives the bits from `8 * k` on. -/
theorem b2bitsExpandsTheBytes : Obligations.B2bitsExpandsTheBytes := by
  refine fun s => ⟨fun hlarge => exec_of_error (if_pos hlarge), fun hfits => ?_⟩
  refine ⟨_, exec_of_ok (runB2bits_eq_ok.2 ⟨hfits, rfl⟩), rfl, fun k i hk hi => ?_, fun j hj => ?_⟩
  · refine (s.bitAt_setBits ..).trans ?_
    rw [if_pos (by simp; omega), List.getD_eq_getElem?_getD, Nat.sub_zero, getElem?_bytesToBits _ _ hi, s.getElem?_payload hk]
    rfl
  · exact (s.bitAt_setBits ..).trans (if_neg (by simp; omega))

/-- Settles O13: byte `k` is the number of the slice of eight bits from `8 * k` on. -/
theorem bits2bPacksTheBits : Obligations.Bits2bPacksTheBits := by
  refine fun s => ⟨?_, fun hbits hbytes => ?_⟩
  · rintro (hlarge | hlarge)
    · exact exec_of_error (if_pos hlarge)
    · exact exec_of_error (ite_eq_left_iff.2 fun _ => if_pos hlarge)
  refine ⟨_, exec_of_ok (runBits2b_eq_ok.2 ⟨hbits, hbytes, rfl⟩), rfl, fun k hk => ?_, fun k hk => ?_⟩
  · have hbyte := (s.byteAt_setBytes (bitsToBytes (s.bitSlice 0 s.regs.bitlen.toNat)) k).trans (if_pos (by simpa using hk))
    rw [List.getD_eq_getElem?_getD, getElem?_bitsToBytes _ (by simpa using hk), s.take_drop_bitSlice _ (by omega)] at hbyte
    refine (congrArg BitVec.toNat hbyte).trans ((toNat_ofNat_bitsToNat _ (by simp)).trans ?_)
    rw [s.bitsToNat_bitSlice, Nat.zero_add]
  · exact (s.byteAt_setBytes ..).trans (if_neg (by simpa using hk))

/-- Settles O14: the 32 bits of ARG0 are written at OFF. -/
theorem u32bitsWritesThirtyTwoBits : Obligations.U32bitsWritesThirtyTwoBits := by
  refine fun s => ⟨fun hlarge => exec_of_error (if_pos hlarge), fun hfits => ?_⟩
  refine ⟨_, exec_of_ok (runU32bits_eq_ok.2 ⟨hfits, rfl⟩), rfl, fun i hi => ?_, fun j hj => ?_⟩
  · refine (s.bitAt_setBits ..).trans ?_
    rw [if_pos (by simpa using hi), List.getD_eq_getElem?_getD, Nat.add_sub_cancel_left, getElem?_u32ToBits _ hi]
    rfl
  · exact (s.bitAt_setBits ..).trans (if_neg (by simp; omega))

/-- Settles O15: RESULT is the number of the slice of 32 bits from OFF on. -/
theorem bitsu32ReadsThirtyTwoBits : Obligations.Bitsu32ReadsThirtyTwoBits := by
  refine fun s => ⟨fun hlarge => exec_of_error (if_pos hlarge), fun hfits => ?_⟩
  refine ⟨_, exec_of_ok (runBitsu32_eq_ok.2 ⟨hfits, rfl⟩), rfl, ?_⟩
  have hslice : ((s.bitSlice s.regs.off.toNat 32).drop 0).take 32 = s.bitSlice s.regs.off.toNat 32 :=
    s.take_drop_bitSlice _ (by decide)
  calc (bitsToU32 (s.bitSlice s.regs.off.toNat 32) 0).toNat
      = bitsToNat (s.bitSlice s.regs.off.toNat 32) := by rw [bitsToU32, hslice, toNat_ofNat_bitsToNat _ (by simp)]
    _ = msbFirst 32 fun i => s.bitAt (s.regs.off.toNat + i) := s.bitsToNat_bitSlice ..

/-! #### The non-negative residue -/

/-- What `posMod` gives is the residue below the modulus (41_bitbyte.md R204). -/
theorem posMod_spec (a : Int) {m : Nat} (h : m ≠ 0) : posMod a m < m ∧ (m : Int) ∣ a - posMod a m := by
  have hm : (m : Int) ≠ 0 := Int.natCast_ne_zero.2 h
  have hres : (posMod a m : Int) = a % m := Int.toNat_of_nonneg (Int.emod_nonneg a hm)
  have hlt : a % (m : Int) < m := Int.emod_lt_of_pos a (by omega)
  exact ⟨by omega, hres ▸ Int.dvd_self_sub_emod⟩

/-- Settles O16: a residue below ARG1 is a word. -/
theorem posmodIsTheNonNegativeResidue : Obligations.PosmodIsTheNonNegativeResidue := by
  refine fun s => ⟨fun hzero => exec_of_error (if_pos (by rw [hzero]; rfl)), fun hne => ?_⟩
  have hm : s.regs.arg1.toNat ≠ 0 := fun h => hne (BitVec.eq_of_toNat_eq h)
  obtain ⟨hlt, hdvd⟩ := posMod_spec s.regs.arg0.toInt hm
  have hword : (BitVec.ofNat 32 (posMod s.regs.arg0.toInt s.regs.arg1.toNat)).toNat
      = posMod s.regs.arg0.toInt s.regs.arg1.toNat :=
    (BitVec.toNat_ofNat ..).trans (Nat.mod_eq_of_lt (hlt.trans s.regs.arg1.isLt))
  rw [← hword] at hlt hdvd
  exact ⟨_, exec_of_ok (runPosmod_eq_ok.2 ⟨hm, rfl⟩), rfl, hlt, hdvd⟩

end Sys2Proof.Machine

/-! ### The permutation generator (42_permutation.md R230 to R234) -/

namespace Sys2Proof.Machine

open Sys2Proof.Claims

/-- R230 on integers: the product and the sum are reduced once. -/
theorem toNat_lcgNext (x : Word) : (lcgNext x).toNat = (1664525 * x.toNat + 1013904223) % 2 ^ 32 := by
  have ha : (1664525 : Word).toNat = 1664525 := by decide
  have hc : (1013904223 : Word).toNat = 1013904223 := by decide
  rw [lcgNext, BitVec.toNat_add, BitVec.toNat_mul, ha, hc, Nat.mod_add_mod]

/-- R231: the index drawn is the floor of the product over 2^32. -/
theorem shuffleIndex_floor (x : Word) (i : Nat) :
    shuffleIndex x i * 2 ^ 32 ≤ x.toNat * (i + 1) ∧ x.toNat * (i + 1) < (shuffleIndex x i + 1) * 2 ^ 32 :=
  ⟨Nat.div_mul_le_self .., Nat.lt_mul_of_div_lt (Nat.lt_succ_self _) (by decide)⟩

/-- A swap of two places of an array, entry by entry. -/
theorem getD_swapIfInBounds {p : Array Nat} {i j k : Nat} (hi : i < p.size) (hj : j < p.size) (hk : k < p.size) :
    (p.swapIfInBounds i j).getD k 0 = if k = i then p.getD j 0 else if k = j then p.getD i 0 else p.getD k 0 := by
  simp [Array.swapIfInBounds, Array.getD, hi, hj, hk, Array.getElem_swap]

/-- `p` holds the sequence of length `n` after `m` swaps of the loop of R231. -/
structure HoldsShuffled (n seed m : Nat) (p : Array Nat) : Prop where
  size : p.size = n
  entry : ∀ k, k < n → p.getD k 0 = shuffled n seed m k

/-- The sequence from 0 to n - 1, before any swap. -/
theorem holdsShuffled_range (n seed : Nat) : HoldsShuffled n seed 0 (List.range n).toArray :=
  ⟨by simp, fun k hk => by simp [Array.getD, hk, shuffled]⟩

/-- The swap at place i + 1 is the m-th swap when i + 1 = n - 1 - m. -/
theorem HoldsShuffled.swap {n seed m i : Nat} {p : Array Nat} {x : Word} (h : HoldsShuffled n seed m p)
    (hx : x.toNat = lcgState seed (m + 1)) (hi : m + (i + 1) + 1 = n) :
    HoldsShuffled n seed (m + 1) (p.swapIfInBounds (i + 1) (shuffleIndex x (i + 1))) := by
  obtain ⟨hsize, hentry⟩ := h
  have hj := shuffleIndex_le x (i + 1)
  have hplace : n - 1 - m = i + 1 := by omega
  have hdrawn : lcgState seed (m + 1) * (i + 1 + 1) / 2 ^ 32 = shuffleIndex x (i + 1) := by rw [shuffleIndex, hx]
  refine ⟨by simpa using hsize, fun k hk => ?_⟩
  rw [getD_swapIfInBounds (by omega) (by omega) (by omega), hentry _ (by omega), hentry _ (by omega), hentry _ hk]
  simp only [shuffled, hplace, hdrawn]

/-- The rest of the loop, from the place i reached after `m` swaps down to 1 (42_permutation.md R231). -/
theorem HoldsShuffled.loop {n seed m i : Nat} {x : Word} {p : Array Nat} (h : HoldsShuffled n seed m p)
    (hx : x.toNat = lcgState seed m) (hi : m + i + 1 = n) :
    HoldsShuffled n seed (n - 1) (shuffleDown i x p) := by
  induction i generalizing m x p with
  | zero =>
    obtain rfl : m = n - 1 := by omega
    exact h
  | succ i ih =>
    have hnext : (lcgNext x).toNat = lcgState seed (m + 1) := by rw [toNat_lcgNext, hx, lcgState]
    exact ih (h.swap hnext hi) hnext (by omega)

/-- R231: makePermutation is the whole loop over the sequence from 0 to n - 1. -/
theorem getD_makePermutation {n k : Nat} (seed : Word) (hk : k < n) :
    (makePermutation n seed).getD k 0 = shuffled n seed.toNat (n - 1) k := by
  have hloop : HoldsShuffled n seed.toNat (n - 1) (makePermutation n seed) :=
    (holdsShuffled_range n seed.toNat).loop rfl (by omega)
  exact hloop.entry k hk

/-- Settles O18: the loop is followed swap by swap, and every swap permutes. -/
theorem permutationIsABijection : Obligations.PermutationIsABijection := by
  refine ⟨toNat_lcgNext, fun x i => ⟨shuffleIndex_le x i, shuffleIndex_floor x i⟩, fun n seed => ?_⟩
  refine ⟨fun k hk => getD_makePermutation seed hk, size_makePermutation n seed, fun v hv => ?_⟩
  exact List.count_eq_one_of_mem (nodup_makePermutation n seed) ((makePermutation_perm n seed).mem_iff.2 (List.mem_range.2 hv))

/-- Settles O19: the checks in their order, and what `setPerm` writes. -/
theorem permgenWritesThePermutation : Obligations.PermgenWritesThePermutation := by
  refine fun s => ⟨fun hunseeded => ?_, fun hseeded hlarge => ?_, fun hseeded hfits => ?_⟩
  · exact exec_of_error (if_pos (by rw [hunseeded]; rfl))
  · exact exec_of_error ((if_neg (by rw [hseeded]; decide)).trans (if_pos hlarge))
  refine ⟨_, exec_of_ok (runPermgen_eq_ok.2 ⟨hseeded, hfits, rfl⟩), rfl, fun k hk => ?_, fun k hk => ?_⟩
  · exact (s.permAt_setPerm ..).trans (if_pos (by rwa [size_makePermutation]))
  · exact (s.permAt_setPerm ..).trans (if_neg (by rw [size_makePermutation]; omega))

end Sys2Proof.Machine

/-! ### The Haar transform and the pipeline's checks (43_haar.md R250 to R257; 60_exceptions.md R353) -/

namespace Sys2Proof.Machine

open Sys2Proof.Claims

/-! #### A matrix, block by block -/

/-- The numbers below `n` fall into `n / 2` pairs: `f i` beside `g i`. -/
def FallsIntoPairs (n : Nat) (f g : Nat → Nat) : Prop :=
  ∀ P : Nat → Prop, (∀ k, k < n → P k) ↔ ∀ i, i < n / 2 → P (f i) ∧ P (g i)

/-- Neighbours: how a block's samples lie. -/
theorem fallsIntoPairs_neighbours {n : Nat} (hn : n % 2 = 0) : FallsIntoPairs n (2 * ·) (2 * · + 1) := by
  intro P
  change _ ↔ ∀ i, i < n / 2 → P (2 * i) ∧ P (2 * i + 1)
  refine ⟨fun h i hi => ⟨h _ (by omega), h _ (by omega)⟩, fun h k hk => ?_⟩
  obtain ⟨heven, hodd⟩ := h (k / 2) (by omega)
  obtain hk2 | hk2 : 2 * (k / 2) = k ∨ 2 * (k / 2) + 1 = k := by omega
  · exact hk2 ▸ heven
  · exact hk2 ▸ hodd

/-- The same place of either half: how a block's sub-bands lie (43_haar.md R253). -/
theorem fallsIntoPairs_halves {n : Nat} (hn : n % 2 = 0) : FallsIntoPairs n id (n / 2 + ·) := by
  intro P
  change _ ↔ ∀ i, i < n / 2 → P i ∧ P (n / 2 + i)
  refine ⟨fun h i hi => ⟨h _ (by omega), h _ (by omega)⟩, fun h k hk => ?_⟩
  by_cases hlow : k < n / 2
  · exact (h k hlow).1
  · have hhigh := (h (k - n / 2) (by omega)).2
    rwa [Nat.add_sub_cancel' (Nat.not_lt.1 hlow)] at hhigh

/-- Rows and columns in pairs make the matrix fall into blocks of four. -/
theorem FallsIntoPairs.blocks {rows cols : Nat} {f g f' g' : Nat → Nat} (hr : FallsIntoPairs rows f g)
    (hc : FallsIntoPairs cols f' g') (P : Nat → Nat → Prop) :
    (∀ r c, r < rows → c < cols → P r c)
      ↔ ∀ i j, i < rows / 2 → j < cols / 2 → (P (f i) (f' j) ∧ P (f i) (g' j)) ∧ P (g i) (f' j) ∧ P (g i) (g' j) := by
  calc (∀ r c, r < rows → c < cols → P r c)
      ↔ ∀ r, r < rows → ∀ c, c < cols → P r c := ⟨fun h r hr c hc => h r c hr hc, fun h r c hr hc => h r hr c hc⟩
    _ ↔ ∀ r, r < rows → ∀ j, j < cols / 2 → P r (f' j) ∧ P r (g' j) := by simp only [hc _]
    _ ↔ _ := by
      rw [hr]
      exact ⟨fun h i j hi hj => ⟨(h i hi).1 j hj, (h i hi).2 j hj⟩,
        fun h i hi => ⟨fun j hj => (h i j hi hj).1, fun j hj => (h i j hi hj).2⟩⟩

/-- The places of a matrix, by row and column. -/
theorem forall_place_iff {rows cols : Nat} {P : Nat → Prop} :
    (∀ e, e < rows * cols → P e) ↔ ∀ r c, r < rows → c < cols → P (r * cols + c) := by
  refine ⟨fun h r c hr hc => h _ (rowMajor_lt hr hc), fun h e he => ?_⟩
  have hcols : 0 < cols := Nat.pos_of_ne_zero (by rintro rfl; simp at he)
  have hplace := h (e / cols) (e % cols) (Nat.div_lt_of_lt_mul (by rwa [Nat.mul_comm])) (Nat.mod_lt _ hcols)
  rwa [Nat.div_add_mod'] at hplace

/-- Every element of a matrix is finite exactly when those of each block are. -/
theorem allFinite_iff_blocks {rows cols : Nat} {f g f' g' : Nat → Nat} (hr : FallsIntoPairs rows f g)
    (hc : FallsIntoPairs cols f' g') {x : Array F64} (hx : x.size = rows * cols) :
    allFinite x = true ↔ ∀ i j, i < rows / 2 → j < cols / 2 →
      (f64Finite (elemAt cols x (f i) (f' j)) = true ∧ f64Finite (elemAt cols x (f i) (g' j)) = true)
        ∧ f64Finite (elemAt cols x (g i) (f' j)) = true ∧ f64Finite (elemAt cols x (g i) (g' j)) = true := by
  rw [allFinite_iff, hx, forall_place_iff]
  exact hr.blocks hc fun r c => f64Finite (elemAt cols x r c) = true

theorem size_haarFwdRows (rows cols : Nat) (x : Array F64) : (haarFwdRows rows cols x).size = rows * cols :=
  size_tabulate ..

theorem size_haarInvCols (rows cols : Nat) (x : Array F64) : (haarInvCols rows cols x).size = rows * cols :=
  size_tabulate ..

/-- R254 for the forward transform, block by block. -/
theorem haarFwdOK_iff {rows cols : Nat} {x : Array F64} (hr : rows % 2 = 0) (hc : cols % 2 = 0)
    (hx : x.size = rows * cols) :
    haarFwdOK rows cols x = true ↔ ∀ i j, i < rows / 2 → j < cols / 2 →
      forwardBlockFinite (elemAt cols x (2 * i) (2 * j)) (elemAt cols x (2 * i) (2 * j + 1))
        (elemAt cols x (2 * i + 1) (2 * j)) (elemAt cols x (2 * i + 1) (2 * j + 1)) := by
  have hrowPairs := fallsIntoPairs_neighbours hr
  have hcolHalves := fallsIntoPairs_halves hc
  rw [haarFwdOK, Bool.and_eq_true, Bool.and_eq_true, allFinite_iff_blocks hrowPairs (fallsIntoPairs_neighbours hc) hx,
    allFinite_iff_blocks hrowPairs hcolHalves (size_haarFwdRows ..),
    allFinite_iff_blocks (fallsIntoPairs_halves hr) hcolHalves (size_haarFwd ..)]
  simp only [← forall_and]
  refine forall₄_congr fun i j hi hj => ?_
  obtain ⟨lo1, lo2, hi1, hi2, ll, lh, hl, hh⟩ := elemAt_haarFwd x hr hc hi hj
  simp only [id, lo1, lo2, hi1, hi2, ll, lh, hl, hh, forwardBlockFinite, List.forall_mem_cons, List.not_mem_nil, false_imp_iff,
    implies_true, and_true]
  exact iff_of_eq (by ac_rfl)

/-- R254 for the inverse transform, block by block. -/
theorem haarInvOK_iff {rows cols : Nat} {x : Array F64} (hr : rows % 2 = 0) (hc : cols % 2 = 0)
    (hx : x.size = rows * cols) :
    haarInvOK rows cols x = true ↔ ∀ i j, i < rows / 2 → j < cols / 2 →
      inverseBlockFinite (elemAt cols x i j) (elemAt cols x i (cols / 2 + j)) (elemAt cols x (rows / 2 + i) j)
        (elemAt cols x (rows / 2 + i) (cols / 2 + j)) := by
  have hrowPairs := fallsIntoPairs_neighbours hr
  have hcolHalves := fallsIntoPairs_halves hc
  rw [haarInvOK, Bool.and_eq_true, Bool.and_eq_true, allFinite_iff_blocks (fallsIntoPairs_halves hr) hcolHalves hx,
    allFinite_iff_blocks hrowPairs hcolHalves (size_haarInvCols ..),
    allFinite_iff_blocks hrowPairs (fallsIntoPairs_neighbours hc) (size_haarInv ..)]
  simp only [← forall_and]
  refine forall₄_congr fun i j hi hj => ?_
  obtain ⟨lo1, lo2, hi1, hi2, a, b, c, d⟩ := elemAt_haarInv x hr hc hi hj
  simp only [id, lo1, lo2, hi1, hi2, a, b, c, d, inverseBlockFinite, List.forall_mem_cons, List.not_mem_nil, false_imp_iff,
    implies_true, and_true]
  exact iff_of_eq (by ac_rfl)

/-! #### FWD and INV on MAT -/

/-- Legal dimensions are even (43_haar.md R250). -/
theorem State.even_of_legalDims {s : State} (h : s.legalDims = true) : s.rowCount % 2 = 0 ∧ s.colCount % 2 = 0 := by
  obtain ⟨⟨hr, hc, -, -⟩, -⟩ := s.legalDims_iff.1 h
  exact ⟨hr, hc⟩

/-- MAT before a transform, by row and column. -/
theorem elemAt_matrix_eq_elem (s : State) {r c : Nat} (hr : r < s.rowCount) (hc : c < s.colCount) :
    elemAt s.colCount s.matrix r c = elem s r c := s.elemAt_matrix hr hc

section
variable (s : State) {y : Array F64} (xf : Bool)

/-- MAT after a transform, by row and column. -/
theorem elem_setMatrix (hy : y.size = s.rowCount * s.colCount) {r c : Nat} (hr : r < s.rowCount) (hc : c < s.colCount) :
    elem ((s.setMatrix y).setXf xf).succeed r c = elemAt s.colCount y r c :=
  (s.matAt_setMatrix y (r * s.colCount + c)).trans (if_pos (hy ▸ rowMajor_lt hr hc))

/-- MAT past the matrix is as before a transform. -/
theorem matAt_setMatrix_past (hy : y.size = s.rowCount * s.colCount) {e : Nat} (he : s.rowCount * s.colCount ≤ e) :
    ((s.setMatrix y).setXf xf).succeed.matAt e = s.matAt e :=
  (s.matAt_setMatrix y e).trans (if_neg (by omega))

end

/-- FWD's numeric condition on MAT (43_haar.md R254, R255). -/
theorem haarFwdOK_matrix_iff {s : State} (hdims : s.legalDims = true) :
    haarFwdOK s.rowCount s.colCount s.matrix = true ↔ forwardFinite s := by
  obtain ⟨hr, hc⟩ := s.even_of_legalDims hdims
  rw [haarFwdOK_iff hr hc s.size_matrix]
  refine forall₄_congr fun i j hi hj => ?_
  rw [elemAt_matrix_eq_elem s (by omega) (by omega), elemAt_matrix_eq_elem s (by omega) (by omega),
    elemAt_matrix_eq_elem s (by omega) (by omega), elemAt_matrix_eq_elem s (by omega) (by omega)]

/-- INV's numeric condition on MAT (43_haar.md R254, R256). -/
theorem haarInvOK_matrix_iff {s : State} (hdims : s.legalDims = true) :
    haarInvOK s.rowCount s.colCount s.matrix = true ↔ inverseFinite s := by
  obtain ⟨hr, hc⟩ := s.even_of_legalDims hdims
  rw [haarInvOK_iff hr hc s.size_matrix]
  refine forall₄_congr fun i j hi hj => ?_
  rw [elemAt_matrix_eq_elem s (by omega) (by omega), elemAt_matrix_eq_elem s (by omega) (by omega),
    elemAt_matrix_eq_elem s (by omega) (by omega), elemAt_matrix_eq_elem s (by omega) (by omega)]

/-- Settles O20: the checks in their order, and the sub-bands of each block by `elemAt_haarFwd`. -/
theorem fwdComputesTheFourSubBands : Obligations.FwdComputesTheFourSubBands := by
  intro s
  refine ⟨fun hxf => ?_, fun hxf hdims => ?_, fun hxf hdims hfin => ?_, fun hxf hdims hfin => ?_⟩
  · exact exec_of_error (if_pos hxf)
  · exact exec_of_error (by simp [runOf, runFwd, hxf, hdims])
  · rw [← haarFwdOK_matrix_iff hdims, Bool.not_eq_true] at hfin
    exact exec_of_error (by simp [runOf, runFwd, hxf, hdims, hfin])
  have hok := (haarFwdOK_matrix_iff hdims).2 hfin
  refine ⟨_, exec_of_ok (runFwd_eq_ok.2 ⟨hxf, hdims, hok, rfl⟩), rfl,
    fun e he => matAt_setMatrix_past s true (size_haarFwd ..) he, fun i j hi hj => ?_⟩
  obtain ⟨hr, hc⟩ := s.even_of_legalDims hdims
  obtain ⟨-, -, -, -, hbands⟩ := elemAt_haarFwd s.matrix hr hc hi hj
  simpa (disch := omega) only [elem_setMatrix s true (size_haarFwd ..), elemAt_matrix_eq_elem] using hbands

/-- Settles O21: the checks in their order, and the samples of each block by `elemAt_haarInv`. -/
theorem invRebuildsTheSamples : Obligations.InvRebuildsTheSamples := by
  intro s
  refine ⟨fun hxf => ?_, fun hxf hdims => ?_, fun hxf hdims hfin => ?_, fun hxf hdims hfin => ?_⟩
  · exact exec_of_error (by simp [runOf, runInv, hxf])
  · exact exec_of_error (by simp [runOf, runInv, hxf, hdims])
  · rw [← haarInvOK_matrix_iff hdims, Bool.not_eq_true] at hfin
    exact exec_of_error (by simp [runOf, runInv, hxf, hdims, hfin])
  have hok := (haarInvOK_matrix_iff hdims).2 hfin
  refine ⟨_, exec_of_ok (runInv_eq_ok.2 ⟨hxf, hdims, hok, rfl⟩), rfl,
    fun e he => matAt_setMatrix_past s false (size_haarInv ..) he, fun i j hi hj => ?_⟩
  obtain ⟨hr, hc⟩ := s.even_of_legalDims hdims
  obtain ⟨-, -, -, -, hsamples⟩ := elemAt_haarInv s.matrix hr hc hi hj
  simpa (disch := omega) only [elem_setMatrix s false (size_haarInv ..), elemAt_matrix_eq_elem] using hsamples

/-! #### Integers survive the two transforms (43_haar.md section 4) -/

/-- `x` is finite and denotes `n` quarters: in a block of integers every sample, intermediate and sub-band is a whole number of
them. -/
structure DenotesQuarters (x : F64) (n : Int) : Prop where
  finite : f64Finite x = true
  value : f64Int x = n * 2 ^ 1072

section
variable {x y : F64} {m n : Int}

/-- An integer is four times as many quarters; `f64Int` is in units of 2^-1074. -/
theorem denotesQuarters_of_integer (hfin : f64Finite x = true) (hx : f64Int x = n * 2 ^ 1074) :
    DenotesQuarters x (4 * n) := by
  refine ⟨hfin, hx.trans ?_⟩
  rw [show 1074 = 1072 + 2 by rfl, pow_add, Int.mul_comm 4 n, Int.mul_assoc, Int.mul_comm 4]
  rfl

theorem DenotesQuarters.of_eq (hx : DenotesQuarters x m) (h : m = n) : DenotesQuarters x n := h ▸ hx

theorem DenotesQuarters.add (hx : DenotesQuarters x m) (hy : DenotesQuarters y n) (h : (m + n).natAbs ≤ 2 ^ 53) :
    DenotesQuarters (f64Add x y) (m + n) := by
  have hsum : f64Int x + f64Int y = (m + n) * 2 ^ 1072 := by rw [hx.value, hy.value, Int.add_mul]
  obtain ⟨hfin, hval⟩ := f64Add_exact hx.finite hy.finite hsum h (by decide)
  exact ⟨hfin, hval.trans hsum⟩

theorem DenotesQuarters.sub (hx : DenotesQuarters x m) (hy : DenotesQuarters y n) (h : (m - n).natAbs ≤ 2 ^ 53) :
    DenotesQuarters (f64Sub x y) (m - n) := by
  have hdiff : f64Int x - f64Int y = (m - n) * 2 ^ 1072 := by rw [hx.value, hy.value, Int.sub_mul]
  obtain ⟨hfin, hval⟩ := f64Sub_exact hx.finite hy.finite hdiff h (by decide)
  exact ⟨hfin, hval.trans hdiff⟩

theorem DenotesQuarters.half (hx : DenotesQuarters x m) (hm : m = 2 * n) (h : n.natAbs ≤ 2 ^ 53) :
    DenotesQuarters (f64Half x) n := by
  have htwice : f64Int x = 2 * (n * 2 ^ 1072) := by rw [hx.value, hm, Int.mul_assoc]
  obtain ⟨hfin, hval⟩ := f64Half_exact hx.finite htwice h (by decide)
  exact ⟨hfin, Int.eq_of_mul_eq_mul_left two_ne_zero (hval.trans htwice)⟩

end

/-- `x` is finite and denotes the integer `n` of magnitude at most 2^49 (43_haar.md R257). -/
structure DenotesSmall (x : F64) (n : Int) : Prop where
  small : n.natAbs ≤ 2 ^ 49
  quarters : DenotesQuarters x (4 * n)

/-- The sub-bands of a block of integers `p`, `q` above `r`, `t` of magnitude at most 2^49, in quarters. -/
structure SubBandsOf (ll lh hl hh : F64) (p q r t : Int) : Prop where
  small : p.natAbs ≤ 2 ^ 49 ∧ q.natAbs ≤ 2 ^ 49 ∧ r.natAbs ≤ 2 ^ 49 ∧ t.natAbs ≤ 2 ^ 49
  ll : DenotesQuarters ll (p + q + r + t)
  lh : DenotesQuarters lh (p - q + r - t)
  hl : DenotesQuarters hl (p + q - r - t)
  hh : DenotesQuarters hh (p - q - r + t)

section
variable {p q r t : Int}

/-- The forward transform of a block of integers up to 2^49 rounds nothing: every quarter count stays below 2^53. -/
theorem forwardBlock_of_small {a b c d : F64}
    (h : (DenotesSmall a p ∧ DenotesSmall b q) ∧ DenotesSmall c r ∧ DenotesSmall d t) :
    forwardBlockFinite a b c d
      ∧ SubBandsOf (f64Half (f64Add (f64Half (f64Add a b)) (f64Half (f64Add c d))))
        (f64Half (f64Add (f64Half (f64Sub a b)) (f64Half (f64Sub c d))))
        (f64Half (f64Sub (f64Half (f64Add a b)) (f64Half (f64Add c d))))
        (f64Half (f64Sub (f64Half (f64Sub a b)) (f64Half (f64Sub c d)))) p q r t := by
  obtain ⟨⟨⟨hp, ha⟩, hq, hb⟩, ⟨hr, hc⟩, ht, hd⟩ := h
  have lo1 := (ha.add hb (by omega)).half (n := 2 * p + 2 * q) (by omega) (by omega)
  have hi1 := (ha.sub hb (by omega)).half (n := 2 * p - 2 * q) (by omega) (by omega)
  have lo2 := (hc.add hd (by omega)).half (n := 2 * r + 2 * t) (by omega) (by omega)
  have hi2 := (hc.sub hd (by omega)).half (n := 2 * r - 2 * t) (by omega) (by omega)
  have ll := (lo1.add lo2 (by omega)).half (n := p + q + r + t) (by omega) (by omega)
  have lh := (hi1.add hi2 (by omega)).half (n := p - q + r - t) (by omega) (by omega)
  have hl := (lo1.sub lo2 (by omega)).half (n := p + q - r - t) (by omega) (by omega)
  have hh := (hi1.sub hi2 (by omega)).half (n := p - q - r + t) (by omega) (by omega)
  refine ⟨?_, ⟨hp, hq, hr, ht⟩, ll, lh, hl, hh⟩
  simp [forwardBlockFinite, ha.finite, hb.finite, hc.finite, hd.finite, lo1.finite, hi1.finite, lo2.finite, hi2.finite,
    ll.finite, lh.finite, hl.finite, hh.finite]

/-- The inverse transform of the sub-bands of such a block rounds nothing, and gives the block back. -/
theorem inverseBlock_of_small {ll lh hl hh : F64} (h : SubBandsOf ll lh hl hh p q r t) :
    inverseBlockFinite ll lh hl hh
      ∧ (DenotesSmall (f64Add (f64Add ll hl) (f64Add lh hh)) p ∧ DenotesSmall (f64Sub (f64Add ll hl) (f64Add lh hh)) q)
      ∧ DenotesSmall (f64Add (f64Sub ll hl) (f64Sub lh hh)) r ∧ DenotesSmall (f64Sub (f64Sub ll hl) (f64Sub lh hh)) t := by
  obtain ⟨⟨hp, hq, hr, ht⟩, hll, hlh, hhl, hhh⟩ := h
  have lo1 := hll.add hhl (by omega)
  have lo2 := hll.sub hhl (by omega)
  have hi1 := hlh.add hhh (by omega)
  have hi2 := hlh.sub hhh (by omega)
  have a := lo1.add hi1 (by omega)
  have b := lo1.sub hi1 (by omega)
  have c := lo2.add hi2 (by omega)
  have d := lo2.sub hi2 (by omega)
  refine ⟨?_, ⟨⟨hp, ?_⟩, ⟨hq, ?_⟩⟩, ⟨hr, ?_⟩, ⟨ht, ?_⟩⟩
  · simp [inverseBlockFinite, hll.finite, hlh.finite, hhl.finite, hhh.finite, lo1.finite, lo2.finite, hi1.finite,
      hi2.finite, a.finite, b.finite, c.finite, d.finite]
  · exact a.of_eq (by ring)
  · exact b.of_eq (by ring)
  · exact c.of_eq (by ring)
  · exact d.of_eq (by ring)

end

/-- Element (r, c) of the matrix in MAT is the integer `n r c`, of magnitude at most 2^49 (43_haar.md R257). -/
def HoldsIntegers (s : State) (n : Nat → Nat → Int) : Prop :=
  ∀ r c, r < s.rowCount → c < s.colCount → DenotesSmall (elem s r c) (n r c)

/-- MAT holds the sub-bands of the matrix of integers `n`, block by block (43_haar.md R253). -/
def HoldsSubBandsOf (s : State) (n : Nat → Nat → Int) : Prop :=
  ∀ i j, i < s.rowCount / 2 → j < s.colCount / 2 →
    SubBandsOf (elem s i j) (elem s i (s.colCount / 2 + j)) (elem s (s.rowCount / 2 + i) j)
      (elem s (s.rowCount / 2 + i) (s.colCount / 2 + j)) (n (2 * i) (2 * j)) (n (2 * i) (2 * j + 1)) (n (2 * i + 1) (2 * j))
      (n (2 * i + 1) (2 * j + 1))

section
variable {s : State} {n : Nat → Nat → Int}

/-- FWD on a matrix of integers succeeds, with their sub-bands in MAT. -/
theorem HoldsIntegers.fwd (h : HoldsIntegers s n) (hxf : s.status.xf = false) (hdims : s.legalDims = true) :
    ∃ t, exec .fwd s = .next t
      ∧ t = { s with mat := t.mat, inflight := none, status := { doneStatus s with xf := true } }
      ∧ HoldsSubBandsOf t n := by
  obtain ⟨hr, hc⟩ := s.even_of_legalDims hdims
  have hblock := ((fallsIntoPairs_neighbours hr).blocks (fallsIntoPairs_neighbours hc) fun r c =>
    DenotesSmall (elem s r c) (n r c)).1 h
  have hfwd := fun i j hi hj => forwardBlock_of_small (hblock i j hi hj)
  obtain ⟨-, -, -, hsucceeds⟩ := fwdComputesTheFourSubBands s
  obtain ⟨t, hexec, hframe, -, hbands⟩ := hsucceeds hxf hdims fun i j hi hj => (hfwd i j hi hj).1
  refine ⟨t, hexec, hframe, ?_⟩
  have hrows : t.rowCount = s.rowCount := by rw [hframe]; rfl
  have hcols : t.colCount = s.colCount := by rw [hframe]; rfl
  intro i j hi hj
  rw [hrows] at hi ⊢
  rw [hcols] at hj ⊢
  obtain ⟨ll, lh, hl, hh⟩ := hbands i j hi hj
  rw [ll, lh, hl, hh]
  exact (hfwd i j hi hj).2

/-- INV on the sub-bands of a matrix of integers succeeds, with the integers in MAT. -/
theorem HoldsSubBandsOf.inv (h : HoldsSubBandsOf s n) (hxf : s.status.xf = true) (hdims : s.legalDims = true) :
    ∃ t, exec .inv s = .next t
      ∧ t = { s with mat := t.mat, inflight := none, status := { doneStatus s with xf := false } }
      ∧ HoldsIntegers t n := by
  obtain ⟨hr, hc⟩ := s.even_of_legalDims hdims
  have hinv := fun i j hi hj => inverseBlock_of_small (h i j hi hj)
  obtain ⟨-, -, -, hsucceeds⟩ := invRebuildsTheSamples s
  obtain ⟨t, hexec, hframe, -, hsamples⟩ := hsucceeds hxf hdims fun i j hi hj => (hinv i j hi hj).1
  refine ⟨t, hexec, hframe, ?_⟩
  have hrows : t.rowCount = s.rowCount := by rw [hframe]; rfl
  have hcols : t.colCount = s.colCount := by rw [hframe]; rfl
  unfold HoldsIntegers
  rw [hrows, hcols]
  refine ((fallsIntoPairs_neighbours hr).blocks (fallsIntoPairs_neighbours hc) _).2 fun i j hi hj => ?_
  obtain ⟨a, b, c, d⟩ := hsamples i j hi hj
  rw [a, b, c, d]
  exact (hinv i j hi hj).2

end

/-- Settles O22: in each block the sub-bands are whole quarters below 2^53, so neither transform rounds, and the sums and
differences of INV give the samples back. -/
theorem integerMatrixSurvivesFwdThenInv : Obligations.IntegerMatrixSurvivesFwdThenInv := by
  intro s ⟨herr, hcode⟩ hxf hdims hints
  obtain ⟨n, hn⟩ : ∃ n, HoldsIntegers s n := by
    have helem := forall_place_iff.1 hints
    choose! n hn using fun r c hr hc => (helem r c hr hc).2
    exact ⟨n, fun r c hr hc => ⟨(hn r c hr hc).1, denotesQuarters_of_integer (helem r c hr hc).1 (hn r c hr hc).2⟩⟩
  obtain ⟨t, hfwd, htframe, hbands⟩ := hn.fwd hxf hdims
  obtain ⟨u, hinv, huframe, hu⟩ := hbands.inv (by rw [htframe]) (by rw [htframe]; exact hdims)
  refine ⟨t, u, hfwd, hinv, ?_, ?_, forall_place_iff.2 fun r c hr hc => ?_⟩
  · rw [htframe]
    exact ⟨rfl, herr, hcode⟩
  · rw [huframe, htframe]
    exact ⟨rfl, herr, hcode⟩
  · have hcols : u.colCount = s.colCount := by rw [huframe, htframe]; rfl
    have hrows : u.rowCount = s.rowCount := by rw [huframe, htframe]; rfl
    obtain ⟨-, hfin, hvalue⟩ := hu r c (hrows ▸ hr) (hcols ▸ hc)
    rw [elem, hcols] at hfin hvalue
    exact ⟨hfin, hvalue.trans (hn r c hr hc).quarters.value.symm⟩

/-! #### The conditions of the pipeline commands and the order of their checks -/

/-- A positive binary64 is a finite one that denotes a positive number (44_qim.md R281). -/
theorem f64Positive_iff (x : F64) : f64Positive x = true ↔ f64Finite x = true ∧ 0 < f64Int x := by
  simp only [f64Positive, Bool.and_eq_true, Bool.not_eq_true', bne_iff_ne, and_assoc, and_congr_right_iff]
  intro _
  cases hneg : f64Neg x <;> simp [f64Int, hneg]

/-- `cfgLegal`, condition by condition (45_frame_mux.md R311). -/
theorem State.cfgLegal_iff (s : State) :
    s.cfgLegal = true ↔ s.qLegal = true ∧ 1 ≤ s.repCount ∧ s.status.seedValid = true := by
  simp only [State.cfgLegal, Bool.and_eq_true, bne_iff_ne, and_assoc, Nat.one_le_iff_ne_zero]

/-- The checks of an embedding or an extracting command before it reads a coefficient. -/
def pipelineCheck (embedding : Bool) (s : State) (xf : Bool) : Option ErrCode :=
  if embedding then embedCheck s xf else extractCheck s xf

/-- The four pipeline commands, each with the transform state it needs and whether it embeds (45_frame_mux.md R317 to R320). -/
def pipelineCommands : List (Instr × Bool × Bool) :=
  [(.embed, true, true), (.embedf, false, true), (.extract, true, false), (.extractf, false, false)]

/-- A pipeline command whose checks find an error completes with it. -/
theorem exec_of_pipelineCheck {i : Instr} {xf embedding : Bool} {s : State} {c : ErrCode}
    (hi : (i, xf, embedding) ∈ pipelineCommands) (h : pipelineCheck embedding s xf = some c) : exec i s = failedWith s c := by
  refine exec_of_error ?_
  simp only [pipelineCommands, List.mem_cons, List.not_mem_nil, or_false, Prod.mk.injEq] at hi
  obtain ⟨rfl, rfl, rfl⟩ | ⟨rfl, rfl, rfl⟩ | ⟨rfl, rfl, rfl⟩ | ⟨rfl, rfl, rfl⟩ := hi
  · rw [runOf, runEmbed, show embedCheck s true = some c from h]
  · rw [runOf, runEmbedf, show embedCheck s false = some c from h]
  · rw [runOf, runExtract, show extractCheck s true = some c from h]
  · rw [runOf, runExtractf, show extractCheck s false = some c from h]

/-- The two lists of checks are one, with the length of the shortest frame and, for an embedding, RANGE at the end
(60_exceptions.md R353). -/
theorem pipelineCheck_eq (embedding : Bool) (s : State) (xf : Bool) :
    pipelineCheck embedding s xf =
      if s.status.xf ≠ xf then some .sequence
      else if s.legalDims = false then some .dimension
      else if s.cfgLegal = false then some .config
      else if s.capbits < (if embedding then 32 + 8 * s.payloadLen else 32) then some .capacity
      else if embedding = true ∧ s.params.bmax < s.payloadLen then some .range
      else none := by
  cases embedding <;> simp [pipelineCheck, embedCheck, extractCheck, frameLen]

/-- Settles O32: the conditions as numbers, and the first check that fails gives the code. -/
theorem pipelineChecksInOrder : Obligations.PipelineChecksInOrder := by
  refine ⟨fun s => ⟨?_, f64Positive_iff s.q, s.cfgLegal_iff⟩, fun s i xf embedding hi => ?_⟩
  · simpa only [and_assoc] using s.legalDims_iff
  have hfails : ∀ {c}, pipelineCheck embedding s xf = some c → exec i s = failedWith s c := exec_of_pipelineCheck hi
  rw [pipelineCheck_eq] at hfails
  refine ⟨fun hxf => hfails ?_, fun hxf hdims => hfails ?_, fun hxf hdims hcfg => hfails ?_,
    fun hxf hdims hcfg hcap => hfails ?_, fun hembed hxf hdims hcfg hcap hlen => hfails ?_⟩
  · rw [if_pos hxf]
  · simp [hxf, hdims]
  · simp [hxf, hdims, hcfg]
  · simp [hxf, hdims, hcfg, hcap]
  · simp [hembed, hxf, hdims, hcfg, hlen, Nat.not_lt.2 hcap]

end Sys2Proof.Machine

/-! ### The QIM engine (44_qim.md R280 to R290) -/

namespace Sys2Proof.Machine

open Sys2Proof.Claims

/-! #### The limits of the scaled value -/

/-- The magnitude of a value is its absolute value. -/
theorem abs_f64Int (x : F64) : |f64Int x| = f64Mag x := by rw [← Int.natCast_natAbs, f64Int_natAbs]

/-- The scaled value exists inside the limits (44_qim.md R282). -/
theorem scaled_of_inside {c q : F64} (hc : f64Finite c = true) (ht : f64Finite (f64Div c q) = true)
    (hlt : |f64Int (f64Div c q)| < (2 ^ 48 : Int) * 2 ^ 1074) : scaled c q = some (f64Div c q) := by
  rw [abs_f64Int] at hlt
  exact scaled_eq_some.2 ⟨rfl, hc, ht, by exact_mod_cast hlt⟩

/-- There is no scaled value exactly outside the limits (44_qim.md R282). -/
theorem scaled_eq_none {c q : F64} : scaled c q = none ↔ outsideLimits c q := by
  constructor
  · intro h
    by_contra hin
    simp only [outsideLimits, not_or, Bool.not_eq_false, not_le] at hin
    obtain ⟨hc, ht, hlt⟩ := hin
    rw [scaled_of_inside hc ht hlt] at h
    cases h
  · refine fun hout => Option.eq_none_iff_forall_ne_some.2 fun t h => ?_
    obtain ⟨rfl, hc, ht, hlt⟩ := scaled_eq_some.1 h
    obtain hc' | ht' | hle := hout
    · exact absurd (hc.symm.trans hc') (by decide)
    · exact absurd (ht.symm.trans ht') (by decide)
    · rw [abs_f64Int] at hle
      exact absurd hlt (Nat.not_lt.2 (by exact_mod_cast hle))

/-! #### Writing: the lattice index is the nearest of its parity -/

/-- R283: no integer of the bit's parity is nearer than the lattice index, and one as near is smaller: another one differs by 2
or more, and the value lies less than 1 above the index or at most 1 below it. -/
theorem latticeIndex_nearest (t : F64) (b : Bit) {j : Int} (hj : j % 2 = b.toNat) (hne : j ≠ latticeIndex t b) :
    |f64Int t - latticeIndex t b * 2 ^ 1074| ≤ |f64Int t - j * 2 ^ 1074|
      ∧ (|f64Int t - latticeIndex t b * 2 ^ 1074| = |f64Int t - j * 2 ^ 1074| → j < latticeIndex t b) := by
  obtain ⟨hpar, hlo, hhi⟩ := latticeIndex_spec t b
  have hp : (0 : Int) < 2 ^ 1074 := by positivity
  generalize latticeIndex t b = k at *
  generalize f64Int t = x at *
  generalize (2 : Int) ^ 1074 = p at *
  have hapart : j < k ∧ j * p + 2 * p ≤ k * p ∨ k * p + 2 * p ≤ j * p := by
    simp only [← add_mul]
    obtain hlt | hlt : j + 2 ≤ k ∨ k + 2 ≤ j := by omega
    · exact .inl ⟨by omega, Int.mul_le_mul_of_nonneg_right hlt hp.le⟩
    · exact .inr (Int.mul_le_mul_of_nonneg_right hlt hp.le)
  simp only [Int.abs_eq_natAbs]
  exact ⟨by omega, fun _ => by omega⟩

/-- R283: when a write fails. -/
theorem qimWrite_eq_none {c q : F64} {b : Bit} :
    qimWrite c b q = none ↔ outsideLimits c q ∨ 2 ^ 48 ≤ (latticeIndex (f64Div c q) b).natAbs
      ∨ f64Finite (f64Mul (f64OfInt (latticeIndex (f64Div c q) b)) q) = false := by
  rw [← scaled_eq_none]
  cases hs : scaled c q with
  | none => simp [qimWrite, hs]
  | some t =>
    obtain ⟨rfl, -⟩ := scaled_eq_some.1 hs
    simp [qimWrite, hs, or_iff_not_imp_left]

/-- Settles O24: what the index is by `latticeIndex_spec` and `latticeIndex_nearest`, and when and what a write returns by its
equations. -/
theorem qimWriteTakesTheNearestOfItsParity : Obligations.QimWriteTakesTheNearestOfItsParity := by
  intro c q b _ t k product
  obtain ⟨hpar, hlo, hhi⟩ := latticeIndex_spec t b
  refine ⟨hpar, abs_le.2 ⟨hlo, hhi.le⟩, fun j hj hne => latticeIndex_nearest t b hj hne, qimWrite_eq_none, fun c' hw => ?_⟩
  obtain ⟨_, hs, -, rfl, -⟩ := qimWrite_eq_some.1 hw
  obtain ⟨rfl, -⟩ := scaled_eq_some.1 hs
  rfl

/-! #### Reading -/

/-- An integer's lowest bit is its parity. -/
theorem toNat_ofInt_one (k : Int) : ((BitVec.ofInt 1 k).toNat : Int) = k % 2 := by
  rw [BitVec.toNat_ofInt]
  omega

/-- The lowest bit of an integer of the parity of `b` is `b`. -/
theorem ofInt_eq_of_emod {k : Int} {b : Bit} (h : k % 2 = b.toNat) : BitVec.ofInt 1 k = b :=
  BitVec.eq_of_toNat_eq (by have := toNat_ofInt_one k; omega)

/-- R284: a coefficient reads as the parity of the integer nearest to its scaled value. -/
theorem qimRead_of_scaled {c q t : F64} (h : scaled c q = some t) :
    qimRead c q = some (BitVec.ofInt 1 (f64NearestInt t)) := by
  refine qimRead_eq_some.2 ⟨t, h, ofInt_eq_of_emod ?_⟩
  have hmod := posMod_two (f64NearestInt t)
  rw [BitVec.toNat_ofNat]
  omega

/-- R284: when a read fails. -/
theorem qimRead_eq_none {c q : F64} : qimRead c q = none ↔ outsideLimits c q := by
  rw [← scaled_eq_none]
  cases hs : scaled c q with
  | none => simp [qimRead, hs]
  | some t => simp [qimRead_of_scaled hs]

/-- R286: a scaled value within one half of a small integer reads as its parity. -/
theorem qimRead_of_near {c q : F64} {k : Int} (hc : f64Finite c = true) (ht : f64Finite (f64Div c q) = true)
    (hk : k.natAbs < 2 ^ 48) (hlo : -(2 ^ 1074) ≤ 2 * (f64Int (f64Div c q) - k * 2 ^ 1074))
    (hhi : 2 * (f64Int (f64Div c q) - k * 2 ^ 1074) < 2 ^ 1074) : qimRead c q = some (BitVec.ofInt 1 k) := by
  have hlt : |f64Int (f64Div c q)| < (2 ^ 48 : Int) * 2 ^ 1074 := by
    have hp : (0 : Int) < 2 ^ 1074 := by positivity
    have hkp : -(2 ^ 48 - 1) ≤ k ∧ k ≤ 2 ^ 48 - 1 := by omega
    generalize (2 : Int) ^ 1074 = p at *
    rw [abs_lt]
    constructor <;> nlinarith
  rw [qimRead_of_scaled (scaled_of_inside hc ht hlt), f64NearestInt_eq hlo hhi]

/-- Settles O26: a read fails as its scaled value does, and near an integer it gives that integer's parity. -/
theorem qimReadIsRobust : Obligations.QimReadIsRobust :=
  fun _ _ _ => ⟨qimRead_eq_none, fun _ hc ht hk hlo hhi => qimRead_of_near hc ht hk hlo hhi⟩

/-! #### Reading after writing -/

/-- The rounded product of an integer and a magnitude is within 2^-53 of it: the exact product is a whole number of units. -/
theorem f64Round_product_rel (neg : Bool) (n m : Nat) (h : f64Finite (f64Round neg (n * 2 ^ 1074 * m) (2 ^ 1074)) = true) :
    |(n * m : Int) - f64Mag (f64Round neg (n * 2 ^ 1074 * m) (2 ^ 1074))| * 2 ^ 53 ≤ n * m := by
  have hrel := f64Round_rel neg (n * 2 ^ 1074 * m) (by positivity) h
    (.inr ⟨n * m, by rw [Nat.mul_right_comm, Nat.mul_comm]⟩)
  generalize f64Mag _ = x at *
  have hp : (0 : Int) < (2 ^ 1074 : Nat) := by positivity
  generalize 2 ^ 1074 = p at *
  have hfactor : ((n * p * m : Nat) : Int) - p * x = p * (n * m - x) := by push_cast; ring
  rw [hfactor, abs_mul, abs_of_pos hp] at hrel
  push_cast at hrel
  exact le_of_mul_le_mul_left (by linarith) hp

/-- Two roundings in turn, each off by at most 2^-53 of its number, from the product `c` to `b` and on to `a`: below 2^48 places
of size `r` they stay within one half of a place (44_qim.md R285). -/
theorem abs_sub_lt_of_two_roundings {a b c r : Int} (hr : 0 < r) (hc : c ≤ (2 ^ 48 - 1) * r)
    (hcb : |c - b| * 2 ^ 53 ≤ c) (hba : |b - a| * 2 ^ 53 ≤ b) : 2 * |a - c| < r := by
  simp only [Int.abs_eq_natAbs] at *
  omega

section
variable {n m x : Nat} (hx : |(n * m : Int) - x| * 2 ^ 53 ≤ n * m)
include hx

/-- A number within 2^-53 of `n * m` is no more than twice and no less than half of it. -/
theorem bounds_of_product_rel : x ≤ 2 * (n * m) ∧ n * m ≤ 2 * x := by
  rw [← Nat.cast_mul, Int.abs_eq_natAbs] at hx
  omega

variable (hm : 0 < m) (hn : n < 2 ^ 48) (neg : Bool)
include hm hn

/-- The quotient by `m` of a number within 2^-53 of `n * m` does not overflow, for n below 2^48. -/
theorem f64Round_quotient_finite : f64Finite (f64Round neg (x * 2 ^ 1074) m) = true := by
  by_contra hinf
  rw [Bool.not_eq_true, f64Finite_round_eq_false_iff neg _ hm, Nat.mul_right_comm] at hinf
  have hlarge := Nat.le_of_mul_le_mul_right hinf (by positivity)
  have hsmall : n * m ≤ (2 ^ 48 - 1) * m := Nat.mul_le_mul_right m (by omega)
  have hthreshold : 2 ^ 49 * m ≤ (2 ^ 1024 - 2 ^ 970) * m := Nat.mul_le_mul_right m (by decide +kernel)
  have hxle := (bounds_of_product_rel hx).1
  omega

/-- The rounding of the quotient is off by at most 2^-53 of it: the number is 0, or it has 2^52 units of the quotient. -/
theorem f64Round_quotient_rel :
    |(x * 2 ^ 1074 : Int) - m * f64Mag (f64Round neg (x * 2 ^ 1074) m)| * 2 ^ 53 ≤ x * 2 ^ 1074 := by
  obtain ⟨hxle, hlex⟩ := bounds_of_product_rel hx
  have hunits : m * 2 ^ 52 ≤ x * 2 ^ 1074 ∨ m ∣ x * 2 ^ 1074 := by
    obtain rfl | hn0 := Nat.eq_zero_or_pos n
    · obtain rfl : x = 0 := by omega
      exact .inr ⟨0, Nat.zero_mul _⟩
    · have hmx : m ≤ n * m := Nat.le_mul_of_pos_left m hn0
      exact .inl (calc m * 2 ^ 52 ≤ x * 2 ^ 53 := by omega
        _ ≤ x * 2 ^ 1074 := Nat.mul_le_mul_left x (pow_le_pow_right₀ (by omega) (by omega)))
  have hrel := f64Round_rel neg (x * 2 ^ 1074) hm (f64Round_quotient_finite hx hm hn neg) hunits
  rwa [Nat.cast_mul, Nat.cast_pow] at hrel

/-- The quotient, rounded, is within one half of `n`. -/
theorem f64Round_quotient_near :
    2 * |(f64Mag (f64Round neg (x * 2 ^ 1074) m) : Int) - n * 2 ^ 1074| < 2 ^ 1074 := by
  have hrel := f64Round_quotient_rel hx hm hn neg
  have hp : (0 : Int) < 2 ^ 1074 := by positivity
  generalize f64Mag _ = y at *
  generalize (2 : Int) ^ 1074 = p at *
  have hm' : (0 : Int) < m := by exact_mod_cast hm
  have hsmall : n * m * p ≤ (2 ^ 48 - 1) * (m * p) := by
    rw [mul_assoc]
    exact mul_le_mul_of_nonneg_right (by omega) (mul_pos hm' hp).le
  have hproduct : |n * m * p - x * p| * 2 ^ 53 ≤ n * m * p := by
    rw [← sub_mul, abs_mul, abs_of_pos hp, mul_right_comm]
    exact mul_le_mul_of_nonneg_right hx hp.le
  have hnear := abs_sub_lt_of_two_roundings (mul_pos hm' hp) hsmall hproduct hrel
  have hfactor : (m : Int) * y - n * m * p = m * (y - n * p) := by ring
  rw [hfactor, abs_mul, abs_of_pos hm', mul_left_comm] at hnear
  exact lt_of_mul_lt_mul_left hnear hm'.le

end

/-- A positive binary64, by its fields (44_qim.md R281). -/
theorem f64Positive_fields {q : F64} (hq : f64Positive q = true) :
    f64Finite q = true ∧ f64Neg q = false ∧ f64Mag q ≠ 0 := by
  simpa [f64Positive, and_assoc] using hq

/-- An integer times a positive q, by magnitudes. -/
theorem f64Mul_ofInt {q : F64} {k : Int} (hq : f64Positive q = true) (hk : k.natAbs < 2 ^ 48) :
    f64Mul (f64OfInt k) q = f64Round (decide (k < 0)) (k.natAbs * 2 ^ 1074 * f64Mag q) (2 ^ 1074) := by
  obtain ⟨hqfin, hqneg, -⟩ := f64Positive_fields hq
  obtain ⟨hfin, hmag⟩ : f64Finite (f64OfInt k) = true ∧ f64Mag (f64OfInt k) = k.natAbs * 2 ^ 1074 :=
    f64Round_exact _ Nat.one_pos (Nat.one_mul _).symm (by omega) (by omega)
  have hneg : f64Neg (f64OfInt k) = decide (k < 0) := f64Neg_round ..
  rw [f64Mul, hfin, hqfin, Bool.and_self, if_pos rfl, hmag, hneg, hqneg, Bool.bne_false]

/-- A finite value divided by a positive q, by magnitudes. -/
theorem f64Div_positive {c q : F64} (hc : f64Finite c = true) (hq : f64Positive q = true) :
    f64Div c q = f64Round (f64Neg c) (f64Mag c * 2 ^ 1074) (f64Mag q) := by
  obtain ⟨hqfin, hqneg, hqmag⟩ := f64Positive_fields hq
  rw [f64Div, hc, hqfin, bne_iff_ne.2 hqmag, Bool.and_self, Bool.and_self, if_pos rfl, hqneg, Bool.bne_false]

/-- How far a value is from a multiple of its own sign, by magnitudes. -/
theorem abs_f64Int_sub {x : F64} {k : Int} (h : f64Neg x = decide (k < 0)) (p : Int) :
    |f64Int x - k * p| = |f64Mag x - k.natAbs * p| := by
  rw [f64Int_eq, h, Int.natCast_natAbs]
  by_cases hk : k < 0
  · rw [decide_eq_true hk, if_pos rfl, abs_of_neg hk, ← abs_neg]
    ring_nf
  · rw [decide_eq_false hk, if_neg Bool.false_ne_true, abs_of_nonneg (Int.not_lt.1 hk)]

/-- R285: the coefficient written for an integer below 2^48, divided by q again, is finite and within one half of the integer. -/
theorem f64Div_mul_near {q : F64} {k : Int} (hq : f64Positive q = true) (hk : k.natAbs < 2 ^ 48)
    (hfin : f64Finite (f64Mul (f64OfInt k) q) = true) :
    f64Finite (f64Div (f64Mul (f64OfInt k) q) q) = true
      ∧ 2 * |f64Int (f64Div (f64Mul (f64OfInt k) q) q) - k * 2 ^ 1074| < 2 ^ 1074 := by
  have hmag : 0 < f64Mag q := Nat.pos_of_ne_zero (f64Positive_fields hq).2.2
  rw [f64Div_positive hfin hq]
  rw [f64Mul_ofInt hq hk] at hfin ⊢
  have hx := f64Round_product_rel _ _ _ hfin
  rw [abs_f64Int_sub (by rw [f64Neg_round, f64Neg_round])]
  exact ⟨f64Round_quotient_finite hx hmag hk _, f64Round_quotient_near hx hmag hk _⟩

/-- Settles O25: the coefficient is a product with a small integer of parity b, so its scaled value is near that integer, and it
reads as the integer's parity. -/
theorem qimReadAfterWrite : Obligations.QimReadAfterWrite := by
  intro c q c' b hq hw
  obtain ⟨t, -, hk, rfl, hfin⟩ := qimWrite_eq_some.1 hw
  obtain ⟨hpar, -⟩ := latticeIndex_spec t b
  obtain ⟨ht, hnear⟩ := f64Div_mul_near hq hk hfin
  rw [Int.abs_eq_natAbs] at hnear
  rw [qimRead_of_near hfin ht hk (by omega) (by omega), ofInt_eq_of_emod hpar]

/-! #### The vote -/

/-- Every bit is 0 or 1. -/
theorem Bit.eq_zero_or_one (x : Bit) : x = 0 ∨ x = 1 := by decide +revert

/-- The zeros and the ones of a list of bits are all of it. -/
theorem count_zero_add_count_one (b : List Bit) : b.count 0 + b.count 1 = b.length := by
  induction b with
  | nil => rfl
  | cons x b ih =>
    obtain rfl | rfl := Bit.eq_zero_or_one x <;>
      rw [List.count_cons_self, List.count_cons_of_ne (by decide), List.length_cons] <;> omega

/-- R287: when the vote is 1. -/
theorem majority_eq_one {b : List Bit} : majority b = 1 ↔ b.length ≤ 2 * b.count 1 := by
  rw [majority_eq, Ne.ite_eq_left_iff (by decide)]

/-- R287: when the vote is 0. -/
theorem majority_eq_zero {b : List Bit} : majority b = 0 ↔ 2 * b.count 1 < b.length := by
  rw [majority_eq, Ne.ite_eq_right_iff (by decide), Nat.not_le]

/-- Settles O27: the laws of R290 from the two conditions of R287, counting zeros and ones. -/
theorem majorityVoteLaws : Obligations.MajorityVoteLaws := by
  refine ⟨fun b _ => ⟨majority_eq_one, majority_eq_zero⟩, fun n b hn => ?_, fun b x hodd hx => ?_, fun b heven hb => ?_⟩
  · obtain rfl | rfl := Bit.eq_zero_or_one b
    · exact majority_eq_zero.2 (by simpa [List.count_replicate] using hn)
    · exact majority_eq_one.2 (by simp; omega)
  · have hall := count_zero_add_count_one b
    obtain rfl | rfl := Bit.eq_zero_or_one x
    · exact majority_eq_zero.2 (by omega)
    · exact majority_eq_one.2 (by omega)
  · exact majority_eq_one.2 (by omega)

/-! #### QWRITE and QREAD -/

/-- The nearest integer as a quotient without the half (44_qim.md R284). -/
theorem f64NearestInt_eq_ediv (x : F64) : f64NearestInt x = (2 * f64Int x + 2 ^ 1074) / 2 ^ 1075 := by
  have h1074 : (2 : Int) ^ 1074 = 2 * 2 ^ 1073 := pow_succ' 2 1073
  rw [show (2 : Int) ^ 1075 = 2 * 2 ^ 1074 from pow_succ' 2 1074, h1074, ← mul_add, Int.mul_ediv_mul_of_pos _ _ two_pos, ← h1074,
    f64NearestInt]

/-- Settles O28: the checks in their order, and what `setCoef` writes. -/
theorem qwriteWritesTheCoefficient : Obligations.QwriteWritesTheCoefficient := by
  refine fun s => ⟨fun hq => exec_of_error ?_, fun hq hnone => exec_of_error ?_, fun c' hq hc' => ?_⟩
  · simp [runOf, runQwrite, hq]
  · simp [runOf, runQwrite, hq, hnone]
  · exact exec_of_ok (i := .qwrite) (runQwrite_eq_ok.2 ⟨hq, c', hc', rfl⟩)

/-- Settles O29: the checks in their order, and RESULT is the lowest bit of the integer nearest to the scaled value. -/
theorem qreadReadsTheParity : Obligations.QreadReadsTheParity := by
  refine fun s => ⟨fun hq => exec_of_error ?_, fun hq hnone => exec_of_error ?_, fun hq hc ht hlt => ?_⟩
  · simp [runOf, runQread, hq]
  · simp [runOf, runQread, hq, hnone]
  · have hread := qimRead_of_scaled (scaled_of_inside hc ht hlt)
    refine ⟨_, exec_of_ok (i := .qread) (runQread_eq_ok.2 ⟨hq, _, hread, rfl⟩), rfl, ?_⟩
    calc (((BitVec.ofInt 1 (f64NearestInt (f64Div s.coef s.q))).setWidth 32).toNat : Int)
        = f64NearestInt (f64Div s.coef s.q) % 2 := by rw [BitVec.toNat_setWidth_of_le (by decide), toNat_ofInt_one]
      _ = (2 * f64Int (f64Div s.coef s.q) + 2 ^ 1074) / 2 ^ 1075 % 2 := by rw [f64NearestInt_eq_ediv]

/-! #### The sites of a band -/

/-- The band that CTRL reads (10_state.md R34). -/
theorem State.readReg_ctrl_band (s : State) : (s.readReg .ctrl).extractLsb' 0 2 = s.ctrl.band.code := by
  refine BitVec.eq_of_getLsbD_eq fun i hi => ?_
  rw [BitVec.getLsbD_extractLsb', decide_eq_true hi, Bool.true_and, Nat.zero_add]
  exact (ctrl_layout _ _ i).trans (if_pos hi)

/-- The origin of each band, by its code (43_haar.md R253). -/
theorem bandOrigin_of_code {band : Band} {code : BitVec 2} {v h r0 c0 : Nat}
    (hmem : (code, r0, c0) ∈ [(0#2, 0, 0), (1#2, 0, h), (2#2, v, 0), (3#2, v, h)]) (hcode : band.code = code) :
    bandOrigin band v h = (r0, c0) := by
  subst hcode
  cases band <;> simpa [Band.code, bandOrigin, eq_comm] using hmem

/-- A band ends within twice its rows and twice its columns. -/
theorem bandOrigin_le (band : Band) (v h : Nat) : (bandOrigin band v h).1 ≤ v ∧ (bandOrigin band v h).2 ≤ h := by
  cases band <;> simp [bandOrigin]

section
variable {s : State} {a b : Nat}

/-- A site's row and column are those of the matrix (44_qim.md R280). -/
theorem State.siteAddr_place_lt (ha : a < s.nsites) :
    (bandOrigin s.ctrl.band (s.rowCount / 2) (s.colCount / 2)).1 + a / (s.colCount / 2) < s.rowCount
      ∧ (bandOrigin s.ctrl.band (s.rowCount / 2) (s.colCount / 2)).2 + a % (s.colCount / 2) < s.colCount := by
  obtain ⟨hr0, hc0⟩ := bandOrigin_le s.ctrl.band (s.rowCount / 2) (s.colCount / 2)
  have hrow : a / (s.colCount / 2) < s.rowCount / 2 := Nat.div_lt_of_lt_mul (by rwa [Nat.mul_comm])
  have hcol : a % (s.colCount / 2) < s.colCount / 2 :=
    Nat.mod_lt _ (Nat.pos_of_ne_zero fun h => by simp [State.nsites, h] at ha)
  omega

/-- A site lies within the matrix. -/
theorem State.siteAddr_lt (ha : a < s.nsites) : s.siteAddr a < s.rowCount * s.colCount := by
  obtain ⟨hr, hc⟩ := s.siteAddr_place_lt ha
  exact rowMajor_lt hr hc

/-- R280: sites of one element have one row and one column, and are one site. -/
theorem State.eq_of_siteAddr_eq (ha : a < s.nsites) (hb : b < s.nsites) (h : s.siteAddr a = s.siteAddr b) : a = b := by
  obtain ⟨-, hca⟩ := s.siteAddr_place_lt ha
  obtain ⟨-, hcb⟩ := s.siteAddr_place_lt hb
  have hrow := (rowMajor_div hca).symm.trans ((congrArg (· / s.colCount) h).trans (rowMajor_div hcb))
  have hcol := (rowMajor_mod hca).symm.trans ((congrArg (· % s.colCount) h).trans (rowMajor_mod hcb))
  rw [← Nat.div_add_mod a (s.colCount / 2), Nat.add_left_cancel hrow, Nat.add_left_cancel hcol, Nat.div_add_mod]

end

/-- Settles O30: the origin by the code that CTRL reads, and each site's row and column within the matrix. -/
theorem sitesAreDistinctElements : Obligations.SitesAreDistinctElements := by
  intro s h v
  refine ⟨fun code r0 c0 hmem hcode a => ?_, rfl, fun _ a b ha hb => ⟨s.siteAddr_lt ha, s.eq_of_siteAddr_eq ha hb⟩⟩
  have horigin := bandOrigin_of_code hmem (s.readReg_ctrl_band.symm.trans hcode)
  rw [State.siteAddr, State.rowCount, State.colCount, horigin]

end Sys2Proof.Machine

/-! ### The frame multiplexer (45_frame_mux.md R310 to R322) -/

namespace Sys2Proof.Machine

open Sys2Proof.Claims

/-! #### NSITES and CAPBITS -/

/-- NSITES fits a word: half a 16-bit number is at most 32767 (10_state.md R49). -/
theorem State.nsites_le (s : State) : s.nsites ≤ 32767 ^ 2 := by
  have hr : s.rowCount < 2 ^ 16 := s.regs.rows.isLt
  have hc : s.colCount < 2 ^ 16 := s.regs.cols.isLt
  rw [sq]
  exact Nat.mul_le_mul (by omega) (by omega)

theorem State.capbits_le_nsites (s : State) : s.capbits ≤ s.nsites := by
  unfold State.capbits
  split
  · exact Nat.zero_le _
  · exact Nat.div_le_self ..

theorem State.readReg_nsites_toNat (s : State) : (s.readReg .nsites).toNat = s.nsites :=
  (BitVec.toNat_ofNat ..).trans (Nat.mod_eq_of_lt (s.nsites_le.trans_lt (by decide)))

theorem State.readReg_capbits_toNat (s : State) : (s.readReg .capbits).toNat = s.capbits :=
  (BitVec.toNat_ofNat ..).trans (Nat.mod_eq_of_lt ((s.capbits_le_nsites.trans s.nsites_le).trans_lt (by decide)))

/-- Settles O42: both registers hold their numbers unwrapped, and the capacity is a quotient. -/
theorem derivedRegistersReadTheirFormulas : Obligations.DerivedRegistersReadTheirFormulas := by
  intro s
  rw [s.readReg_nsites_toNat, s.readReg_capbits_toNat]
  refine ⟨rfl, s.nsites_le, fun hzero => ?_, fun hreps => ?_⟩
  · have hreps : s.repCount = 0 := by rw [State.repCount, hzero]; rfl
    rw [State.readReg, State.capbits, if_pos hreps]
    rfl
  · have hreps : s.repCount ≠ 0 := Nat.one_le_iff_ne_zero.1 hreps
    exact ⟨if_neg hreps, fun f => s.fits_iff f hreps⟩

/-! #### The frame, bit by bit -/

/-- The number of a list of bits given place by place (41_bitbyte.md R203). -/
theorem bitsToNat_map_range (n : Nat) (bit : Nat → Bit) : bitsToNat ((List.range n).map bit) = msbFirst n bit := by
  rw [bitsToNat_eq_sum, List.length_map, List.length_range, msbFirst]
  refine Finset.sum_congr rfl fun i hi => ?_
  rw [List.getD_eq_getElem?_getD, List.getElem?_map, List.getElem?_range (Finset.mem_range.1 hi)]
  rfl

theorem msbFirst_congr {n : Nat} {f g : Nat → Bit} (h : ∀ i, i < n → f i = g i) : msbFirst n f = msbFirst n g :=
  Finset.sum_congr rfl fun i hi => by rw [h i (Finset.mem_range.1 hi)]

/-- The bits of a word denote the word (41_bitbyte.md R202). -/
theorem msbFirst_word (x : Word) : msbFirst 32 (fun i => x.extractLsb' (31 - i) 1) = x.toNat := by
  rw [← bitsToNat_map_range]
  exact (toNat_ofNat_bitsToNat (u32ToBits x) (length_u32ToBits x).le).symm.trans
    (congrArg BitVec.toNat (bitsToNat_u32ToBits x))

/-- The bits of a byte denote the byte (41_bitbyte.md R200). -/
theorem msbFirst_byte (x : Byte) : msbFirst 8 (fun i => x.extractLsb' (7 - i) 1) = x.toNat := by
  rw [← bitsToNat_map_range]
  exact (toNat_ofNat_bitsToNat (byteToBits x) (length_byteToBits x).le).symm.trans
    (congrArg BitVec.toNat (bitsToNat_byteToBits x))

theorem framedBit_header (s : State) {k : Nat} (h : k < 32) : framedBit s k = s.regs.len.extractLsb' (31 - k) 1 := if_pos h

theorem framedBit_payload (s : State) (j : Nat) {i : Nat} (h : i < 8) :
    framedBit s (32 + 8 * j + i) = (s.byteAt j).extractLsb' (7 - i) 1 := by
  have hdiv : (32 + 8 * j + i - 32) / 8 = j := by omega
  have hmod : (32 + 8 * j + i - 32) % 8 = i := by omega
  rw [framedBit, if_neg (by omega), hdiv, hmod]

/-- The frame of LEN and BYTE, bit by bit (45_frame_mux.md R310). -/
theorem getD_framed (s : State) {k : Nat} (h : k < frameLen s.payloadLen) : s.framed.getD k 0 = framedBit s k := by
  rw [List.getD_eq_getElem?_getD, State.framed]
  by_cases hk : k < 32
  · rw [getElem?_frameBits_header _ _ hk, framedBit_header s hk]
    rfl
  · obtain ⟨j, i, hj, hi, rfl⟩ : ∃ j i, j < s.payloadLen ∧ i < 8 ∧ k = 32 + 8 * j + i :=
      ⟨(k - 32) / 8, (k - 32) % 8, by rw [frameLen] at h; omega, by omega, by omega⟩
    rw [getElem?_frameBits_payload _ _ _ hi, s.getElem?_payload hj, framedBit_payload s j hi]
    rfl

/-- The header of a frame denotes LEN. -/
theorem msbFirst_framedBit_header (s : State) : msbFirst 32 (framedBit s) = s.payloadLen :=
  (msbFirst_congr fun _ hi => framedBit_header s hi).trans (msbFirst_word s.regs.len)

/-- Eight payload bits of a frame denote their byte. -/
theorem msbFirst_framedBit_payload (s : State) (j : Nat) :
    msbFirst 8 (fun i => framedBit s (32 + 8 * j + i)) = (s.byteAt j).toNat :=
  (msbFirst_congr fun _ hi => framedBit_payload s j hi).trans (msbFirst_byte (s.byteAt j))

/-! #### FRAME, and what an embedding commits beside MAT -/

/-- BIT after a frame is written from its start. -/
theorem State.bitAt_setFramed (s : State) {k : Nat} :
    (k < frameLen s.payloadLen → (s.setBits 0 s.framed).bitAt k = framedBit s k)
      ∧ (frameLen s.payloadLen ≤ k → (s.setBits 0 s.framed).bitAt k = s.bitAt k) := by
  have hbit := s.bitAt_setBits 0 s.framed k
  rw [s.length_framed, Nat.zero_add] at hbit
  exact ⟨fun hk => hbit.trans ((if_pos ⟨Nat.zero_le k, hk⟩).trans (getD_framed s hk)),
    fun hk => hbit.trans (if_neg fun hlt => Nat.not_lt.2 hk hlt.2)⟩

/-- Settles O31: RANGE is the only check, and the frame is written bit by bit. -/
theorem frameBuildsTheFramedBits : Obligations.FrameBuildsTheFramedBits := by
  refine fun s => ⟨fun hlarge => exec_of_error (if_pos hlarge), fun hfits => ?_⟩
  exact ⟨_, exec_of_ok (i := .frame) (runFrame_eq_ok.2 ⟨hfits, rfl⟩), rfl, fun _ => s.bitAt_setFramed.1,
    fun _ => s.bitAt_setFramed.2⟩

/-- PERM after the permutation of the sites is written (45_frame_mux.md R314). -/
theorem permWritten_setPerm (s : State) : permWritten s (s.setPerm s.sitePerm) := by
  refine ⟨fun k hk => ?_, fun k hk => ?_⟩
  · rw [s.permAt_setPerm, s.size_sitePerm, if_pos hk]
  · rw [s.permAt_setPerm, s.size_sitePerm, if_neg (Nat.not_lt.2 hk)]

/-- The state that an embedding leaves when it commits the matrix `y` and the frame of LEN and BYTE (45_frame_mux.md R317,
R319). -/
def State.embedded (s : State) (y : Array F64) : State := ((s.setMatrix y).setFrame s.framed).succeed

section
variable (s : State) (y : Array F64)

@[simp] theorem State.embedded_rowCount : (s.embedded y).rowCount = s.rowCount := rfl
@[simp] theorem State.embedded_colCount : (s.embedded y).colCount = s.colCount := rfl
@[simp] theorem State.embedded_regs :
    (s.embedded y).regs = { s.regs with bitlen := BitVec.ofNat 32 s.framed.length } := rfl
@[simp] theorem State.embedded_bytes : (s.embedded y).bytes = s.bytes := rfl
@[simp] theorem State.embedded_bits : (s.embedded y).bits = s.bits.writeRange 0 s.framed := rfl
@[simp] theorem State.embedded_perm :
    (s.embedded y).perm = s.perm.writeRange 0 (s.sitePerm.toList.map (BitVec.ofNat 32)) := rfl

@[simp] theorem extractBand_embedded (x : Array F64) : extractBand (s.embedded y) x = extractBand s x := rfl

theorem State.matAt_embedded (e : Nat) : (s.embedded y).matAt e = if e < y.size then y.getD e 0 else s.matAt e :=
  s.matAt_setMatrix y e

theorem State.matrix_embedded {y : Array F64} (hy : y.size = s.rowCount * s.colCount) : (s.embedded y).matrix = y :=
  s.matrix_setMatrix y hy

/-- What an embedding leaves beside MAT (45_frame_mux.md R317, R319). -/
theorem State.embedded_commits :
    s.embedded y = { s with
        mat := (s.embedded y).mat
        perm := (s.embedded y).perm
        bits := (s.embedded y).bits
        regs.bitlen := BitVec.ofNat 32 (32 + 8 * s.payloadLen)
        inflight := none
        status := doneStatus s }
      ∧ permWritten s (s.embedded y)
      ∧ (∀ k, k < 32 + 8 * s.payloadLen → (s.embedded y).bitAt k = framedBit s k)
      ∧ ∀ k, 32 + 8 * s.payloadLen ≤ k → (s.embedded y).bitAt k = s.bitAt k :=
  ⟨congrArg (fun n => ((((s.setMatrix y).setPerm s.sitePerm).setBits 0 s.framed).setBitlen n).succeed) s.length_framed,
    permWritten_setPerm s, fun _ => s.bitAt_setFramed.1, fun _ => s.bitAt_setFramed.2⟩

end

/-! #### The sites of the frame -/

/-- A frame that fits CAPBITS fits the sites (45_frame_mux.md R312). -/
theorem State.fits_of_cfgLegal {s : State} (hcfg : s.cfgLegal = true) {f : Nat} (h : f ≤ s.capbits) :
    f * s.repCount ≤ s.nsites := by
  obtain ⟨-, hreps, -⟩ := s.cfgLegal_iff.1 hcfg
  exact (s.fits_iff f (Nat.one_le_iff_ne_zero.1 hreps)).1 h

/-- A site of a frame that fits lies within the matrix (45_frame_mux.md R314). -/
theorem site_lt {s : State} {f k r : Nat} (hfit : f * s.repCount ≤ s.nsites) (hk : k < f) (hr : r < s.repCount) :
    site s k r < s.rowCount * s.colCount := by
  have hplace : k * s.repCount + r < s.nsites := (rowMajor_lt hk hr).trans_le hfit
  obtain ⟨a, ha, hsite⟩ := List.mem_map.1 (List.mem_of_getElem? (s.getElem?_siteAddrs hplace))
  rw [site, ← hsite]
  exact s.siteAddr_lt (mem_makePermutation ha)

/-- What the matrix holds at a site of a frame that fits. -/
theorem getD_matrix_site {s : State} {f k r : Nat} (hfit : f * s.repCount ≤ s.nsites) (hk : k < f) (hr : r < s.repCount) :
    s.matrix.getD (site s k r) 0 = s.matAt (site s k r) := s.getD_matrix (site_lt hfit hk hr)

/-- The sites that carry the frame and the bit of each, by framed bit and repetition (45_frame_mux.md R314). -/
theorem mem_carriers {s : State} (hfit : frameLen s.payloadLen * s.repCount ≤ s.nsites) {c : Nat × Bit} :
    c ∈ s.carriers s.framed ↔ ∃ k r, k < 32 + 8 * s.payloadLen ∧ r < s.repCount ∧ c = (site s k r, framedBit s k) := by
  have hlen := s.length_framed
  have hget : ∀ k r, k < frameLen s.payloadLen → r < s.repCount →
      (s.carriers s.framed)[k * s.repCount + r]? = some (site s k r, framedBit s k) := fun k r hk hr => by
    rw [s.getElem?_carriers s.framed (hlen ▸ hk) hr (hlen ▸ hfit), getD_framed s hk]
    rfl
  constructor
  · intro hc
    obtain ⟨e, he, rfl⟩ := List.mem_iff_getElem.1 hc
    have hplace : ∀ e, e < frameLen s.payloadLen * s.repCount → ∃ k r, k < frameLen s.payloadLen ∧ r < s.repCount
        ∧ (s.carriers s.framed)[e]? = some (site s k r, framedBit s k) :=
      forall_place_iff.2 fun k r hk hr => ⟨k, r, hk, hr, hget k r hk hr⟩
    obtain ⟨k, r, hk, hr, hsite⟩ := hplace e (by rwa [s.length_carriers _ (hlen ▸ hfit), hlen] at he)
    exact ⟨k, r, hk, hr, Option.some.inj ((List.getElem?_eq_getElem he).symm.trans hsite)⟩
  · rintro ⟨k, r, hk, hr, rfl⟩
    exact List.mem_of_getElem? (hget k r hk hr)

/-- No two sites of the permutation are one element (44_qim.md R280). -/
theorem State.nodup_siteAddrs (s : State) : s.siteAddrs.Nodup :=
  (nodup_makePermutation ..).map_on fun _ ha _ hb =>
    s.eq_of_siteAddr_eq (mem_makePermutation ha) (mem_makePermutation hb)

/-- The sites that carry a frame are distinct. -/
theorem nodup_carriers (s : State) (fb : List Bit) : ((s.carriers fb).map Prod.fst).Nodup := by
  rw [State.carriers, List.zip_eq_zip_take_min, List.map_fst_zip (by simp)]
  exact s.nodup_siteAddrs.sublist (List.take_sublist ..)

/-- The sites that carry a frame lie within the matrix. -/
theorem carriers_lt {s : State} {fb : List Bit} {c : Nat × Bit} (hc : c ∈ s.carriers fb) :
    c.1 < s.rowCount * s.colCount := by
  obtain ⟨a, ha, hsite⟩ := List.mem_map.1 (List.of_mem_zip hc).1
  exact hsite ▸ s.siteAddr_lt (mem_makePermutation ha)

/-! #### Embedding -/

section
variable {s : State} {x y : Array F64} (hfit : frameLen s.payloadLen * s.repCount ≤ s.nsites)
include hfit

/-- An embedding fails exactly when one of the used sites cannot be written (45_frame_mux.md R314). -/
theorem embedBand_eq_none : embedBand s x s.framed = none ↔ ∃ k r, k < 32 + 8 * s.payloadLen ∧ r < s.repCount
    ∧ qimWrite (x.getD (site s k r) 0) (framedBit s k) s.q = none := by
  rw [embedBand, embedSites_eq_none]
  constructor
  · rintro ⟨c, hc, hnone⟩
    obtain ⟨k, r, hk, hr, rfl⟩ := (mem_carriers hfit).1 hc
    exact ⟨k, r, hk, hr, hnone⟩
  · rintro ⟨k, r, hk, hr, hnone⟩
    exact ⟨_, (mem_carriers hfit).2 ⟨k, r, hk, hr, rfl⟩, hnone⟩

/-- What a successful embedding writes at the used sites, and that it leaves every other element (45_frame_mux.md R314). -/
theorem embedBand_eq_some (hx : x.size = s.rowCount * s.colCount) (h : embedBand s x s.framed = some y) :
    y.size = s.rowCount * s.colCount
      ∧ (∀ k r, k < 32 + 8 * s.payloadLen → r < s.repCount →
        qimWrite (x.getD (site s k r) 0) (framedBit s k) s.q = some (y.getD (site s k r) 0))
      ∧ ∀ e, (∀ k r, k < 32 + 8 * s.payloadLen → r < s.repCount → e ≠ site s k r) → y.getD e 0 = x.getD e 0 := by
  obtain ⟨hsize, hother, hwritten⟩ :=
    embedSites_eq_some (nodup_carriers s s.framed) (fun c hc => hx ▸ carriers_lt hc) h
  refine ⟨hsize.trans hx, fun k r hk hr => ?_, fun e he => hother e fun hmem => ?_⟩
  · exact hwritten (site s k r, framedBit s k) ((mem_carriers hfit).2 ⟨k, r, hk, hr, rfl⟩)
  · obtain ⟨c, hc, rfl⟩ := List.mem_map.1 hmem
    obtain ⟨k, r, hk, hr, rfl⟩ := (mem_carriers hfit).1 hc
    exact he k r hk hr rfl

end

/-! #### EMBED and EMBEDF -/

/-- An embedding that fails, after the checks before reading (45_frame_mux.md R317). -/
theorem runEmbed_of_unwritten {s : State} (hready : embedReady s true) (h : embedBand s s.matrix s.framed = none) :
    runEmbed s = .error .numeric := by rw [runEmbed, embedCheck_eq_none.2 hready, h]

/-- Settles O33: the embedding is known site by site, and MAT is read back element by element. -/
theorem embedWritesEverySite : Obligations.EmbedWritesEverySite := by
  intro s hready
  have ⟨_, _, hcfg, hcap, _⟩ := hready
  have hfit : frameLen s.payloadLen * s.repCount ≤ s.nsites := s.fits_of_cfgLegal hcfg hcap
  refine ⟨fun hall => ?_, fun k r hk hr hnone => exec_of_error (runEmbed_of_unwritten hready ?_)⟩
  · obtain ⟨y, hy⟩ : ∃ y, embedBand s s.matrix s.framed = some y := by
      refine Option.ne_none_iff_exists'.1 fun hnone => ?_
      obtain ⟨k, r, hk, hr, hsite⟩ := (embedBand_eq_none hfit).1 hnone
      have hsome := hall k r hk hr
      rw [← getD_matrix_site hfit hk hr, hsite] at hsome
      cases hsome
    obtain ⟨hsize, hwritten, hother⟩ := embedBand_eq_some hfit s.size_matrix hy
    obtain ⟨hframe, hrest⟩ := s.embedded_commits y
    refine ⟨_, exec_of_ok (i := .embed) (runEmbed_eq_ok.2 ⟨hready, y, hy, rfl⟩), hframe, fun k r hk hr => ?_,
      fun e he => ?_, hrest⟩
    · have hin := site_lt hfit hk hr
      rw [← getD_matrix_site hfit hk hr, hwritten k r hk hr]
      exact congrArg some ((s.matAt_embedded y _).trans (if_pos (hsize ▸ hin)))
    · refine (s.matAt_embedded y e).trans (ite_eq_right_iff.2 fun hin => ?_)
      exact (hother e he).trans (s.getD_matrix (hin.trans_eq hsize))
  · exact (embedBand_eq_none hfit).2 ⟨k, r, hk, hr, (getD_matrix_site hfit hk hr).symm ▸ hnone⟩

/-- The errors of EMBEDF after the checks before reading (45_frame_mux.md R319). -/
theorem runEmbedf_of_failing_stage {s : State} (hready : embedReady s false)
    (h : haarFwdOK s.rowCount s.colCount s.matrix = false
      ∨ embedBand s (haarFwd s.rowCount s.colCount s.matrix) s.framed = none
      ∨ ∃ y, embedBand s (haarFwd s.rowCount s.colCount s.matrix) s.framed = some y
        ∧ haarInvOK s.rowCount s.colCount y = false) :
    runEmbedf s = .error .numeric := by
  rw [runEmbedf, embedCheck_eq_none.2 hready]
  obtain hfwd | hnone | ⟨y, hy, hinv⟩ := h
  · simp [hfwd]
  · simp [hnone]
  · simp [hy, hinv]

/-- Settles O36: stage by stage. -/
theorem embedfTransformsEmbedsAndInverts : Obligations.EmbedfTransformsEmbedsAndInverts := by
  intro s hready
  have hfails := fun h => exec_of_error (i := .embedf) (runEmbedf_of_failing_stage hready h)
  refine ⟨fun hfwd => hfails (.inl hfwd), fun hnone => hfails (.inr (.inl hnone)),
    fun y hy => ⟨fun hinv => hfails (.inr (.inr ⟨y, hy, hinv⟩)), fun hfwd hinv => ?_⟩⟩
  have hsize := size_haarInv s.rowCount s.colCount y
  obtain ⟨hframe, hrest⟩ := s.embedded_commits (haarInv s.rowCount s.colCount y)
  exact ⟨_, exec_of_ok (i := .embedf) (runEmbedf_eq_ok.2 ⟨hready, hfwd, y, hy, hinv, rfl⟩), hframe,
    fun e he => (s.matAt_embedded _ e).trans (if_pos (hsize ▸ he)),
    fun e he => (s.matAt_embedded _ e).trans (if_neg (Nat.not_lt.2 (hsize ▸ he))), hrest⟩

/-- A command that succeeds committed a result. -/
theorem runOf_of_succeeded {i : Instr} {s u : State} (h : exec i s = .next u) (hu : succeeded u) :
    ∃ t, runOf i s = .ok t ∧ u = t.succeed := by
  rw [exec_eq_finish] at h
  exact finish_ok_of_errcode h hu.2.2

/-- A command that commits its result in a state with no error recorded succeeds, when it records none itself. -/
theorem succeeded_succeed {s t : State} (h : clean s) (herr : t.status.err = s.status.err)
    (hcode : t.status.errcode = s.status.errcode) : succeeded t.succeed :=
  ⟨rfl, herr.trans h.1, hcode.trans h.2⟩

/-- The state that FWD leaves when it succeeds (43_haar.md R255). -/
def State.transformed (s : State) : State :=
  ((s.setMatrix (haarFwd s.rowCount s.colCount s.matrix)).setXf true).succeed

section
variable (s : State)

@[simp] theorem State.transformed_rowCount : s.transformed.rowCount = s.rowCount := rfl
@[simp] theorem State.transformed_colCount : s.transformed.colCount = s.colCount := rfl
@[simp] theorem State.transformed_regs : s.transformed.regs = s.regs := rfl
@[simp] theorem State.transformed_bytes : s.transformed.bytes = s.bytes := rfl
@[simp] theorem State.transformed_bits : s.transformed.bits = s.bits := rfl
@[simp] theorem State.transformed_perm : s.transformed.perm = s.perm := rfl
@[simp] theorem State.transformed_sitePerm : s.transformed.sitePerm = s.sitePerm := rfl
@[simp] theorem State.transformed_framed : s.transformed.framed = s.framed := rfl
@[simp] theorem embedBand_transformed (x : Array F64) (fb : List Bit) :
    embedBand s.transformed x fb = embedBand s x fb := rfl
@[simp] theorem extractBand_transformed (x : Array F64) : extractBand s.transformed x = extractBand s x := rfl

@[simp] theorem State.transformed_matrix : s.transformed.matrix = haarFwd s.rowCount s.colCount s.matrix :=
  s.matrix_setMatrix _ (size_haarFwd ..)

theorem State.matAt_transformed_past {e : Nat} (he : s.rowCount * s.colCount ≤ e) : s.transformed.matAt e = s.matAt e :=
  matAt_setMatrix_past s true (size_haarFwd ..) he

end

section
variable {s t : State}

/-- FWD, when it succeeds (43_haar.md R255). -/
theorem fwd_succeeded (h : exec .fwd s = .next t) (ht : succeeded t) :
    s.legalDims = true ∧ haarFwdOK s.rowCount s.colCount s.matrix = true ∧ t = s.transformed := by
  obtain ⟨_, hrun, rfl⟩ := runOf_of_succeeded h ht
  obtain ⟨-, hdims, hok, rfl⟩ := runFwd_eq_ok.1 hrun
  exact ⟨hdims, hok, rfl⟩

/-- INV, when it succeeds (43_haar.md R256). -/
theorem inv_succeeded (h : exec .inv s = .next t) (ht : succeeded t) :
    haarInvOK s.rowCount s.colCount s.matrix = true
      ∧ t = ((s.setMatrix (haarInv s.rowCount s.colCount s.matrix)).setXf false).succeed := by
  obtain ⟨_, hrun, rfl⟩ := runOf_of_succeeded h ht
  obtain ⟨-, -, hok, rfl⟩ := runInv_eq_ok.1 hrun
  exact ⟨hok, rfl⟩

/-- EMBED, when it succeeds (45_frame_mux.md R317). -/
theorem embed_succeeded (h : exec .embed s = .next t) (ht : succeeded t) :
    embedReady s true ∧ ∃ y, embedBand s s.matrix s.framed = some y ∧ t = s.embedded y := by
  obtain ⟨_, hrun, rfl⟩ := runOf_of_succeeded h ht
  obtain ⟨hready, y, hy, rfl⟩ := runEmbed_eq_ok.1 hrun
  exact ⟨hready, y, hy, rfl⟩

/-- EMBEDF, when it succeeds (45_frame_mux.md R319). -/
theorem embedf_succeeded (h : exec .embedf s = .next t) (ht : succeeded t) :
    embedReady s false ∧ haarFwdOK s.rowCount s.colCount s.matrix = true
      ∧ ∃ y, embedBand s (haarFwd s.rowCount s.colCount s.matrix) s.framed = some y
        ∧ t = s.embedded (haarInv s.rowCount s.colCount y) := by
  obtain ⟨_, hrun, rfl⟩ := runOf_of_succeeded h ht
  obtain ⟨hready, hok, y, hy, -, rfl⟩ := runEmbedf_eq_ok.1 hrun
  exact ⟨hready, hok, y, hy, rfl⟩

end

/-- Settles O38: EMBED reads the matrix that FWD committed and INV the one that EMBED committed, which are the temporaries of
EMBEDF. -/
theorem embedfEqualsFwdEmbedInv : Obligations.EmbedfEqualsFwdEmbedInv := by
  intro s a b c hclean hxf hfwd ha hembed hb hinv hc
  obtain ⟨hdims, hok, rfl⟩ := fwd_succeeded hfwd ha
  obtain ⟨⟨-, -, hready⟩, y, hy, rfl⟩ := embed_succeeded hembed hb
  obtain ⟨hinvok, rfl⟩ := inv_succeeded hinv hc
  rw [embedBand_transformed, State.transformed_matrix, State.transformed_framed] at hy
  have hysize : y.size = s.rowCount * s.colCount := (size_embedSites hy).trans (size_haarFwd ..)
  rw [s.transformed.matrix_embedded hysize, State.embedded_rowCount, State.embedded_colCount, State.transformed_rowCount,
    State.transformed_colCount] at hinvok ⊢
  refine ⟨s.embedded (haarInv s.rowCount s.colCount y),
    exec_of_ok (i := .embedf) (runEmbedf_eq_ok.2 ⟨⟨hxf, hdims, hready⟩, hok, y, hy, hinvok, rfl⟩),
    succeeded_succeed hclean rfl rfl, hxf, ?_, fun e => ?_, fun k => ?_, fun k => ?_, fun j => ?_⟩
  · simp
  · have hmat : ∀ (u : State) (xf : Bool), (u.setXf xf).succeed.matAt e = u.matAt e := fun _ _ => rfl
    rw [hmat, State.matAt_setMatrix, State.matAt_embedded, State.matAt_embedded, size_haarInv, hysize]
    split_ifs with he
    · rfl
    · exact (s.matAt_transformed_past (Nat.not_lt.1 he)).symm
  · simp [State.permAt]
  · simp [State.bitAt]
  · simp [State.byteAt]

/-! #### Reading the sites of the frame -/

/-- The vote of framed bit `k` when repetition `r` of it reads as `g k r` (45_frame_mux.md R315). -/
def voted (s : State) (g : Nat → Nat → Bit) (k : Nat) : Bit := majority ((List.range s.repCount).map (g k))

/-- Equal repetitions vote for the bit they all are (44_qim.md R290). -/
theorem voted_const {s : State} (hreps : 1 ≤ s.repCount) (bit : Nat → Bit) : voted s (fun k _ => bit k) = bit := by
  funext k
  obtain ⟨-, hequal, -⟩ := majorityVoteLaws
  rw [voted, List.map_const', List.length_range]
  exact hequal _ _ hreps

section
variable {s : State} {x : Array F64} {m n : Nat} (hfit : (m + n) * s.repCount ≤ s.nsites)
include hfit

/-- The sites of framed bit `k` stand in a row (45_frame_mux.md R314). -/
theorem siteAddrs_group {k : Nat} (hk : k < m + n) :
    (s.siteAddrs.drop (k * s.repCount)).take s.repCount = (List.range s.repCount).map (site s k) := by
  refine List.ext_getElem? fun r => ?_
  by_cases hr : r < s.repCount
  · have hplace : k * s.repCount + r < s.nsites := (rowMajor_lt hk hr).trans_le hfit
    rw [List.getElem?_take_of_lt hr, List.getElem?_drop, s.getElem?_siteAddrs hplace, List.getElem?_map,
      List.getElem?_range hr]
    rfl
  · rw [List.getElem?_eq_none (by rw [List.length_take]; omega), List.getElem?_eq_none (by simpa using hr)]

/-- The sites of the framed bits from `m` on stand in groups. -/
theorem siteAddrs_group_from {k : Nat} (hk : k < n) :
    ((s.siteAddrs.drop (m * s.repCount)).drop (k * s.repCount)).take s.repCount
      = (List.range s.repCount).map (site s (m + k)) := by
  rw [List.drop_drop, ← Nat.add_mul]
  exact siteAddrs_group hfit (by omega)

/-- The votes of the framed bits from `m` on, when every site reads (45_frame_mux.md R315). -/
theorem votes_of_reads {g : Nat → Nat → Bit}
    (h : ∀ k r, m ≤ k → k < m + n → r < s.repCount → qimRead (x.getD (site s k r) 0) s.q = some (g k r)) :
    votes s.q x s.repCount n (s.siteAddrs.drop (m * s.repCount)) = some ((List.range n).map fun k => voted s g (m + k)) := by
  refine votes_eq_some.2 ⟨by simp, fun k hk => ⟨(List.range s.repCount).map (g (m + k)), ?_, ?_⟩⟩
  · rw [siteAddrs_group_from hfit hk, readSites_eq_some, List.map_map, List.map_map]
    exact List.map_congr_left fun r hr => h _ r (by omega) (by omega) (List.mem_range.1 hr)
  · rw [List.getD_eq_getElem?_getD, List.getElem?_map, List.getElem?_range hk]
    rfl

/-- The votes of the framed bits from `m` on fail when one of their sites does not read. -/
theorem votes_of_unread (h : ∃ k r, m ≤ k ∧ k < m + n ∧ r < s.repCount ∧ qimRead (x.getD (site s k r) 0) s.q = none) :
    votes s.q x s.repCount n (s.siteAddrs.drop (m * s.repCount)) = none := by
  obtain ⟨k, r, hm, hn, hr, hnone⟩ := h
  refine votes_eq_none.2 ⟨k - m, by omega, ?_⟩
  rw [siteAddrs_group_from hfit (by omega), Nat.add_sub_cancel' hm, readSites_eq_none]
  exact ⟨_, List.mem_map_of_mem (List.mem_range.2 hr), hnone⟩

end

/-! #### Extracting -/

/-- What an extraction returns for a payload of `len` bytes whose framed bit `k` votes `vote k` (45_frame_mux.md R315). -/
def Extracted.ofVotes (vote : Nat → Bit) (len : Nat) : Extracted where
  len := len
  bits := (List.range (32 + 8 * len)).map vote
  bytes := bitsToBytes ((List.range (8 * len)).map fun k => vote (32 + k))

section
variable (vote : Nat → Bit) (len : Nat)

@[simp] theorem Extracted.length_bits_ofVotes : (ofVotes vote len).bits.length = frameLen len := by
  simp [ofVotes, frameLen]

@[simp] theorem Extracted.length_bytes_ofVotes : (ofVotes vote len).bytes.length = len := by simp [ofVotes]

theorem Extracted.getD_bits_ofVotes {k : Nat} (h : k < 32 + 8 * len) : (ofVotes vote len).bits.getD k 0 = vote k := by
  simp [ofVotes, List.getD_eq_getElem?_getD, h]

/-- A payload byte is the number of its eight votes (41_bitbyte.md R201). -/
theorem Extracted.getD_bytes_ofVotes {j : Nat} (h : j < len) :
    ((ofVotes vote len).bytes.getD j 0).toNat = msbFirst 8 fun i => vote (32 + 8 * j + i) := by
  have hbits : (((List.range (8 * len)).map fun k => vote (32 + k)).drop (8 * j)).take 8
      = (List.range 8).map fun i => vote (32 + 8 * j + i) := by
    refine List.ext_getElem (by simp; omega) fun i _ _ => ?_
    simp [Nat.add_assoc]
  rw [List.getD_eq_getElem?_getD, ofVotes, getElem?_bitsToBytes _ (by simpa using h), hbits, Option.getD_some,
    toNat_ofNat_bitsToNat _ (by simp), bitsToNat_map_range]

end

section
variable {s : State} {x : Array F64}

/-- A header site that does not read gives NUMERIC (45_frame_mux.md R315). -/
theorem extractBand_of_unread_header (hfit : 32 * s.repCount ≤ s.nsites)
    (h : ∃ k r, k < 32 ∧ r < s.repCount ∧ qimRead (x.getD (site s k r) 0) s.q = none) :
    extractBand s x = .error .numeric := by
  obtain ⟨k, r, hk, hr, hnone⟩ := h
  have hvotes := votes_of_unread (m := 0) (n := 32) (x := x) (by simpa using hfit) ⟨k, r, k.zero_le, by omega, hr, hnone⟩
  rw [Nat.zero_mul, List.drop_zero] at hvotes
  rw [extractBand, hvotes]

/-! What follows a header that reads, repetition r of its bit k as `g k r`. -/

variable {g : Nat → Nat → Bit} {len : Nat} (hlen : len = msbFirst 32 (voted s g))

/-- The header as a number (41_bitbyte.md R203). -/
theorem bitsToU32_header : (bitsToU32 ((List.range 32).map (voted s g)) 0).toNat = msbFirst 32 (voted s g) := by
  rw [bitsToU32, List.drop_zero, List.take_of_length_le (by simp), toNat_ofNat_bitsToNat _ (by simp), bitsToNat_map_range]

theorem votes_header (hfit : 32 * s.repCount ≤ s.nsites)
    (h : ∀ k r, k < 32 → r < s.repCount → qimRead (x.getD (site s k r) 0) s.q = some (g k r)) :
    votes s.q x s.repCount 32 s.siteAddrs = some ((List.range 32).map (voted s g)) := by
  have hvotes := votes_of_reads (m := 0) (n := 32) (x := x) (g := g) (by simpa using hfit)
    fun k r _ hk hr => h k r (by omega) hr
  simp only [Nat.zero_mul, List.drop_zero, Nat.zero_add] at hvotes
  exact hvotes

include hlen

/-- An implausible header gives DECODE_MISMATCH, whatever the payload sites hold (45_frame_mux.md R315). -/
theorem extractBand_of_implausible (hfit : 32 * s.repCount ≤ s.nsites)
    (h : ∀ k r, k < 32 → r < s.repCount → qimRead (x.getD (site s k r) 0) s.q = some (g k r))
    (himplausible : s.capbits < 32 + 8 * len ∨ s.params.bmax < len) : extractBand s x = .error .decodeMismatch := by
  rw [extractBand, votes_header hfit h]
  simp only [bitsToU32_header, ← hlen]
  exact if_pos himplausible

variable (hfit : (32 + 8 * len) * s.repCount ≤ s.nsites) (hcap : 32 + 8 * len ≤ s.capbits) (hmax : len ≤ s.params.bmax)
include hfit hcap hmax

/-- A payload site that does not read gives NUMERIC after a plausible header (45_frame_mux.md R315). -/
theorem extractBand_of_unread_payload
    (h : ∀ k r, k < 32 → r < s.repCount → qimRead (x.getD (site s k r) 0) s.q = some (g k r))
    (hunread : ∃ k r, 32 ≤ k ∧ k < 32 + 8 * len ∧ r < s.repCount ∧ qimRead (x.getD (site s k r) 0) s.q = none) :
    extractBand s x = .error .numeric := by
  have hheader := votes_header ((Nat.mul_le_mul_right _ (Nat.le_add_right ..)).trans hfit) h
  rw [extractBand, hheader]
  simp only [bitsToU32_header, ← hlen]
  rw [if_neg (by simp only [frameLen]; omega), votes_of_unread hfit hunread]

/-- A frame whose sites all read is returned, when its header is plausible (45_frame_mux.md R315). -/
theorem extractBand_of_reads
    (h : ∀ k r, k < 32 + 8 * len → r < s.repCount → qimRead (x.getD (site s k r) 0) s.q = some (g k r)) :
    extractBand s x = .ok (.ofVotes (voted s g) len) := by
  have hheader := votes_header (g := g) (x := x) ((Nat.mul_le_mul_right _ (Nat.le_add_right ..)).trans hfit)
    fun k r hk hr => h k r (by omega) hr
  have hbody := votes_of_reads hfit fun k r _ hk hr => h k r hk hr
  rw [extractBand, hheader]
  simp only [bitsToU32_header, ← hlen]
  rw [if_neg (by simp only [frameLen]; omega), hbody, Extracted.ofVotes, List.range_add, List.map_append, List.map_map]
  rfl

end

/-! #### EXTRACT and EXTRACTF -/

/-- What an extraction that returns `r` leaves (45_frame_mux.md R318, R320). -/
theorem State.setExtracted_commits (s : State) {r : Extracted} (hbits : r.bits.length = frameLen r.len)
    (hbytes : r.bytes.length = r.len) :
    let t := (s.setExtracted r).succeed
    t = { s with
        perm := t.perm
        bits := t.bits
        bytes := t.bytes
        regs.bitlen := BitVec.ofNat 32 (32 + 8 * r.len)
        regs.len := BitVec.ofNat 32 r.len
        inflight := none
        status := doneStatus s }
      ∧ permWritten s t
      ∧ (∀ k, k < 32 + 8 * r.len → t.bitAt k = r.bits.getD k 0)
      ∧ (∀ k, 32 + 8 * r.len ≤ k → t.bitAt k = s.bitAt k)
      ∧ (∀ j, j < r.len → t.byteAt j = r.bytes.getD j 0)
      ∧ ∀ j, r.len ≤ j → t.byteAt j = s.byteAt j := by
  have hbit := fun k => s.bitAt_setBits 0 r.bits k
  have hbyte := fun j => s.byteAt_setBytes r.bytes j
  simp only [hbits, hbytes, frameLen, Nat.zero_add, Nat.zero_le, true_and, Nat.sub_zero] at hbit hbyte
  refine ⟨congrArg (fun n => ((((s.setPerm s.sitePerm).setBits 0 r.bits).setBitlen n).setBytes r.bytes |>.setLen
      r.len).succeed) hbits,
    permWritten_setPerm s, fun k hk => (hbit k).trans (if_pos hk), fun k hk => (hbit k).trans (if_neg (Nat.not_lt.2 hk)),
    fun j hj => (hbyte j).trans (if_pos hj), fun j hj => (hbyte j).trans (if_neg (Nat.not_lt.2 hj))⟩

/-- An extraction that fails, after the checks before reading (45_frame_mux.md R318). -/
theorem runExtract_of_error {s : State} {c : ErrCode} (hready : extractReady s true)
    (h : extractBand s s.matrix = .error c) : runExtract s = .error c := by
  rw [runExtract, extractCheck_eq_none.2 hready, h]

/-- Settles O34: the votes are those of the bits that the sites read as. -/
theorem extractVotesTheFrame : Obligations.ExtractVotesTheFrame := by
  intro s x len vote hready hlen hcap hmax hread
  have ⟨_, _, hcfg, _⟩ := hready
  have hfit := s.fits_of_cfgLegal hcfg hcap
  have hband : extractBand s s.matrix = .ok (.ofVotes vote len) :=
    extractBand_of_reads (g := x) hlen hfit hcap hmax fun k r hk hr =>
      (getD_matrix_site hfit hk hr).symm ▸ hread k r hk hr
  obtain ⟨hframe, hperm, hbits, hbitsRest, hbytes, hbytesRest⟩ :=
    s.setExtracted_commits (Extracted.length_bits_ofVotes vote len) (Extracted.length_bytes_ofVotes vote len)
  exact ⟨_, exec_of_ok (i := .extract) (runExtract_eq_ok.2 ⟨hready, _, hband, rfl⟩), hframe, hperm,
    fun k hk => (hbits k hk).trans (Extracted.getD_bits_ofVotes vote len hk), hbitsRest,
    fun j hj => (congrArg BitVec.toNat (hbytes j hj)).trans (Extracted.getD_bytes_ofVotes vote len hj), hbytesRest⟩

/-- Settles O35: the header is read and checked before the payload. -/
theorem extractRefusesABadHeader : Obligations.ExtractRefusesABadHeader := by
  intro s x hready vote len read
  have ⟨_, _, hcfg, hcap⟩ := hready
  have hfit := s.fits_of_cfgLegal hcfg hcap
  have hfails := fun {c} (h : extractBand s s.matrix = .error c) =>
    exec_of_error (i := .extract) (runExtract_of_error hready h)
  refine ⟨fun ⟨k, r, hk, hr, hnone⟩ => hfails (extractBand_of_unread_header hfit ⟨k, r, hk, hr, ?_⟩), fun hheader => ?_⟩
  · exact (getD_matrix_site hfit hk hr).symm ▸ hnone
  have hreads : ∀ k r, k < 32 → r < s.repCount → qimRead (s.matrix.getD (site s k r) 0) s.q = some (x k r) :=
    fun k r hk hr => (getD_matrix_site hfit hk hr).symm ▸ hheader k r hk hr
  refine ⟨fun himplausible => hfails (extractBand_of_implausible (len := len) rfl hfit hreads himplausible),
    fun hcap hmax ⟨k, r, hpayload, hk, hr, hnone⟩ => ?_⟩
  have hfit := s.fits_of_cfgLegal hcfg hcap
  exact hfails (extractBand_of_unread_payload rfl hfit hcap hmax hreads
    ⟨k, r, hpayload, hk, hr, (getD_matrix_site hfit hk hr).symm ▸ hnone⟩)

/-- The checks on an extraction's header leave a frame that fits CAPBITS (45_frame_mux.md R315). -/
theorem extractBand_fits {s : State} {x : Array F64} {r : Extracted} (h : extractBand s x = .ok r) :
    32 + 8 * r.len ≤ s.capbits := by
  unfold extractBand at h
  split at h
  case h_1 => cases h
  case h_2 =>
    simp only at h
    split at h
    case isTrue => cases h
    case isFalse hplausible =>
      split at h
      case h_1 => cases h
      case h_2 =>
        obtain rfl := Except.ok.inj h
        exact Nat.not_lt.1 fun hlarge => hplausible (.inl hlarge)

/-- The errors of EXTRACTF after the checks before reading (45_frame_mux.md R320). -/
theorem runExtractf_of_error {s : State} {c : ErrCode} (hready : extractReady s false)
    (h : haarFwdOK s.rowCount s.colCount s.matrix = false ∧ c = .numeric
      ∨ haarFwdOK s.rowCount s.colCount s.matrix = true
        ∧ extractBand s (haarFwd s.rowCount s.colCount s.matrix) = .error c) :
    runExtractf s = .error c := by
  rw [runExtractf, extractCheck_eq_none.2 hready]
  obtain ⟨hfwd, rfl⟩ | ⟨hfwd, hband⟩ := h
  · simp [hfwd]
  · simp [hfwd, hband]

/-- Settles O37: stage by stage. -/
theorem extractfTransformsAndExtracts : Obligations.ExtractfTransformsAndExtracts := by
  intro s hready
  refine ⟨fun hfwd => exec_of_error (runExtractf_of_error hready (.inl ⟨hfwd, rfl⟩)),
    fun c hfwd hband => exec_of_error (runExtractf_of_error hready (.inr ⟨hfwd, hband⟩)), fun r hfwd hband => ?_⟩
  obtain ⟨hlen, hbits, hbytes⟩ := extractBand_sizes hband
  obtain ⟨hframe, hrest⟩ := s.setExtracted_commits hbits hbytes
  exact ⟨_, exec_of_ok (i := .extractf) (runExtractf_eq_ok.2 ⟨hready, hfwd, r, hband, rfl⟩), hframe, hlen,
    extractBand_fits hband, hrest⟩

/-- The checks of EXTRACT after FWD are those of EXTRACTF before it. -/
theorem extractCheck_transformed {s : State} (hxf : s.status.xf = false) :
    extractCheck s.transformed true = extractCheck s false := by
  rw [extractCheck, extractCheck, hxf]
  rfl

/-- The errors of EXTRACT (45_frame_mux.md R318). -/
theorem runExtract_eq_error {s : State} {c : ErrCode} (h : runExtract s = .error c) :
    extractCheck s true = some c ∨ extractReady s true ∧ extractBand s s.matrix = .error c := by
  rw [runExtract] at h
  cases hcheck : extractCheck s true with
  | some e =>
    rw [hcheck] at h
    exact .inl (congrArg some (Except.error.inj h))
  | none =>
    rw [hcheck] at h
    refine .inr ⟨extractCheck_eq_none.1 hcheck, ?_⟩
    cases hband : extractBand s s.matrix with
    | error e =>
      rw [hband] at h
      exact congrArg Except.error (Except.error.inj h)
    | ok r =>
      rw [hband] at h
      cases h

/-- What an extraction commits, memory by memory and register by register. -/
theorem State.setExtracted_fields (s : State) (r : Extracted) :
    (s.setExtracted r).regs = { s.regs with bitlen := BitVec.ofNat 32 r.bits.length, len := BitVec.ofNat 32 r.len }
      ∧ (s.setExtracted r).bits = s.bits.writeRange 0 r.bits
      ∧ (s.setExtracted r).bytes = s.bytes.writeRange 0 r.bytes
      ∧ (s.setExtracted r).perm = s.perm.writeRange 0 (s.sitePerm.toList.map (BitVec.ofNat 32)) :=
  ⟨rfl, rfl, rfl, rfl⟩

/-- Settles O39: EXTRACT reads the matrix that FWD committed, which is the temporary of EXTRACTF. -/
theorem extractfEqualsFwdThenExtract : Obligations.ExtractfEqualsFwdThenExtract := by
  intro s a b hclean hxf hfwd ha hextract
  obtain ⟨hdims, hok, rfl⟩ := fwd_succeeded hfwd ha
  rw [exec_eq_finish] at hextract
  obtain ⟨b, hrun, rfl⟩ | ⟨c, hrun, rfl⟩ := finish_cases hextract
  · obtain ⟨hready, r, hband, rfl⟩ := runExtract_eq_ok.1 hrun
    rw [State.transformed_matrix, extractBand_transformed] at hband
    rw [← extractCheck_eq_none, extractCheck_transformed hxf, extractCheck_eq_none] at hready
    obtain ⟨hregs, hbits, hbytes, hperm⟩ := s.setExtracted_fields r
    obtain ⟨hregs', hbits', hbytes', hperm'⟩ := s.transformed.setExtracted_fields r
    refine ⟨_, exec_of_ok (i := .extractf) (runExtractf_eq_ok.2 ⟨hready, hok, r, hband, rfl⟩), rfl, hxf,
      hregs.trans hregs'.symm, ?_, hbits.trans hbits'.symm, hbytes.trans hbytes'.symm, hperm.trans hperm'.symm⟩
    exact hclean.2.trans ha.2.2.symm
  · refine ⟨_, exec_of_error (i := .extractf) ?_, rfl, hxf, rfl, rfl, rfl, rfl, rfl⟩
    obtain hcheck | ⟨hready, hband⟩ := runExtract_eq_error hrun
    · rw [extractCheck_transformed hxf] at hcheck
      rw [runOf, runExtractf, hcheck]
    · rw [State.transformed_matrix, extractBand_transformed] at hband
      rw [← extractCheck_eq_none, extractCheck_transformed hxf, extractCheck_eq_none] at hready
      exact runExtractf_of_error hready (.inr ⟨hok, hband⟩)

/-! #### What is embedded is extracted (45_frame_mux.md R321, R322) -/

section
variable {t t' : State} (h : sameMarking t t')
include h

/-- What two states that agree on a marking have in common. -/
theorem operands_of_sameMarking : t'.rowCount = t.rowCount ∧ t'.colCount = t.colCount ∧ t'.q = t.q
    ∧ t'.repCount = t.repCount ∧ t'.capbits = t.capbits ∧ t'.siteAddrs = t.siteAddrs := by
  obtain ⟨-, -, hrows, hcols, hband, hqLo, hqHi, hseed, -, hreps, -⟩ := h
  have hrowCount : t'.rowCount = t.rowCount := congrArg BitVec.toNat hrows
  have hcolCount : t'.colCount = t.colCount := congrArg BitVec.toNat hcols
  have hrepCount : t'.repCount = t.repCount := congrArg BitVec.toNat hreps
  have hnsites : t'.nsites = t.nsites := by rw [State.nsites, State.nsites, hrowCount, hcolCount]
  have haddr : t'.siteAddr = t.siteAddr := by
    funext a
    simp only [State.siteAddr, hrowCount, hcolCount, hband]
  refine ⟨hrowCount, hcolCount, ?_, hrepCount, ?_, ?_⟩
  · rw [State.q, State.q, hqHi, hqLo]
  · rw [State.capbits, State.capbits, hrepCount, hnsites]
  · rw [State.siteAddrs, State.siteAddrs, State.sitePerm, State.sitePerm, hnsites, hseed, haddr]

/-- Two states that agree on a marking read the same matrix. -/
theorem matrix_of_sameMarking : t'.matrix = t.matrix := by
  obtain ⟨hrows, hcols, -⟩ := operands_of_sameMarking h
  obtain ⟨-, hmat, -⟩ := h
  rw [State.matrix, State.matrix, State.matSize, State.matSize, hrows, hcols, funext hmat]

/-- Two states that agree on a marking extract the same from a matrix. -/
theorem extractBand_of_sameMarking (x : Array F64) : extractBand t' x = extractBand t x := by
  obtain ⟨-, -, hq, hreps, hcap, hsites⟩ := operands_of_sameMarking h
  obtain ⟨hparams, -⟩ := h
  rw [extractBand, extractBand, hq, hreps, hcap, hsites, hparams]

/-- Two states that agree on a marking pass the same checks before an extraction. -/
theorem extractReady_of_sameMarking {xf : Bool} (hready : extractReady t xf) : extractReady t' xf := by
  obtain ⟨hrows, hcols, hq, hreps, hcap, -⟩ := operands_of_sameMarking h
  obtain ⟨hparams, -, -, -, -, -, -, -, hvalid, -, hxf⟩ := h
  rw [extractReady, State.legalDims_iff, State.cfgLegal_iff, State.qLegal] at hready ⊢
  rwa [hxf, hrows, hcols, hparams, hq, hreps, hvalid, hcap]

end

section
variable {s : State} {xf : Bool} (hready : embedReady s xf)
include hready

/-- After an embedding the checks before an extraction pass (45_frame_mux.md R317, R318). -/
theorem extractReady_embedded (y : Array F64) : extractReady (s.embedded y) xf := by
  obtain ⟨hxf, hdims, hcfg, hcap, -⟩ := hready
  exact ⟨hxf, hdims, hcfg, (Nat.le_add_right ..).trans hcap⟩

/-- A matrix whose used sites read as the frame of LEN and BYTE gives that frame back (45_frame_mux.md R321). -/
theorem extractBand_of_framed {x : Array F64} (hread : ∀ k r, k < 32 + 8 * s.payloadLen → r < s.repCount →
      qimRead (x.getD (site s k r) 0) s.q = some (framedBit s k)) :
    extractBand s x = .ok (.ofVotes (framedBit s) s.payloadLen) := by
  obtain ⟨-, -, hcfg, hcap, hmax⟩ := hready
  obtain ⟨-, hreps, -⟩ := s.cfgLegal_iff.1 hcfg
  have hvoted := voted_const hreps (framedBit s)
  have hlen : s.payloadLen = msbFirst 32 (voted s fun k _ => framedBit s k) := by
    rw [hvoted, msbFirst_framedBit_header]
  rw [← hvoted]
  exact extractBand_of_reads hlen (s.fits_of_cfgLegal hcfg hcap) hcap hmax hread

end

/-- What an extraction leaves that returns the payload and the frame of `s` (45_frame_mux.md R321). -/
theorem setExtracted_framed (s : State) {t' : State} (hclean : clean t') :
    let u := (t'.setExtracted (.ofVotes (framedBit s) s.payloadLen)).succeed
    succeeded u ∧ u.mat = t'.mat ∧ u.regs.len = s.regs.len
      ∧ u.regs.bitlen = BitVec.ofNat 32 (32 + 8 * s.payloadLen)
      ∧ (∀ j, j < s.payloadLen → u.byteAt j = s.byteAt j)
      ∧ ∀ k, k < 32 + 8 * s.payloadLen → u.bitAt k = framedBit s k := by
  obtain ⟨hframe, -, hbits, -, hbytes, -⟩ := t'.setExtracted_commits
    (Extracted.length_bits_ofVotes (framedBit s) s.payloadLen) (Extracted.length_bytes_ofVotes (framedBit s) s.payloadLen)
  refine ⟨succeeded_succeed hclean rfl rfl, rfl, BitVec.ofNat_toNat .., congrArg (fun v => v.regs.bitlen) hframe,
    fun j hj => ?_, fun k hk => (hbits k hk).trans (Extracted.getD_bits_ofVotes _ _ hk)⟩
  refine (hbytes j hj).trans (BitVec.eq_of_toNat_eq ?_)
  exact (Extracted.getD_bytes_ofVotes _ _ hj).trans (msbFirst_framedBit_payload s j)

/-- Settles O40: every used site reads as the bit that was written there, so the frame comes back. -/
theorem embedThenExtractReturnsThePayload : Obligations.EmbedThenExtractReturnsThePayload := by
  intro s t t' _ hembed ht hsame hclean'
  obtain ⟨hready, y, hy, rfl⟩ := embed_succeeded hembed ht
  have ⟨_, _, hcfg, hcap, _⟩ := hready
  obtain ⟨hq, -, -⟩ := s.cfgLegal_iff.1 hcfg
  have hfit := s.fits_of_cfgLegal hcfg hcap
  obtain ⟨hsize, hwritten, -⟩ := embedBand_eq_some hfit s.size_matrix hy
  have hband : extractBand s y = .ok (.ofVotes (framedBit s) s.payloadLen) :=
    extractBand_of_framed hready fun k r hk hr => qimReadAfterWrite _ _ _ _ hq (hwritten k r hk hr)
  have hband' : extractBand t' t'.matrix = .ok (.ofVotes (framedBit s) s.payloadLen) := by
    rw [extractBand_of_sameMarking hsame, matrix_of_sameMarking hsame, s.matrix_embedded hsize, extractBand_embedded, hband]
  exact ⟨_, exec_of_ok (i := .extract) (runExtract_eq_ok.2
    ⟨extractReady_of_sameMarking hsame (extractReady_embedded hready y), _, hband', rfl⟩), setExtracted_framed s hclean'⟩

/-- R322: a coefficient whose scaled value is within one half of the lattice index written elsewhere reads as the bit written. -/
theorem qimRead_of_near_written {c c' d q : F64} {b : Bit} (hw : qimWrite c b q = some c') (hd : f64Finite d = true)
    (hdiv : f64Finite (f64Div d q) = true)
    (hnear : 2 * |f64Int (f64Div d q) - latticeIndex (f64Div c q) b * 2 ^ 1074| < 2 ^ 1074) : qimRead d q = some b := by
  obtain ⟨_, hscaled, hindex, -, -⟩ := qimWrite_eq_some.1 hw
  obtain ⟨rfl, -⟩ := scaled_eq_some.1 hscaled
  obtain ⟨hpar, -⟩ := latticeIndex_spec (f64Div c q) b
  rw [Int.abs_eq_natAbs] at hnear
  rw [qimRead_of_near hd hdiv hindex (by omega) (by omega), ofInt_eq_of_emod hpar]

/-- Every element of a transform that passes R254 is finite. -/
theorem finite_haarFwd {rows cols e : Nat} {x : Array F64} (h : haarFwdOK rows cols x = true) (he : e < rows * cols) :
    f64Finite ((haarFwd rows cols x).getD e 0) = true := by
  rw [haarFwdOK, Bool.and_eq_true] at h
  exact (allFinite_iff _).1 h.2 e (by rwa [size_haarFwd])

/-- Settles O41: at every used site the scaled value stayed within one half of the lattice index of the bit written there, so the
site reads as that bit. -/
theorem embedfThenExtractfReturnsThePayload : Obligations.EmbedfThenExtractfReturnsThePayload := by
  intro s t t' _ hembedf ht hsame hclean' hok hnear
  obtain ⟨hready, -, y, hy, rfl⟩ := embedf_succeeded hembedf ht
  have ⟨_, _, hcfg, hcap, _⟩ := hready
  have hfit := s.fits_of_cfgLegal hcfg hcap
  obtain ⟨-, hwritten, -⟩ := embedBand_eq_some hfit (size_haarFwd ..) hy
  have hband := extractBand_of_framed hready fun k r hk hr =>
    qimRead_of_near_written (hwritten k r hk hr) (finite_haarFwd hok (site_lt hfit hk hr)) (hnear k r hk hr).1
      (hnear k r hk hr).2
  obtain ⟨hrows, hcols, -⟩ := operands_of_sameMarking hsame
  rw [State.embedded_rowCount] at hrows
  rw [State.embedded_colCount] at hcols
  have hband' : extractBand t' (haarFwd t'.rowCount t'.colCount t'.matrix) = .ok (.ofVotes (framedBit s) s.payloadLen) := by
    rw [hrows, hcols, matrix_of_sameMarking hsame, extractBand_of_sameMarking hsame, extractBand_embedded, hband]
  refine ⟨_, exec_of_ok (i := .extractf) (runExtractf_eq_ok.2
    ⟨extractReady_of_sameMarking hsame (extractReady_embedded hready _), ?_, _, hband', rfl⟩), setExtracted_framed s hclean'⟩
  rw [hrows, hcols, matrix_of_sameMarking hsame]
  exact hok

end Sys2Proof.Machine

/-! ### The interrupt output (60_exceptions.md R360) -/

namespace Sys2Proof.Machine

open Sys2Proof.Claims

theorem State.irq_iff (s : State) : s.irq = true ↔ s.ctrl.ie = true ∧ s.status.done = true := Bool.and_eq_true_iff

theorem State.irq_of_not_done {s : State} (h : s.status.done = false) : s.irq = false := by
  rw [State.irq, h, Bool.and_false]

theorem State.irq_of_done {s : State} (h : s.status.done = true) : s.irq = s.ctrl.ie := by
  rw [State.irq, h, Bool.and_true]

theorem State.accept_irq (s : State) (w : Word) : (s.accept w).irq = false := State.irq_of_not_done rfl

theorem State.resetRegisters_irq (s : State) : s.resetRegisters.irq = false := State.irq_of_not_done rfl

theorem State.hardReset_irq (s : State) : s.hardReset.irq = false := State.irq_of_not_done rfl

/-- Every completion sets DONE, whatever its outcome (40_command_protocol.md R172, R173). -/
theorem exec_done {i : Instr} {s t : State} (h : exec i s = .next t) : t.status.done = true := by
  rw [exec_eq_finish] at h
  obtain ⟨u, -, rfl⟩ | ⟨c, -, rfl⟩ := finish_cases h
  · exact u.status.succeeded_done
  · exact s.status.failed_done c

/-- No command writes IE, so its completion raises IRQ where IE allows it. -/
theorem exec_irq {i : Instr} {s t : State} (h : exec i s = .next t) : t.irq = s.ctrl.ie := by
  rw [State.irq_of_done (exec_done h), commandsLeaveEveryOtherRegister i s t h]

/-- The reply latch is no part of IRQ: after a register write IRQ is what the write made it. -/
theorem irq_of_write32_reg {s t : State} {r : Reg} {v : Word} (h : write32 s r.offset v = .next t) :
    t.irq = (s.writeReg r v).irq := by
  obtain rfl := Host.Outcome.next.inj ((write32_reg s r v).symm.trans h)
  rfl

/-- An accepted word lowers IRQ. -/
theorem State.writeReg_cmd_irq {s : State} (hidle : s.busy = false) (w : Word) : (s.writeReg .cmd w).irq = false := by
  rw [State.writeReg, State.writeCmd, if_neg (by rw [hidle]; decide), State.accept_irq]

/-- A write of 1 to DONE lowers IRQ. -/
theorem State.writeReg_status_irq (s : State) {v : Word} (hdone : v.getLsbD 1 = true) :
    (s.writeReg .status v).irq = false := by
  refine State.irq_of_not_done ?_
  rw [State.writeReg, Status.writeOneToClear, hdone, Bool.not_true, Bool.and_false]

/-- A soft reset lowers IRQ. -/
theorem State.writeReg_ctrl_irq_of_srst (s : State) {v : Word} (hsrst : srstBit v = true) :
    (s.writeReg .ctrl v).irq = false := by
  rw [State.writeReg, State.writeCtrl, if_pos hsrst, State.softReset, State.resetRegisters_irq]

/-- Any other CTRL write sets IE, busy or idle, and leaves DONE. -/
theorem State.writeReg_ctrl_irq (s : State) {v : Word} (hsrst : srstBit v = false) :
    (s.writeReg .ctrl v).irq = (v.getLsbD 8 && s.status.done) := by
  rw [State.writeReg, State.writeCtrl, if_neg (by rw [hsrst]; decide)]
  split <;> rfl

/-- The hard reset takes its turn on the rest of the agenda (60_exceptions.md R354). -/
theorem step_hardReset {s : State} {rest : List Turn} (hagenda : s.agenda = .hardReset :: rest) :
    step s = .next { s with agenda := rest }.hardReset := by
  rw [step, hagenda]
  rfl

/-- Settles O52: a completion sets DONE and keeps IE, and each of the other events is one register write or a reset. -/
theorem irqFollowsIeAndDone : Obligations.IrqFollowsIeAndDone := by
  refine fun s t => ⟨s.irq_iff, fun i => exec_irq, fun w hidle h => ?cmd, fun v hdone h => ?status, fun v hsrst h => ?ctrl,
    fun v hsrst h => ?softReset, fun rest hagenda h => ?hardReset⟩
  case cmd => exact (irq_of_write32_reg (r := .cmd) h).trans (State.writeReg_cmd_irq hidle w)
  case status => exact (irq_of_write32_reg (r := .status) h).trans (s.writeReg_status_irq hdone)
  case ctrl => exact (irq_of_write32_reg (r := .ctrl) h).trans (s.writeReg_ctrl_irq hsrst)
  case softReset => exact (irq_of_write32_reg (r := .ctrl) h).trans (s.writeReg_ctrl_irq_of_srst hsrst)
  case hardReset =>
    obtain rfl := Host.Outcome.next.inj ((step_hardReset hagenda).symm.trans h)
    exact State.hardReset_irq _

end Sys2Proof.Machine

/-! ### Accesses while a command runs, and resets (70_reset_and_hazards.md) -/

namespace Sys2Proof.Machine

open Sys2Proof.Claims

/-! #### Implemented offsets past the seven exact registers -/

/-- The implemented offsets lie in the block's region (20_memory.md R100, R102). -/
theorem implemented_lt {p : Params} (hp : p.wf) {off : Nat} (h : implemented p off) : off < 2 ^ 27 := by
  have hfit : ∀ g : Region, 4 * g.words p ≤ g.aperture := fun g => g.words_fit p hp
  have hbyte := hfit .byte
  have hbit := hfit .bit
  have hperm := hfit .perm
  have hmat := hfit .mat
  simp only [Region.words, Region.aperture] at hbyte hbit hperm hmat
  unfold implemented at h
  omega

/-- The registers that read exactly while a command runs stand below 0x01C (10_state.md R31). -/
theorem Reg.exactWhileBusy_eq_false {r : Reg} (h : 0x01C ≤ r.offset) : (Target.reg r).exactWhileBusy = false := by
  cases r
  case id | cfgRmax | cfgCmax | cfgBmax | ctrl | status | cmd => exact absurd h (by decide)
  all_goals rfl

/-- An access to an implemented offset from 0x01C on is served, and none of the seven registers serves it. -/
theorem busAccess_implemented {s : State} (hp : s.params.wf) {off : Nat} (hlow : 0x01C ≤ off) (h4 : off % 4 = 0)
    (himpl : implemented s.params off) (op : BusOp) :
    ∃ tgt : Target, tgt.exactWhileBusy = false
      ∧ busAccess { addr := s.params.base + off, width := 32, op := op } s
        = .next { (s.serve tgt op).2 with reply := some (s.serve tgt op).1 } := by
  obtain ⟨tgt, ht⟩ := (exists_targetAt_iff_implemented hp h4).2 himpl
  refine ⟨tgt, ?_, busAccess_served s off op (implemented_lt hp himpl) h4 ht⟩
  obtain ⟨r, rfl, rfl⟩ | ⟨g, w, rfl, -⟩ := targetAt_cases ht
  · exact Reg.exactWhileBusy_eq_false hlow
  · rfl

/-- The operand registers stand from 0x01C on (70_reset_and_hazards.md R403). -/
theorem Reg.le_offset_of_operand : ∀ r ∈ operandRegs, 0x01C ≤ r.offset := by decide

/-! #### Accesses while a command runs -/

/-- A target that reads exactly while a command runs reads exactly in any state (70_reset_and_hazards.md R405). -/
theorem State.serveRead_exact (s : State) {tgt : Target} (h : tgt.exactWhileBusy = true) :
    s.serveRead tgt = (s.readTarget tgt, s) := by
  rw [State.serveRead, h, Bool.not_true, Bool.and_false]
  rfl

section
variable {s : State} (hbusy : s.busy = true)
include hbusy

/-- A write from 0x01C on is dropped with a normal response (70_reset_and_hazards.md R403). -/
theorem write32_busy (hp : s.params.wf) {off : Nat} (hlow : 0x01C ≤ off) (h4 : off % 4 = 0)
    (himpl : implemented s.params off) (v : Word) : write32 s off v = .next { s with reply := some .written } := by
  obtain ⟨tgt, hexact, hserved⟩ := busAccess_implemented hp hlow h4 himpl (.write v)
  have hdropped : s.writeTarget tgt v = s := by
    refine State.writeTarget_busy hbusy v ?_ ?_ ?_ <;>
      rintro rfl <;> exact absurd hexact (by decide)
  exact hserved.trans (by rw [State.serve, hdropped])

/-- A read of any target but the seven exact registers takes a fresh draw (70_reset_and_hazards.md R405). -/
theorem State.serveRead_busy_draw {tgt : Target} (h : tgt.exactWhileBusy = false) :
    s.serveRead tgt = (Config.draw 32 s.drawCount 0, { s with drawCount := s.drawCount + 1 }) := by
  rw [State.serveRead, hbusy, h]
  rfl

end

/-- Settles O54: operand registers and window words alike stand from 0x01C on, where a busy block drops every write. -/
theorem operandWritesWhileBusyAreDropped : Obligations.OperandWritesWhileBusyAreDropped := by
  refine fun s v hbusy hp => ⟨fun r hr => ?_, fun off hwindow h4 himpl => ?_⟩
  · obtain ⟨hle, h4⟩ := r.offset_le
    exact write32_busy hbusy hp (Reg.le_offset_of_operand r hr) h4 (.inl hle) v
  · exact write32_busy hbusy hp (by omega) h4 himpl v

/-- Settles O55: the seven registers are served exactly, and every target from 0x01C on by a draw. -/
theorem busyReadsAreExactOrDraws : Obligations.BusyReadsAreExactOrDraws := by
  refine fun s hbusy hp => ⟨fun r hr => ?_, fun off hlow h4 himpl => ⟨0, ?_⟩⟩
  · have hexact : ∀ r ∈ exactRegs, (Target.reg r).exactWhileBusy = true := by decide
    refine (busAccess_reg s r .read).trans ?_
    rw [State.serve, s.serveRead_exact (hexact r hr)]
    rfl
  · obtain ⟨tgt, hdraw, hserved⟩ := busAccess_implemented hp hlow h4 himpl .read
    exact hserved.trans (by rw [State.serve, State.serveRead_busy_draw hbusy hdraw])

/-! #### What a reset leaves -/

/-- STATUS as it reads when nothing is in flight (10_state.md R35). -/
def Status.idleWord (st : Status) : Word :=
  0#22 ++ BitVec.ofBool st.seedValid ++ BitVec.ofBool st.xf ++ errcodeField st.errcode ++ BitVec.ofBool st.cmdlost
    ++ BitVec.ofBool st.err ++ BitVec.ofBool st.done ++ BitVec.ofBool false

theorem State.readReg_status_idle {s : State} (hidle : s.inflight = none) : s.readReg .status = s.status.idleWord := by
  rw [State.readReg, State.statusWord, State.busy, hidle]
  rfl

/-- A state with the reset registers reads the reset values, whatever its parameters and memories (10_state.md R60). -/
theorem readsResetValues_of_reset {t : State} (hregs : t.regs = Regs.reset) (hctrl : t.ctrl = Ctrl.reset)
    (hstatus : t.status = Status.reset) (hidle : t.inflight = none) : readsResetValues t := by
  have hctrlWord : t.readReg .ctrl = 0x00000002 := by
    rw [State.readReg, hctrl]
    decide
  have hstatusWord : t.readReg .status = 0x00000000 := by
    rw [State.readReg_status_idle hidle, hstatus]
    decide
  have hirq : t.irq = false := State.irq_of_not_done (by rw [hstatus]; rfl)
  refine ⟨rfl, hctrlWord, hstatusWord, ?_⟩
  simp [State.readReg, State.nsites, State.capbits, State.repCount, State.rowCount, State.colCount, hregs, Regs.reset, hidle,
    hirq]

section
variable {w id : Nat} {s : State} {hit : Nat → Prop}

/-- An unwritten memory of a new draw is redrawn everywhere (10_state.md R61). -/
theorem redrawn_undefined (hid : s.drawCount ≤ id) (before : Memory w) :
    redrawn s before (Memory.undefined w id) (fun _ => True) :=
  fun a => ⟨fun _ => ⟨id, hid, Memory.slot_undefined w id a⟩, fun h => absurd trivial h⟩

/-- A memory scrambled by a new draw is redrawn exactly in the scrambled range. -/
theorem redrawn_scramble (hid : s.drawCount ≤ id) (m : Memory w) {lo n : Nat}
    (hhit : ∀ a, hit a ↔ lo ≤ a ∧ a < lo + n) : redrawn s m (m.scramble lo n id) hit := by
  intro a
  rw [hhit, Memory.slot_scramble]
  exact ⟨fun hin => ⟨id, hid, if_pos hin⟩, fun hout => if_neg hout⟩

end

/-- Settles O56: the registers are reset, and each memory is unwritten under one of four new draws. -/
theorem hardResetResetsEverything : Obligations.HardResetResetsEverything := by
  intro s rest hagenda
  exact ⟨_, step_hardReset hagenda, readsResetValues_of_reset rfl rfl rfl rfl, rfl, rfl, rfl,
    redrawn_undefined (Nat.le_add_right _ 0) _, redrawn_undefined (Nat.le_add_right _ 1) _,
    redrawn_undefined (Nat.le_add_right _ 2) _, redrawn_undefined (Nat.le_add_right _ 3) _⟩

/-! #### The ranges of an aborted command -/

/-- The range of one memory, a start and a count. -/
def AbortRanges.range (r : AbortRanges) (g : Region) : Nat × Nat :=
  match g with
  | .byte => r.byte
  | .bit => r.bit
  | .perm => r.perm
  | .mat => r.mat

/-- Element `a` of memory `g` lies in the ranges. -/
def AbortRanges.covers (r : AbortRanges) (g : Region) (a : Nat) : Prop :=
  (r.range g).1 ≤ a ∧ a < (r.range g).1 + (r.range g).2

theorem AbortRanges.not_none_covers (g : Region) (a : Nat) : ¬ AbortRanges.none.covers g a := by
  cases g <;> exact fun h => Nat.not_lt_zero _ h.2

/-- The ranges that the model computes are the elements of the abort table (70_reset_and_hazards.md R392). -/
theorem abortRanges_covers (s : State) (i : Instr) (g : Region) (a : Nat) :
    (abortRanges s i).covers g a ↔ abortTable s i g a := by
  cases i <;> simp only [abortRanges]
  case nop | bitsu32 | posmod | qwrite | qread => exact iff_of_false (AbortRanges.not_none_covers g a) id
  case b2bits | bits2b | permgen | frame =>
    cases g <;> simp [AbortRanges.covers, AbortRanges.range, AbortRanges.none, abortTable, frameLen]
  case u32bits =>
    split
    case isTrue hoff =>
      cases g
      case bit =>
        simp only [AbortRanges.covers, AbortRanges.range, abortTable, hoff, true_and]
        omega
      case byte | perm | mat => exact iff_of_false (fun h => Nat.not_lt_zero a h.2) id
    case isFalse hoff =>
      refine iff_of_false (AbortRanges.not_none_covers g a) ?_
      cases g <;> simp [abortTable, hoff]
  case fwd | inv | embed | extract | embedf | extractf =>
    split
    case isTrue hdims =>
      cases g <;> simp [AbortRanges.covers, AbortRanges.range, AbortRanges.none, abortTable, hdims, State.matSize]
    case isFalse hdims =>
      refine iff_of_false (AbortRanges.not_none_covers g a) ?_
      cases g <;> simp [abortTable, hdims]

/-- Element `a` of memory `g` is one that the abort table gives the command in flight, if there is one. -/
def State.aborts (s : State) (g : Region) (a : Nat) : Prop :=
  ∃ w i, s.inflight = some w ∧ decodeWord w = .ok i ∧ abortTable s i g a

/-- An idle block and an illegal word have no ranges, and a command has those of the table (70_reset_and_hazards.md R391,
R392). -/
theorem State.inflightRanges_covers (s : State) (g : Region) (a : Nat) :
    s.inflightRanges.covers g a ↔ s.aborts g a := by
  unfold State.inflightRanges State.aborts
  split
  case h_1 hidle => exact iff_of_false (AbortRanges.not_none_covers g a) (by simp [hidle])
  case h_2 w hw =>
    split
    case h_1 i hi => simp [hw, hi, abortRanges_covers]
    case h_2 e he => exact iff_of_false (AbortRanges.not_none_covers g a) (by simp [hw, he])

/-- A MAT word lies in a range of words exactly when its element lies in the range of elements (20_memory.md R104). -/
theorem mat_word_mem_iff (lo n a : Nat) : (2 * lo ≤ a ∧ a < 2 * lo + 2 * n) ↔ (lo ≤ a / 2 ∧ a / 2 < lo + n) := by
  omega

/-- Settles O57: the registers are reset after each memory is scrambled, by a new draw, in the range of the command in
flight. -/
theorem softResetRedrawsOnlyTheAbortedRanges : Obligations.SoftResetRedrawsOnlyTheAbortedRanges := by
  intro s v hsrst hit
  have hwrite : s.writeReg .ctrl v = s.softReset := if_pos hsrst
  have hcovers : ∀ g a, hit g a ↔ s.inflightRanges.covers g a := fun g a => (s.inflightRanges_covers g a).symm
  refine ⟨_, write32_reg s .ctrl v, rfl, ?_⟩
  rw [hwrite]
  exact ⟨readsResetValues_of_reset rfl rfl rfl rfl, rfl,
    redrawn_scramble (Nat.le_add_right _ 0) _ fun a => (hcovers .mat (a / 2)).trans (mat_word_mem_iff _ _ a).symm,
    redrawn_scramble (Nat.le_add_right _ 1) _ (hcovers .byte), redrawn_scramble (Nat.le_add_right _ 2) _ (hcovers .bit),
    redrawn_scramble (Nat.le_add_right _ 3) _ (hcovers .perm)⟩

/-! #### The first command after a reset -/

/-- The step after a command's word is accepted completes that command (log entry 17). -/
theorem step_withFetchWord (s : State) (i : Instr) :
    step (s.withFetchWord 32 (encode i).toNat) = exec i (s.accept (encode i)) := by
  rw [State.withFetchWord, tableWord_toNat]
  exact (step_engine rfl).trans (engineTurn_command rfl (decodeWord_encode i))

/-- STATUS after the first command from reset, by the command's completion (70_reset_and_hazards.md R393). -/
theorem firstStatus_of_exec {i : Instr} {t : State} {word : Word} (hexec : exec i (State.reset.accept (encode i)) = .next t)
    (hidle : t.inflight = none) (hword : t.status.idleWord = word) :
    ∃ t, step (State.reset.withFetchWord 32 (encode i).toNat) = .next t ∧ t.readReg .status = word :=
  ⟨t, (step_withFetchWord State.reset i).trans hexec, (State.readReg_status_idle hidle).trans hword⟩

/-- STATUS after a first command that finds the error `c`. -/
theorem firstStatus_of_error {i : Instr} {c : ErrCode} {word : Word}
    (hrun : runOf i (State.reset.accept (encode i)) = .error c) (hword : (Status.reset.failed c).idleWord = word) :
    ∃ t, step (State.reset.withFetchWord 32 (encode i).toNat) = .next t ∧ t.readReg .status = word :=
  firstStatus_of_exec (exec_of_error hrun) rfl hword

/-- Settles O58: each of the six commands computes a result that leaves STATUS alone, and each of the others meets its first
failing check. -/
theorem firstCommandAfterReset : Obligations.FirstCommandAfterReset := by
  refine ⟨fun i hi => ?success, fun i hi => firstStatus_of_error (c := .config) ?config (by decide),
    fun i hi => firstStatus_of_error (c := .dimension) ?dimension (by decide),
    fun i hi => firstStatus_of_error (c := .sequence) ?sequence (by decide)⟩
  case success =>
    obtain ⟨u, hrun, hstatus⟩ : ∃ u, runOf i (State.reset.accept (encode i)) = .ok u ∧ u.status = Status.reset := by
      fin_cases hi <;> exact ⟨_, rfl, rfl⟩
    exact firstStatus_of_exec (exec_of_ok hrun) rfl (by rw [State.succeed_status, hstatus]; decide)
  case config => fin_cases hi <;> rfl
  case dimension => fin_cases hi <;> rfl
  case sequence => fin_cases hi <;> rfl

end Sys2Proof.Machine
